-- ==== Sys2Proof/Word.lean ====
section
/-! DEFINITION. The words of the machine: register words, operands, ClockIds. -/

namespace Sys2Proof

/-- A byte of the register target's storage. -/
abbrev Byte := BitVec 8

/-- A register, a bus word, a bus address or a base handle: `REG_W = ADDR_W = 32` (R7, R51, R52). -/
abbrev Word := BitVec 32

/-- An operand or result register of the port, 64 bits (R21); a rate in Hz fills it (`RATE_W`, R7). -/
abbrev Operand := BitVec 64

/-- A ClockId: 16 bits, the kind tag above the local index (R86). -/
abbrev ClockId := BitVec 16

end Sys2Proof
end

