-- ==== Sys2Proof/Config.lean ====
section
/-! DEFINITION. What an implementation fixes (00_scope.md R7) and the free values: values the spec leaves open,
constants without a body, so that nothing proved here can depend on what they are. -/

namespace Sys2Proof

/-- The parameter `RDIV`: how a rate-producing division written with a plain `/` rounds (R7, R10). -/
inductive RoundMode where
  | floor
  | nearest
deriving DecidableEq, Repr

/-- The parameters of R7 that are not fixed by the source and not part of a node description. They stand in the
state, where no step changes them, so that a claim about every state covers every value of them. -/
structure Params where
  /-- `RDIV`, default `floor` (R7, R10, D7). -/
  rdiv : RoundMode
  /-- `NODE_MAX`, the capacity of the node table (R7). -/
  nodeMax : Nat
deriving DecidableEq, Repr

namespace Config

/-- `FRAC_BITS`: the width of the fractional-PLL fraction field (R7). -/
def fracBits : Nat := 22

/-- `MUX_MAX`: the largest number of entries of a mux table (R7). -/
def muxMax : Nat := 10

/-- `GCK_DIV_MAX`: the largest divisor of the generic-clock search (R7). -/
def gckDivMax : Nat := 256

/-- `PROG_DIV_MAX`: the largest divider of the programmable clock in direct mode (R7). -/
def progDivMax : Nat := 256

/-- The largest kind tag of a well-formed ClockId (R88). -/
def tagMax : Nat := 4

/-- The default parameters: `RDIV = floor` (R7), and the largest capacity R7 allows, 5 × 256.
DESIGN CHOICE (assumption 5): `NODE_MAX` is OPEN in the spec. -/
def defaultParams : Params := { rdiv := .floor, nodeMax := 1280 }

/-- FREE VALUE (assumption 2): the target's `n`-th answer on the bits no rule fixes: status bits (R62), strobe bits
(R61), an address without a register (R59, U1). Used when the state lists no answer to come. -/
opaque draw : Nat → Word

/-- FREE VALUE (assumption 3): what a byte of a plain register held before the engine first wrote it (R37, U6). -/
opaque heldByte : Nat → Byte

/-- FREE VALUE (assumption 17): what a byte of a plain register had in use before the target first took one into use.
It need not be the byte a read returns (R34, R37). -/
opaque heldInUse : Nat → Byte

/-- FREE VALUE (assumption 3): the selected ID, in place, that the shared command register at an address held
before the engine first wrote it (R33, R37, U7). -/
opaque heldSelect : Word → Word

/-- FREE VALUE (assumption 3): the configuration that an ID (in place) of the shared command register at an address
held before the engine first applied one (R37, U6). -/
opaque heldConfig : Word → Word → Word

end Config

end Sys2Proof
end

