-- ==== Sys2Proof/Syntax.lean ====
section
/-! DEFINITION. The command set: one constructor for each row of spec/opcode_table.json (R84). -/

namespace Sys2Proof

/-- A command of PLLSYN. Every command word has the one format `C` of R81, so every command carries the word's `node`
field; a command that names no node has it zero (`Instr.WellFormed`). The other operands are the operand registers
of the port (R82), which are state. -/
inductive Instr where
  /-- `REG.READ`, opcode 0x01 (R113). -/
  | regRead (node : ClockId)
  /-- `REG.WRITE`, opcode 0x02 (R114). -/
  | regWrite (node : ClockId)
  /-- `REG.UPDATE`, opcode 0x03 (R115). -/
  | regUpdate (node : ClockId)
  /-- `MUX.P2S`, opcode 0x10 (R131). -/
  | muxP2s (node : ClockId)
  /-- `MUX.S2I`, opcode 0x11 (R132). -/
  | muxS2i (node : ClockId)
  /-- `NODE.REGISTER`, opcode 0x20 (R232). -/
  | nodeRegister (node : ClockId)
  /-- `NODE.RESOLVE`, opcode 0x21 (R233). -/
  | nodeResolve (node : ClockId)
  /-- `FPLL.ENABLE`, opcode 0x30 (R144). -/
  | fpllEnable (node : ClockId)
  /-- `FPLL.DISABLE`, opcode 0x31 (R146). -/
  | fpllDisable (node : ClockId)
  /-- `FPLL.GET_RATE`, opcode 0x32 (R147). -/
  | fpllGetRate (node : ClockId)
  /-- `FPLL.SET_RATE`, opcode 0x33 (R142). -/
  | fpllSetRate (node : ClockId)
  /-- `FPLL.SET_PARENT`, opcode 0x34 (R148). -/
  | fpllSetParent (node : ClockId)
  /-- `DPLL.ENABLE`, opcode 0x40 (R164). -/
  | dpllEnable (node : ClockId)
  /-- `DPLL.DISABLE`, opcode 0x41 (R165). -/
  | dpllDisable (node : ClockId)
  /-- `DPLL.GET_RATE`, opcode 0x42 (R166). -/
  | dpllGetRate (node : ClockId)
  /-- `DPLL.SET_RATE`, opcode 0x43 (R162). -/
  | dpllSetRate (node : ClockId)
  /-- `DPLL.SET_PARENT`, opcode 0x44 (R167). -/
  | dpllSetParent (node : ClockId)
  /-- `MCK.ENABLE`, opcode 0x50 (R177). -/
  | mckEnable (node : ClockId)
  /-- `MCK.DISABLE`, opcode 0x51 (R178). -/
  | mckDisable (node : ClockId)
  /-- `MCK.GET_RATE`, opcode 0x52 (R176). -/
  | mckGetRate (node : ClockId)
  /-- `MCK.SET_RATE`, opcode 0x53 (R181). -/
  | mckSetRate (node : ClockId)
  /-- `MCK.SET_PARENT`, opcode 0x54 (R179). -/
  | mckSetParent (node : ClockId)
  /-- `GCK.ENABLE`, opcode 0x60 (R191). -/
  | gckEnable (node : ClockId)
  /-- `GCK.DISABLE`, opcode 0x61 (R192). -/
  | gckDisable (node : ClockId)
  /-- `GCK.GET_RATE`, opcode 0x62 (R197). -/
  | gckGetRate (node : ClockId)
  /-- `GCK.SET_RATE`, opcode 0x63 (R195). -/
  | gckSetRate (node : ClockId)
  /-- `GCK.SET_PARENT`, opcode 0x64 (R196). -/
  | gckSetParent (node : ClockId)
  /-- `PERI.ENABLE`, opcode 0x70 (R199). -/
  | periEnable (node : ClockId)
  /-- `PERI.DISABLE`, opcode 0x71 (R200). -/
  | periDisable (node : ClockId)
  /-- `PERI.GET_RATE`, opcode 0x72 (R201). -/
  | periGetRate (node : ClockId)
  /-- `PERI.SET_RATE`, opcode 0x73 (R202). -/
  | periSetRate (node : ClockId)
  /-- `PERI.SET_PARENT`, opcode 0x74 (R203). -/
  | periSetParent (node : ClockId)
  /-- `PROG.ENABLE`, opcode 0x80 (R219). -/
  | progEnable (node : ClockId)
  /-- `PROG.DISABLE`, opcode 0x81 (R221). -/
  | progDisable (node : ClockId)
  /-- `PROG.GET_RATE`, opcode 0x82 (R220). -/
  | progGetRate (node : ClockId)
  /-- `PROG.SET_RATE`, opcode 0x83 (R218). -/
  | progSetRate (node : ClockId)
  /-- `PROG.SET_PARENT`, opcode 0x84 (R216). -/
  | progSetParent (node : ClockId)
  /-- `OSC.ENABLE`, opcode 0x90 (R236). -/
  | oscEnable (node : ClockId)
  /-- `OSC.DISABLE`, opcode 0x91 (R237). -/
  | oscDisable (node : ClockId)
  /-- `OSC.GET_RATE`, opcode 0x92 (R235). -/
  | oscGetRate (node : ClockId)
  /-- `OSC.SET_RATE`, opcode 0x93 (R238). -/
  | oscSetRate (node : ClockId)
  /-- `OSC.SET_PARENT`, opcode 0x94 (R239). -/
  | oscSetParent (node : ClockId)
  /-- `ENABLE`, opcode 0xF0 (R241). -/
  | enable (node : ClockId)
  /-- `DISABLE`, opcode 0xF1 (R241). -/
  | disable (node : ClockId)
  /-- `GET_RATE`, opcode 0xF2 (R241). -/
  | getRate (node : ClockId)
  /-- `SET_RATE`, opcode 0xF3 (R241). -/
  | setRate (node : ClockId)
  /-- `SET_PARENT`, opcode 0xF4 (R241). -/
  | setParent (node : ClockId)
deriving DecidableEq, Repr

end Sys2Proof
end

