-- ==== Sys2Proof/WellFormed.lean ====
section
/-! DEFINITION. Well-formed commands. -/

namespace Sys2Proof

/-- The command's `node` field. -/
def Instr.node : Instr → ClockId
  | .regRead n => n
  | .regWrite n => n
  | .regUpdate n => n
  | .muxP2s n => n
  | .muxS2i n => n
  | .nodeRegister n => n
  | .nodeResolve n => n
  | .fpllEnable n => n
  | .fpllDisable n => n
  | .fpllGetRate n => n
  | .fpllSetRate n => n
  | .fpllSetParent n => n
  | .dpllEnable n => n
  | .dpllDisable n => n
  | .dpllGetRate n => n
  | .dpllSetRate n => n
  | .dpllSetParent n => n
  | .mckEnable n => n
  | .mckDisable n => n
  | .mckGetRate n => n
  | .mckSetRate n => n
  | .mckSetParent n => n
  | .gckEnable n => n
  | .gckDisable n => n
  | .gckGetRate n => n
  | .gckSetRate n => n
  | .gckSetParent n => n
  | .periEnable n => n
  | .periDisable n => n
  | .periGetRate n => n
  | .periSetRate n => n
  | .periSetParent n => n
  | .progEnable n => n
  | .progDisable n => n
  | .progGetRate n => n
  | .progSetRate n => n
  | .progSetParent n => n
  | .oscEnable n => n
  | .oscDisable n => n
  | .oscGetRate n => n
  | .oscSetRate n => n
  | .oscSetParent n => n
  | .enable n => n
  | .disable n => n
  | .getRate n => n
  | .setRate n => n
  | .setParent n => n

/-- Whether the command names a node: all but the three register-access commands and `NODE.REGISTER`, whose `node`
field R84 gives as "zero". -/
def Instr.namesNode : Instr → Bool
  | .regRead _ => false
  | .regWrite _ => false
  | .regUpdate _ => false
  | .muxP2s _ => true
  | .muxS2i _ => true
  | .nodeRegister _ => false
  | .nodeResolve _ => true
  | .fpllEnable _ => true
  | .fpllDisable _ => true
  | .fpllGetRate _ => true
  | .fpllSetRate _ => true
  | .fpllSetParent _ => true
  | .dpllEnable _ => true
  | .dpllDisable _ => true
  | .dpllGetRate _ => true
  | .dpllSetRate _ => true
  | .dpllSetParent _ => true
  | .mckEnable _ => true
  | .mckDisable _ => true
  | .mckGetRate _ => true
  | .mckSetRate _ => true
  | .mckSetParent _ => true
  | .gckEnable _ => true
  | .gckDisable _ => true
  | .gckGetRate _ => true
  | .gckSetRate _ => true
  | .gckSetParent _ => true
  | .periEnable _ => true
  | .periDisable _ => true
  | .periGetRate _ => true
  | .periSetRate _ => true
  | .periSetParent _ => true
  | .progEnable _ => true
  | .progDisable _ => true
  | .progGetRate _ => true
  | .progSetRate _ => true
  | .progSetParent _ => true
  | .oscEnable _ => true
  | .oscDisable _ => true
  | .oscGetRate _ => true
  | .oscSetRate _ => true
  | .oscSetParent _ => true
  | .enable _ => true
  | .disable _ => true
  | .getRate _ => true
  | .setRate _ => true
  | .setParent _ => true

/-- A command is well-formed when its word is legal (R95): a command that names no node has `node = 0`. Every value
of `node` is legal in a command that names one; a malformed ClockId there is the command's own error (R88, R242). -/
def Instr.wellFormed (i : Instr) : Bool :=
  i.namesNode || i.node == 0

/-- `Instr.wellFormed` as a proposition. -/
abbrev Instr.WellFormed (i : Instr) : Prop := i.wellFormed = true

end Sys2Proof
end

