-- ==== Sys2Proof/Decode.lean ====
section
/-! DEFINITION. The decoder of command words (R81 to R84, R95) and, after it, the encoder. The command word is a
32-bit port register, so the decoder reads a `Word`; it is total, and it rejects an illegal word by name. -/

namespace Sys2Proof

/-- Why a command word is illegal (R95). The engine answers each with `InvalidArgument` (R254 (a)). -/
inductive IllegalWord where
  /-- `bits[31:24] ≠ 0`. -/
  | zeroFieldSet
  /-- `op` is not one of the 47 opcodes of R84. -/
  | unassignedOpcode
  /-- `node ≠ 0` in a command whose `node` is "zero". -/
  | nodeNotZero
deriving DecidableEq, Repr

/-- `bits[7:0]`, the opcode (R81). -/
def opField (w : Word) : BitVec 8 := w.extractLsb' 0 8

/-- `bits[23:8]`, the `node` field (R81). -/
def nodeField (w : Word) : ClockId := w.extractLsb' 8 16

/-- `bits[31:24]`, which must be zero (R81). -/
def zeroField (w : Word) : BitVec 8 := w.extractLsb' 24 8

/-- The command an opcode selects (R83, R84). -/
def commandOf (op : Nat) (node : ClockId) : Option Instr :=
  match op with
  | 0x01 => some (.regRead node)
  | 0x02 => some (.regWrite node)
  | 0x03 => some (.regUpdate node)
  | 0x10 => some (.muxP2s node)
  | 0x11 => some (.muxS2i node)
  | 0x20 => some (.nodeRegister node)
  | 0x21 => some (.nodeResolve node)
  | 0x30 => some (.fpllEnable node)
  | 0x31 => some (.fpllDisable node)
  | 0x32 => some (.fpllGetRate node)
  | 0x33 => some (.fpllSetRate node)
  | 0x34 => some (.fpllSetParent node)
  | 0x40 => some (.dpllEnable node)
  | 0x41 => some (.dpllDisable node)
  | 0x42 => some (.dpllGetRate node)
  | 0x43 => some (.dpllSetRate node)
  | 0x44 => some (.dpllSetParent node)
  | 0x50 => some (.mckEnable node)
  | 0x51 => some (.mckDisable node)
  | 0x52 => some (.mckGetRate node)
  | 0x53 => some (.mckSetRate node)
  | 0x54 => some (.mckSetParent node)
  | 0x60 => some (.gckEnable node)
  | 0x61 => some (.gckDisable node)
  | 0x62 => some (.gckGetRate node)
  | 0x63 => some (.gckSetRate node)
  | 0x64 => some (.gckSetParent node)
  | 0x70 => some (.periEnable node)
  | 0x71 => some (.periDisable node)
  | 0x72 => some (.periGetRate node)
  | 0x73 => some (.periSetRate node)
  | 0x74 => some (.periSetParent node)
  | 0x80 => some (.progEnable node)
  | 0x81 => some (.progDisable node)
  | 0x82 => some (.progGetRate node)
  | 0x83 => some (.progSetRate node)
  | 0x84 => some (.progSetParent node)
  | 0x90 => some (.oscEnable node)
  | 0x91 => some (.oscDisable node)
  | 0x92 => some (.oscGetRate node)
  | 0x93 => some (.oscSetRate node)
  | 0x94 => some (.oscSetParent node)
  | 0xF0 => some (.enable node)
  | 0xF1 => some (.disable node)
  | 0xF2 => some (.getRate node)
  | 0xF3 => some (.setRate node)
  | 0xF4 => some (.setParent node)
  | _ => none

/-- The command of a word, or the reason it is illegal (R81, R95). -/
def decode (w : Word) : Except IllegalWord Instr :=
  if zeroField w ≠ 0 then .error .zeroFieldSet
  else
    match commandOf (opField w).toNat (nodeField w) with
    | none => .error .unassignedOpcode
    | some i => if i.wellFormed then .ok i else .error .nodeNotZero

/-- The opcode of a command (R84). -/
def opcodeOf : Instr → BitVec 8
  | .regRead _ => 0x01
  | .regWrite _ => 0x02
  | .regUpdate _ => 0x03
  | .muxP2s _ => 0x10
  | .muxS2i _ => 0x11
  | .nodeRegister _ => 0x20
  | .nodeResolve _ => 0x21
  | .fpllEnable _ => 0x30
  | .fpllDisable _ => 0x31
  | .fpllGetRate _ => 0x32
  | .fpllSetRate _ => 0x33
  | .fpllSetParent _ => 0x34
  | .dpllEnable _ => 0x40
  | .dpllDisable _ => 0x41
  | .dpllGetRate _ => 0x42
  | .dpllSetRate _ => 0x43
  | .dpllSetParent _ => 0x44
  | .mckEnable _ => 0x50
  | .mckDisable _ => 0x51
  | .mckGetRate _ => 0x52
  | .mckSetRate _ => 0x53
  | .mckSetParent _ => 0x54
  | .gckEnable _ => 0x60
  | .gckDisable _ => 0x61
  | .gckGetRate _ => 0x62
  | .gckSetRate _ => 0x63
  | .gckSetParent _ => 0x64
  | .periEnable _ => 0x70
  | .periDisable _ => 0x71
  | .periGetRate _ => 0x72
  | .periSetRate _ => 0x73
  | .periSetParent _ => 0x74
  | .progEnable _ => 0x80
  | .progDisable _ => 0x81
  | .progGetRate _ => 0x82
  | .progSetRate _ => 0x83
  | .progSetParent _ => 0x84
  | .oscEnable _ => 0x90
  | .oscDisable _ => 0x91
  | .oscGetRate _ => 0x92
  | .oscSetRate _ => 0x93
  | .oscSetParent _ => 0x94
  | .enable _ => 0xF0
  | .disable _ => 0xF1
  | .getRate _ => 0xF2
  | .setRate _ => 0xF3
  | .setParent _ => 0xF4

/-- The command word of a command: `(node << 8) | op` (R81, R97). -/
def encode (i : Instr) : Word := (0 : BitVec 8) ++ i.node ++ opcodeOf i

/-- The command the decoder reads from the word whose bits are `w`, bit 0 the least significant (R81). A command is
one 32-bit word, so a number that does not fit 32 bits is no word. -/
def decodeTableWord (_nbits w : Nat) : Option Instr :=
  if w < 2 ^ 32 then (decode (BitVec.ofNat 32 w)).toOption else none

end Sys2Proof
end

