-- ==== Sys2Proof/Machine/State.lean ====
section
/-! DEFINITION. The state of the machine: the port, the node table, the register target, and what the model adds to
record the bus trace and to hold the inputs. Plain data throughout. -/

namespace Sys2Proof.Machine

/-! ## Node descriptions and node-table entries (10_state.md R26 to R31, 47_node_table.md R231) -/

/-- The seven node kinds (R85). -/
inductive NodeKind where
  | fpll | dpll | mck | gck | peri | prog | osc
deriving DecidableEq, Repr

/-- A field descriptor (R90): the register's byte offset from the node's base, the field's bits in place, and the
number of the field's lowest bit. -/
structure FieldDesc where
  off   : Word
  mask  : Word
  shift : Nat
deriving DecidableEq, Repr

/-- `{min, max}` in Hz; a zero bound is unconstrained (R11). -/
structure ClockRange where
  min : Nat
  max : Nat
deriving DecidableEq, Repr

/-- A mux table: table index to hardware select value, and table index to parent ClockId (R28, R130). -/
structure MuxTable where
  sel : List Nat
  pid : List ClockId
deriving DecidableEq, Repr

/-- The flags of a node (R26, R27). `neverCached` is stored and has no effect. -/
structure NodeFlags where
  neverCached : Bool
  critical    : Bool
deriving DecidableEq, Repr

/-- How a programmable clock divides (R215). -/
inductive ProgMode where
  | direct
  | pow2
deriving DecidableEq, Repr

/-- The report of where the last `ENABLE` or `DISABLE` of a PLL got to (R30). -/
inductive PllState where
  | disabled
  | enabling
  | locked
  | disabling
deriving DecidableEq, Repr

/-- The field descriptors of a description, each present or absent (R31, R231). -/
structure LayoutDesc where
  mul       : Option FieldDesc := none
  frac      : Option FieldDesc := none
  en        : Option FieldDesc := none
  ready     : Option FieldDesc := none
  strobe    : Option FieldDesc := none
  bias      : Option FieldDesc := none
  bandgap   : Option FieldDesc := none
  regulator : Option FieldDesc := none
  div       : Option FieldDesc := none
  pres      : Option FieldDesc := none
  mdiv      : Option FieldDesc := none
  mux       : Option FieldDesc := none
  sysen     : Option FieldDesc := none
  idsel     : Option FieldDesc := none
  ext       : Option FieldDesc := none
deriving DecidableEq, Repr

/-- A node description, the content of `DESC` (R231, R92). It is what the host offers, so nothing in it is checked
yet: the kind is a code that may be none of the seven (R85), and numbers have no width. -/
structure NodeDesc where
  id           : ClockId          := 0
  kindCode     : Nat              := 0
  base         : Nat              := 0
  layout       : LayoutDesc       := {}
  parent       : Option ClockId   := none
  table        : Option MuxTable  := none
  extraParents : List ClockId     := []
  hwId         : Nat              := 0
  range        : ClockRange       := { min := 0, max := 0 }
  flags        : NodeFlags        := { neverCached := false, critical := false }
  fixedRate    : Nat              := 0
  divtab       : List Nat         := []
  pres3        : Option Nat       := none
  canDisable   : Bool             := false
  mode         : Option ProgMode  := none
deriving DecidableEq, Repr

/-- A fractional PLL (R140). -/
structure FpllNode where
  base      : Word
  range     : ClockRange
  parent    : ClockId
  mul       : FieldDesc
  frac      : FieldDesc
  en        : FieldDesc
  ready     : FieldDesc
  strobe    : FieldDesc
  bias      : Option FieldDesc
  bandgap   : Option FieldDesc
  regulator : Option FieldDesc
  pll       : PllState
deriving DecidableEq, Repr

/-- A divider PLL (R160). -/
structure DpllNode where
  base   : Word
  range  : ClockRange
  parent : ClockId
  div    : FieldDesc
  en     : FieldDesc
  ready  : FieldDesc
  strobe : FieldDesc
  pll    : PllState
deriving DecidableEq, Repr

/-- A master/system clock (R175). -/
structure MckNode where
  base       : Word
  range      : ClockRange
  table      : MuxTable
  parent     : ClockId
  pres       : FieldDesc
  mdiv       : FieldDesc
  mux        : FieldDesc
  ready      : FieldDesc
  strobe     : Option FieldDesc
  sysen      : Option FieldDesc
  divtab     : List Nat
  pres3      : Option Nat
  canDisable : Bool
deriving DecidableEq, Repr

/-- The part of a generic or peripheral clock that `SelectThenConfigure` uses (R121, R190): the shared command
register's base, the ID, and the descriptors. -/
structure SharedPort where
  base   : Word
  hwId   : Nat
  idsel  : FieldDesc
  strobe : FieldDesc
  en     : FieldDesc
  ready  : Option FieldDesc
deriving DecidableEq, Repr

/-- A generic clock (R190). -/
structure GckNode where
  port         : SharedPort
  range        : ClockRange
  table        : MuxTable
  extraParents : List ClockId
  parent       : ClockId
  div          : FieldDesc
  mux          : FieldDesc
deriving DecidableEq, Repr

/-- A peripheral clock gate (R190, R198). -/
structure PeriNode where
  port   : SharedPort
  range  : ClockRange
  parent : ClockId
deriving DecidableEq, Repr

/-- A programmable clock (R215). -/
structure ProgNode where
  base   : Word
  range  : ClockRange
  table  : MuxTable
  parent : ClockId
  mode   : ProgMode
  mux    : FieldDesc
  ext    : Option FieldDesc
  pres   : FieldDesc
  ready  : Option FieldDesc
deriving DecidableEq, Repr

/-- An oscillator root (R234). -/
structure OscNode where
  fixedRate : Nat
deriving DecidableEq, Repr

/-- A node's kind and what that kind carries: "a closed sum type / enum of node kinds, each carrying only the state
it needs" (R85, R241). -/
inductive NodeData where
  | fpll (n : FpllNode)
  | dpll (n : DpllNode)
  | mck  (n : MckNode)
  | gck  (n : GckNode)
  | peri (n : PeriNode)
  | prog (n : ProgNode)
  | osc  (n : OscNode)
deriving DecidableEq, Repr

/-- A node-table entry `NT[id]` (R26). -/
structure NodeEntry where
  id    : ClockId
  flags : NodeFlags
  data  : NodeData
deriving DecidableEq, Repr

/-- The node table `NT`: the entries, the latest registered first (R230). -/
abbrev NodeTable := List NodeEntry

/-! ## The register target (20_memory.md section 2) -/

/-- What the variant's map says of a register (R57, R60 to R63). -/
inductive RegKind where
  /-- A register whose bits in `storage` read what was last written to them (R60); its other bits, status and
  strobe bits among them, are draws (R61, R62). -/
  | plain (storage : Word)
  /-- The shared command register (R63), by the masks of its ID selector, its strobe bit and its configuration
  fields. -/
  | shared (idsel strobe config : Word)
deriving DecidableEq, Repr

/-- A commit strobe of a plain register: its bit, and the registers whose fields it takes into use (R34, R61).
DESIGN CHOICE (assumption 17): the spec does not say what a strobe commits, so each strobe bit has a list of its own,
and that list names whole registers. -/
structure CommitStrobe where
  mask    : Word
  commits : List Word
deriving DecidableEq, Repr

/-- A register of the target's map (R57). For a plain register, also its commit strobes, and whether the target takes
the register into use as it is written. DESIGN CHOICE (assumption 17): the spec does not say when a field that no
strobe commits is taken into use; the map says at its write (`direct`) or never. -/
structure RegSpec where
  addr    : Word
  kind    : RegKind
  strobes : List CommitStrobe := []
  direct  : Bool := false
deriving DecidableEq, Repr

/-- The storage of the plain registers, byte by byte: the listed addresses strictly rising (R60). -/
abbrev Memory := List Host.Cell

/-- The register target (R3, R37). It is not reset with the engine. -/
structure Target where
  /-- The variant's map: the addresses that have a register (R57, R59). -/
  map      : List RegSpec
  /-- The bytes written to plain registers (R60), addresses strictly rising. -/
  mem      : Memory
  /-- The configuration the target has taken into use since it was first written (R34), byte by byte, addresses
  strictly rising; an unlisted byte is the free value `Config.heldInUse` (assumption 17). No read shows it (assumption
  16). -/
  latched  : Memory
  /-- The selected ID, in place, of each shared command register written so far (R33, R63), keyed by address. -/
  selected : List (Nat × Word)
  /-- The configuration applied to each ID of each shared command register (R63), keyed by address and ID. -/
  applied  : List (Nat × Word)
  /-- A write has gone to an address without a register: "any later read of any target register is any value"
  (U1). That the other fields of the target keep their values then is assumption 18 (DESIGN CHOICE). -/
  havoc    : Bool
  /-- The model's own (assumption 2): the target's answers to come on its open bits. -/
  draws    : List Word
  /-- The model's own (assumption 2): how many answers have been drawn. -/
  drawn    : Nat
deriving DecidableEq, Repr

/-- An element of the bus trace (R65, R120). -/
inductive BusEvent where
  | read (addr value : Word)
  | write (addr value : Word)
  | settle
deriving DecidableEq, Repr

/-! ## The engine's position -/

/-- What a command does when its last bus access is done: the node's new parent and new `pll_state`, if any, and the
results. -/
structure Completion where
  parent : Option ClockId := none
  pll    : Option PllState := none
  r0     : Operand := 0
  r1     : Operand := 0
deriving DecidableEq, Repr

/-- A ready poll (R117, R118): the node, the status register, the bit, the value awaited, and what follows. Every
poll is the last bus access of its command. -/
structure Poll where
  node    : ClockId
  addr    : Word
  mask    : Word
  awaited : Bool
  next    : Completion
deriving DecidableEq, Repr

/-- The position of the engine (R24). `BUSY` is 0 exactly when it is idle. -/
inductive Engine where
  /-- (a) idle. -/
  | idle
  /-- (b) the word in `CMD` has been accepted and is about to run. -/
  | started
  /-- (b) inside the poll of the command in `CMD`. -/
  | polling (p : Poll)
deriving DecidableEq, Repr

/-! ## The host's moves -/

/-- A move of the host (R3, R21, R80, R280), the model's inputs (assumption 1). -/
inductive HostMove where
  /-- A write of `CMD`. -/
  | writeCmd (w : Word)
  /-- A write of the operand register `A<k>`. -/
  | writeOperand (k : Fin 4) (v : Operand)
  /-- A write of `DESC`. -/
  | writeDesc (d : NodeDesc)
  /-- The engine reset; when a command is about to run, it arrives after that many of the command's bus events. -/
  | reset (after : Nat)
  /-- The host lets the engine move. -/
  | wait
deriving DecidableEq, Repr

/-! ## The state -/

/-- The machine. -/
structure State where
  /-- The parameters of R7; no step changes them. -/
  params : Params
  /-- `CMD` (R21). -/
  cmd    : Word
  /-- `A0` (R21). -/
  a0     : Operand
  /-- `A1` (R21). -/
  a1     : Operand
  /-- `A2` (R21). -/
  a2     : Operand
  /-- `A3` (R21). -/
  a3     : Operand
  /-- `DESC` (R21, R231). -/
  desc   : NodeDesc
  /-- `R0` (R21). -/
  r0     : Operand
  /-- `R1` (R21). -/
  r1     : Operand
  /-- `STATUS` (R21, R94). -/
  status : BitVec 4
  /-- The engine's position, and with it `BUSY` (R21, R24). -/
  engine : Engine
  /-- `NT` (R20, R230). -/
  nt     : NodeTable
  /-- The register target (R3). -/
  target : Target
  /-- The bus trace, oldest first (R65). -/
  trace  : List BusEvent
  /-- The host's moves to come, next first. -/
  host   : List HostMove
deriving DecidableEq, Repr

/-- Why the machine stops with a fault. Both are ruled out by the invariants that `NODE.REGISTER` checks (R232), so
no run reaches either; both are safe: the model stops where the spec gives no effect. -/
inductive Fault where
  /-- Raised by `Rate` (R240): a parent's ClockId has no entry registered before the child. R240: "never none". -/
  | parentNotRegistered
  /-- Raised by the readback of a master clock (R176): the `mdiv` code has no divisor of at least 1 in the table.
  R176: "`m` always indexes `divtab`". -/
  | divisorNotInTable
deriving DecidableEq, Repr

/-- Why an instruction is refused. Every command has its meaning, so nothing raises this; it is safe. -/
inductive Refusal where
  /-- Raised by an arm of `exec` for a command without a meaning: none is left. -/
  | notModelled (mnemonic : String)
deriving DecidableEq, Repr

/-- The outcome of a step of this machine. -/
abbrev Outcome := Host.Outcome State Fault Refusal

/-- The register target as the model starts it: nothing is known of it (R37, R281), neither what a read returns nor
what is in use; the two are separate free values (assumptions 3, 17). DESIGN CHOICE (assumptions 2, 6): no address has
a register and no answer is listed, so that every read is a draw. -/
def Target.unknown : Target :=
  { map := [], mem := [], latched := [], selected := [], applied := [], havoc := false, draws := [], drawn := 0 }

/-- The machine right after reset (R36): the port zero, `BUSY = 0`, `NT` empty. `DESC` is the blank record (DESIGN
CHOICE, assumption 4), the parameters are the defaults (assumption 5), the target is unknown (R37). -/
def State.reset : State :=
  { params := Config.defaultParams, cmd := 0, a0 := 0, a1 := 0, a2 := 0, a3 := 0, desc := {}, r0 := 0, r1 := 0,
    status := 0, engine := .idle, nt := [], target := Target.unknown, trace := [], host := [] }

end Sys2Proof.Machine
end

