-- ==== Sys2Proof/Machine/Arith.lean ====
section
/-! DEFINITION. The arithmetic of 00_scope.md R8, R10 and R11, exact on natural numbers. -/

namespace Sys2Proof.Machine

/-- `round(a / b)`: to nearest, a tie up (R10). -/
def roundDiv (a b : Nat) : Nat := (2 * a + b) / (2 * b)

/-- `rdiv(a, b)` (R10): `floor(a / b)` or `round(a / b)` as the parameter `RDIV` says. -/
def rdiv (mode : RoundMode) (a b : Nat) : Nat :=
  match mode with
  | .floor => a / b
  | .nearest => roundDiv a b

/-- The least `s` from the given one up with `b × 2^s ≥ a`, looked for at most `fuel` times. -/
def clog2From : Nat → Nat → Nat → Nat → Nat
  | 0, s, _, _ => s
  | fuel + 1, s, a, b => if a ≤ b * 2 ^ s then s else clog2From fuel (s + 1) a b

/-- `clog2(a, b)` (R10): the least `s ≥ 0` with `b × 2^s ≥ a`. For `b > 0` no `s` above `log2 a + 1` is needed. -/
def clog2 (a b : Nat) : Nat := clog2From (Nat.log2 a + 1) 0 a b

/-- `|a − b|` (R8). -/
def absDiff (a b : Nat) : Nat := max a b - min a b

/-- `InRange(r, v)` (R11): both bounds inclusive, a zero bound unconstrained. -/
def inRange (r : ClockRange) (v : Nat) : Bool :=
  (r.min == 0 || decide (r.min ≤ v)) && (r.max == 0 || decide (v ≤ r.max))

end Sys2Proof.Machine
end

