-- ==== Sys2Proof/Machine/Operands.lean ====
section
/-! DEFINITION. The operand forms: ClockIds (30_encoding.md R86 to R88), narrow operands (R82, R255), field descriptors
(R90, R91), mux tables (41_mux_translator.md) and the projections of a node's data. -/

namespace Sys2Proof.Machine

/-! ## ClockIds -/

/-- The kind tag of a ClockId, its high byte (R86). -/
def clockTag (id : ClockId) : Nat := (id >>> 8).toNat

/-- The local index of a ClockId, its low byte (R86). -/
def clockIndex (id : ClockId) : Nat := (id &&& 0xFF).toNat

/-- `(tag << 8) | index` (R86, R99). -/
def packClockId (tag index : BitVec 8) : ClockId := tag ++ index

/-- `WellFormed(id)`: `tag ≤ 4` (R88, R136). -/
def wellFormedId (id : ClockId) : Bool := decide (clockTag id ≤ Config.tagMax)

/-! ## Narrow operands -/

/-- A 32-bit operand (a base, offset, value, mask, bit pattern or select code): the low bits of the register, when
its high bits are zero (R21, R255). -/
def narrowWord (x : Operand) : Option Word :=
  if x.toNat < 2 ^ 32 then some (x.setWidth 32) else none

/-- A ClockId operand: below `2^16` and well-formed (R88, R255). -/
def narrowId (x : Operand) : Option ClockId :=
  if x.toNat < 2 ^ 16 && wellFormedId (x.setWidth 16) then some (x.setWidth 16) else none

/-! ## Field descriptors -/

/-- `fmax(f) = mask >> shift` (R90). -/
def FieldDesc.fmax (f : FieldDesc) : Nat := (f.mask >>> f.shift).toNat

/-- `width(f)`: the `w` with `fmax(f) = 2^w − 1` (R90). -/
def FieldDesc.width (f : FieldDesc) : Nat := Nat.log2 (f.fmax + 1)

/-- A descriptor satisfies R90: `off` a multiple of 4, `shift` at most 31, `mask = ((1 << w) − 1) << shift` for the
width `w ≥ 1`. -/
def FieldDesc.ok (f : FieldDesc) : Bool :=
  f.off.toNat % 4 == 0 && decide (f.shift ≤ 31) && decide (1 ≤ f.width) &&
    f.mask.toNat == (2 ^ f.width - 1) * 2 ^ f.shift

/-- A field of width "1" has a one-bit mask (R31, R232 (c)). -/
def FieldDesc.oneBit (f : FieldDesc) : Bool := f.width == 1

/-- `Extract(r, f) = (r & f.mask) >> f.shift` (R91). -/
def FieldDesc.extract (f : FieldDesc) (r : Word) : Nat := ((r &&& f.mask) >>> f.shift).toNat

/-- `Place(v, f) = (v << f.shift) & f.mask` (R91). -/
def FieldDesc.place (f : FieldDesc) (v : Nat) : Word := (BitVec.ofNat 32 v <<< f.shift) &&& f.mask

/-- The register offsets of some fields, each once, in order of first appearance (R116). -/
def distinctOffs (fs : List FieldDesc) : List Word :=
  fs.foldl (fun seen f => if f.off ∈ seen then seen else seen ++ [f.off]) []

/-- What was read at some register offsets (R116, `FieldsGet`). -/
abbrev Snapshot := List (Word × Word)

/-- `Extract` of the value read at the field's offset (R116). -/
def FieldDesc.getFrom (f : FieldDesc) (snap : Snapshot) : Nat :=
  f.extract ((snap.lookup f.off).getD 0)

/-- The OR of the masks of the fields at an offset (R116, `FieldsSet`). -/
def maskAt (off : Word) (fvs : List (FieldDesc × Nat)) : Word :=
  fvs.foldl (fun m fv => if fv.1.off = off then m ||| fv.1.mask else m) 0

/-- The OR of the placed values of the fields at an offset (R116, `FieldsSet`). -/
def bitsAt (off : Word) (fvs : List (FieldDesc × Nat)) : Word :=
  fvs.foldl (fun b fv => if fv.1.off = off then b ||| fv.1.place fv.2 else b) 0

/-! ## Mux tables -/

/-- `P2S(t, pid)` (R131): the select code at the first index whose parent is `pid`; none is `UnknownParent`. -/
def MuxTable.p2s (t : MuxTable) (pid : ClockId) : Option Nat :=
  match t.pid.idxOf? pid with
  | none => none
  | some i => t.sel[i]?

/-- `S2I(t, code)` (R132): the first index with that select code; none is `UnknownSelect`. -/
def MuxTable.s2i (t : MuxTable) (code : Nat) : Option Nat := t.sel.idxOf? code

/-! ## Node kinds and node data -/

/-- The kind of a kind code (R85). -/
def NodeKind.ofCode (c : Nat) : Option NodeKind :=
  match c with
  | 3 => some .fpll
  | 4 => some .dpll
  | 5 => some .mck
  | 6 => some .gck
  | 7 => some .peri
  | 8 => some .prog
  | 9 => some .osc
  | _ => none

/-- The kind code (R85). -/
def NodeKind.code : NodeKind → Nat
  | .fpll => 3
  | .dpll => 4
  | .mck => 5
  | .gck => 6
  | .peri => 7
  | .prog => 8
  | .osc => 9

/-- The kind of a node (R26). -/
def NodeData.kind : NodeData → NodeKind
  | .fpll _ => .fpll
  | .dpll _ => .dpll
  | .mck _ => .mck
  | .gck _ => .gck
  | .peri _ => .peri
  | .prog _ => .prog
  | .osc _ => .osc

/-- The node's data when it is a fractional PLL: the kind test of `Prologue(FPLL)` (R242). -/
def NodeData.fpll? : NodeData → Option FpllNode
  | .fpll n => some n
  | _ => none

/-- The node's data when it is a divider PLL (R242). -/
def NodeData.dpll? : NodeData → Option DpllNode
  | .dpll n => some n
  | _ => none

/-- The node's data when it is a master clock (R242). -/
def NodeData.mck? : NodeData → Option MckNode
  | .mck n => some n
  | _ => none

/-- The node's data when it is a generic clock (R242). -/
def NodeData.gck? : NodeData → Option GckNode
  | .gck n => some n
  | _ => none

/-- The node's data when it is a peripheral clock (R242). -/
def NodeData.peri? : NodeData → Option PeriNode
  | .peri n => some n
  | _ => none

/-- The node's data when it is a programmable clock (R242). -/
def NodeData.prog? : NodeData → Option ProgNode
  | .prog n => some n
  | _ => none

/-- The node's data when it is an oscillator (R242). -/
def NodeData.osc? : NodeData → Option OscNode
  | .osc n => some n
  | _ => none

/-- The node's current parent, none for an oscillator (R26, R29, R234). -/
def NodeData.parent? : NodeData → Option ClockId
  | .fpll n => some n.parent
  | .dpll n => some n.parent
  | .mck n => some n.parent
  | .gck n => some n.parent
  | .peri n => some n.parent
  | .prog n => some n.parent
  | .osc _ => none

/-- The node's mux table, if its kind has one (R26, R231). -/
def NodeData.table? : NodeData → Option MuxTable
  | .mck n => some n.table
  | .gck n => some n.table
  | .prog n => some n.table
  | .fpll _ => none
  | .dpll _ => none
  | .peri _ => none
  | .osc _ => none

/-- The node's `pll_state`, if its kind has one (R26, R30). -/
def NodeData.pll? : NodeData → Option PllState
  | .fpll n => some n.pll
  | .dpll n => some n.pll
  | .mck _ => none
  | .gck _ => none
  | .peri _ => none
  | .prog _ => none
  | .osc _ => none

/-- `n.parent <- p`. Only the kinds with a mux table have a parent that changes (R20, R26). -/
def NodeData.withParent (p : ClockId) : NodeData → NodeData
  | .mck n => .mck { n with parent := p }
  | .gck n => .gck { n with parent := p }
  | .prog n => .prog { n with parent := p }
  | .fpll n => .fpll n
  | .dpll n => .dpll n
  | .peri n => .peri n
  | .osc n => .osc n

/-- `n.pll_state <- st` (R30). -/
def NodeData.withPll (st : PllState) : NodeData → NodeData
  | .fpll n => .fpll { n with pll := st }
  | .dpll n => .dpll { n with pll := st }
  | .mck n => .mck n
  | .gck n => .gck n
  | .peri n => .peri n
  | .prog n => .prog n
  | .osc n => .osc n

end Sys2Proof.Machine
end

