-- ==== Sys2Proof/Machine/Flags.lean ====
section
/-! DEFINITION. The flag-like state (10_state.md R25): `BUSY`, the `STATUS` codes and the `pll_state` codes. PLLSYN has no
arithmetic condition codes, so there is no flag computation. -/

namespace Sys2Proof.Machine

/-- The five errors (R250). -/
inductive CmdError where
  | invalidArgument
  | unknownParent
  | unknownSelect
  | outOfRange
  | unsupportedOnVariant
deriving DecidableEq, Repr

/-- The `STATUS` code of an error (R94, R251). -/
def CmdError.code : CmdError → BitVec 4
  | .invalidArgument => 1
  | .unknownParent => 2
  | .unknownSelect => 3
  | .outOfRange => 4
  | .unsupportedOnVariant => 5

/-- The `STATUS` code of success (R94). -/
def statusOk : BitVec 4 := 0

/-- The code of a `pll_state` (R30). -/
def PllState.code : PllState → BitVec 2
  | .disabled => 0
  | .enabling => 1
  | .locked => 2
  | .disabling => 3

/-- `BUSY` of an engine position: 0 exactly when idle (R24). -/
def Engine.busy : Engine → Bool
  | .idle => false
  | .started => true
  | .polling _ => true

/-- `BUSY` (R21). -/
def State.busy (s : State) : Bool := s.engine.busy

/-- How a computation inside a command ends early: with an error of the command (R252, R266), or with a fault of the
model. -/
inductive Stop where
  | raised (e : CmdError)
  | stuck (f : Fault)
deriving DecidableEq, Repr

end Sys2Proof.Machine
end

