-- ==== Sys2Proof/Machine/Ops.lean ====
section
/-! DEFINITION. The named operations: storage, the register target, bus accesses (20_memory.md), the register access
layer and its handshakes (40_register_access.md), the node table, ending a command with an error or a result
(60_exceptions.md R252), the host's moves and the engine reset. -/

namespace Sys2Proof.Machine

/-! ## Sparse storage: lists of keys and values, keys strictly rising -/

/-- The value listed at a key. -/
def cellGet {β : Type} (k : Nat) : List (Nat × β) → Option β
  | [] => none
  | c :: rest => if c.1 = k then some c.2 else cellGet k rest

/-- The list with a value at a key, in place of the one listed there if there is one. -/
def cellPut {β : Type} (k : Nat) (v : β) : List (Nat × β) → List (Nat × β)
  | [] => [(k, v)]
  | c :: rest =>
    if k < c.1 then (k, v) :: c :: rest
    else if k = c.1 then (k, v) :: rest
    else c :: cellPut k v rest

/-- The canonical form: keys strictly rising. An unlisted key has no value of its own (it reads as a free value), so
no listed value can equal it, and equal storage is equal data. -/
def cellsWf {β : Type} : List (Nat × β) → Bool
  | [] => true
  | c :: rest => rest.all (fun d => decide (c.1 < d.1)) && cellsWf rest

/-! ## Memory: the bytes of the plain registers (R60) -/

/-- The canonical form of memory. -/
def Memory.wf (m : Memory) : Bool := cellsWf m

/-- One byte. A byte nothing has written reads as what it held since before reset, a free value (R37, U6). -/
def Memory.readByte (a : Nat) (m : Memory) : Byte := (cellGet a m).getD (Config.heldByte a)

/-- One byte in use. DESIGN CHOICE (assumption 17): a byte never taken into use since reset is a free value of its own,
so that it may differ from what a read returns (R34, R37, R281). -/
def Memory.inUseByte (a : Nat) (m : Memory) : Byte := (cellGet a m).getD (Config.heldInUse a)

/-- Writes one byte. -/
def Memory.writeByte (a : Nat) (v : Byte) (m : Memory) : Memory := cellPut a v m

/-- The word at an address, its low byte first. DESIGN CHOICE (assumption 7): the byte order is not observable
(R54). -/
def Memory.readWord (a : Word) (m : Memory) : Word :=
  m.readByte (a.toNat + 3) ++ m.readByte (a.toNat + 2) ++ m.readByte (a.toNat + 1) ++ m.readByte a.toNat

/-- The word in use at an address, its bytes in the same order. -/
def Memory.inUseWord (a : Word) (m : Memory) : Word :=
  m.inUseByte (a.toNat + 3) ++ m.inUseByte (a.toNat + 2) ++ m.inUseByte (a.toNat + 1) ++ m.inUseByte a.toNat

/-- Writes the word at an address. -/
def Memory.writeWord (a v : Word) (m : Memory) : Memory :=
  (((m.writeByte a.toNat (v.extractLsb' 0 8)).writeByte (a.toNat + 1) (v.extractLsb' 8 8)).writeByte
    (a.toNat + 2) (v.extractLsb' 16 8)).writeByte (a.toNat + 3) (v.extractLsb' 24 8)

/-! ## The register target (R59 to R64) -/

/-- The entry the map has for an address, if any (R57, R59). -/
def Target.specAt (t : Target) (a : Word) : Option RegSpec := t.map.find? (fun r => r.addr == a)

/-- The register the map has at an address, if any (R57, R59). -/
def Target.regAt (t : Target) (a : Word) : Option RegKind := (t.specAt a).map (·.kind)

/-- The key of an ID's configuration: the shared command register's address and the ID in place. -/
def appliedKey (a id : Word) : Nat := a.toNat * 2 ^ 32 + id.toNat

/-- The selected ID, in place, of the shared command register at an address (R33). -/
def Target.selectedId (t : Target) (a idsel : Word) : Word :=
  ((cellGet a.toNat t.selected).getD (Config.heldSelect a)) &&& idsel

/-- The configuration of an ID of the shared command register at an address (R63). -/
def Target.configOf (t : Target) (a id : Word) : Word :=
  (cellGet (appliedKey a id) t.applied).getD (Config.heldConfig a id)

/-- Which bits of an answer the rules fix: the storage bits of a plain register (R60), the ID and configuration bits
of a shared command register (R63), none where there is no register (R59) or after a write to such an address
(U1). -/
def Target.knownMask (t : Target) (a : Word) : Word :=
  if t.havoc then 0
  else
    match t.regAt a with
    | none => 0
    | some (.plain storage) => storage
    | some (.shared idsel _ config) => idsel ||| config

/-- What the rules say of the bits they fix: the value last written (R60); the selected ID and its configuration
(R63). -/
def Target.knownBits (t : Target) (a : Word) : Word :=
  match t.regAt a with
  | none => 0
  | some (.plain _) => t.mem.readWord a
  | some (.shared idsel _ config) =>
    t.selectedId a idsel ||| (t.configOf a (t.selectedId a idsel) &&& config)

/-- The target's next draw: the first answer listed, or the free value (R9, R62). -/
def Target.nextDraw (t : Target) : Word := t.draws.headD (Config.draw t.drawn)

/-- The answer to a read: the bits the rules fix, and a draw on all others (R60 to R63). -/
def Target.answer (t : Target) (a : Word) : Word :=
  (t.knownBits a &&& t.knownMask a) ||| (t.nextDraw &&& ~~~ t.knownMask a)

/-- The target after a read: one draw is used up, nothing else changes (R55). -/
def Target.afterRead (t : Target) : Target :=
  { t with draws := t.draws.tail, drawn := t.drawn + 1 }

/-- The registers that a write of `v` to a register takes into use (R34, R61): those that the strobes it sets commit,
and the register itself where the target takes it into use as it is written. DESIGN CHOICE (assumption 17): a field
that no strobe commits, and what each of several strobes in one register commits, are the map's. -/
def RegSpec.taken (r : RegSpec) (v : Word) : List Word :=
  (if r.direct then [r.addr] else []) ++ (r.strobes.filter (fun st => v &&& st.mask != 0)).flatMap (·.commits)

/-- What is in use after a write to a plain register has been stored (R34): the registers the write takes into use are
in use as they stand, all others as before (assumptions 16, 17). -/
def Target.latchedAfter (t : Target) (a v : Word) : Memory :=
  match t.specAt a with
  | none => t.latched
  | some r => (r.taken v).foldl (fun m c => m.writeWord c (t.mem.readWord c)) t.latched

/-- The target after a write: storage takes the value (R60) and a commit strobe latches (R34); a shared command register
takes the written ID as the selected one (R33) and, when the strobe bit is 1, applies the configuration to it (R63).
DEDUCED (assumption 12): every write selects the ID it carries. A write where there is no register leaves every later
answer open (R59, U1). DESIGN CHOICE (assumption 18): of that write's unspecified effect the model keeps this alone; what
is stored, selected, applied and in use keeps its value. -/
def Target.afterWrite (t : Target) (a v : Word) : Target :=
  match t.regAt a with
  | none => { t with havoc := true }
  | some (.plain _) =>
    let stored := { t with mem := t.mem.writeWord a v }
    { stored with latched := stored.latchedAfter a v }
  | some (.shared idsel strobe config) =>
    { t with
      selected := cellPut a.toNat (v &&& idsel) t.selected
      applied :=
        if v &&& strobe ≠ 0 then cellPut (appliedKey a (v &&& idsel)) (v &&& config) t.applied else t.applied }

/-! ## Bus accesses (R9, R51, R52, R65) -/

/-- `MemRead(addr, 4)`: the value. -/
def State.memValue (s : State) (a : Word) : Word := s.target.answer a

/-- `MemRead(addr, 4)`: the state after it. -/
def State.memRead (s : State) (a : Word) : State :=
  { s with target := s.target.afterRead, trace := s.trace ++ [.read a (s.memValue a)] }

/-- `MemWrite(addr, 4, v)`. -/
def State.memWrite (s : State) (a v : Word) : State :=
  { s with target := s.target.afterWrite a v, trace := s.trace ++ [.write a v] }

/-- `addr = (base + off) mod 2^ADDR_W` (R51). -/
def busAddr (base off : Word) : Word := base + off

/-- `RegRead(base, off)`: the value (R110). -/
def State.regValue (s : State) (base off : Word) : Word := s.memValue (busAddr base off)

/-- `RegRead(base, off)`: the state after it (R110). -/
def State.regRead (s : State) (base off : Word) : State := s.memRead (busAddr base off)

/-- `RegWrite(base, off, v)` (R111). -/
def State.regWrite (s : State) (base off v : Word) : State := s.memWrite (busAddr base off) v

/-- The value `RegUpdate(base, off, mask, bits)` writes and returns: `(old & ~mask) | (bits & mask)` (R112). -/
def State.updateValue (s : State) (base off mask bits : Word) : Word :=
  (s.regValue base off &&& ~~~ mask) ||| (bits &&& mask)

/-- `RegUpdate(base, off, mask, bits)`: one read, then one write, always (R112). -/
def State.regUpdate (s : State) (base off mask bits : Word) : State :=
  (s.regRead base off).regWrite base off (s.updateValue base off mask bits)

/-! ## Field access (R116) -/

/-- `FieldGet(n, f)`: the value. -/
def State.fieldValue (s : State) (base : Word) (f : FieldDesc) : Nat := f.extract (s.regValue base f.off)

/-- `FieldGet(n, f)`: the state after it. -/
def State.fieldGet (s : State) (base : Word) (f : FieldDesc) : State := s.regRead base f.off

/-- One read at each offset, in order: what was read. -/
def State.snapshotAt (s : State) (base : Word) : List Word → Snapshot
  | [] => []
  | o :: os => (o, s.regValue base o) :: (s.regRead base o).snapshotAt base os

/-- One read at each offset, in order: the state after them. -/
def State.readAll (s : State) (base : Word) : List Word → State
  | [] => s
  | o :: os => (s.regRead base o).readAll base os

/-- `FieldsGet(n, fs)`: what was read at the fields' registers; `FieldDesc.getFrom` extracts a field. -/
def State.fieldsValue (s : State) (base : Word) (fs : List FieldDesc) : Snapshot :=
  s.snapshotAt base (distinctOffs fs)

/-- `FieldsGet(n, fs)`: the state after it. -/
def State.fieldsGet (s : State) (base : Word) (fs : List FieldDesc) : State :=
  s.readAll base (distinctOffs fs)

/-- `FieldSet(n, f, v)`. -/
def State.fieldSet (s : State) (base : Word) (f : FieldDesc) (v : Nat) : State :=
  s.regUpdate base f.off f.mask (f.place v)

/-- `FieldsSet(n, fvs)`: one update for each register, in order of first appearance. -/
def State.fieldsSet (s : State) (base : Word) (fvs : List (FieldDesc × Nat)) : State :=
  (distinctOffs (fvs.map (·.1))).foldl
    (fun s o => s.regUpdate base o (maskAt o fvs) (bitsAt o fvs)) s

/-! ## The node table (R230) -/

/-- `NT[id]`. -/
def NodeTable.lookup (nt : NodeTable) (id : ClockId) : Option NodeEntry := nt.find? (fun e => e.id == id)

/-- Whether an id is registered. -/
def NodeTable.has (nt : NodeTable) (id : ClockId) : Bool := (nt.lookup id).isSome

/-- Changes the data of the entry of an id. -/
def NodeTable.modify (nt : NodeTable) (id : ClockId) (f : NodeData → NodeData) : NodeTable :=
  nt.map (fun e => if e.id = id then { e with data := f e.data } else e)

/-- `n.pll_state <- st`. -/
def State.setPll (s : State) (id : ClockId) (st : PllState) : State :=
  { s with nt := s.nt.modify id (NodeData.withPll st) }

/-- What a completion changes in the node's entry. -/
def Completion.apply (c : Completion) (d : NodeData) : NodeData :=
  let d := match c.parent with
    | some p => d.withParent p
    | none => d
  match c.pll with
  | some st => d.withPll st
  | none => d

/-! ## Ending a command -/

/-- TAKING AN ERROR, `raise E` (R252): the command ends, `STATUS <- code(E)`, `BUSY <- 0`; `R0` and `R1` keep what they
were given at command start, nothing else changes. -/
def State.raise (s : State) (e : CmdError) : State := { s with status := e.code, engine := .idle }

/-- The end of a command that succeeds, `return (r0, r1)` (R9), after the changes it makes to its node: `STATUS <- 0`,
`R0 <- r0`, `R1 <- r1`, `BUSY <- 0`. There is no handler to return from (R263). -/
def State.finish (s : State) (node : ClockId) (c : Completion) : State :=
  { s with nt := s.nt.modify node c.apply, r0 := c.r0, r1 := c.r1, status := statusOk, engine := .idle }

/-- `return (r0, r1)` of a command that changes no node (R9). -/
def State.result (s : State) (r0 r1 : Operand) : State :=
  { s with r0 := r0, r1 := r1, status := statusOk, engine := .idle }

/-- A command ended early by a computation inside it (R266). -/
def State.stop (s : State) : Stop → Outcome
  | .raised e => .next (s.raise e)
  | .stuck f => .fault f

/-! ## Polls, strobes and the shared command register -/

/-- Whether a poll that read `r` is over: `PollSet` awaits a set bit (R117), `PollClear` a clear one (R118). -/
def Poll.exits (p : Poll) (r : Word) : Bool := (r &&& p.mask != 0) == p.awaited

/-- One read of a poll (R117, R118): the command completes, or stays in the poll with `BUSY = 1`, without limit
(R262). -/
def State.poll (s : State) (p : Poll) : State :=
  if p.exits (s.memValue p.addr) then (s.memRead p.addr).finish p.node p.next
  else { s.memRead p.addr with engine := .polling p }

/-- `PollSet(n, f)` (`awaited = true`) or `PollClear(n, f)` at the end of a command: the poll from its first read. -/
def State.pollField (s : State) (node : ClockId) (base : Word) (f : FieldDesc) (awaited : Bool)
    (next : Completion) : State :=
  s.poll { node := node, addr := busAddr base f.off, mask := f.mask, awaited := awaited, next := next }

/-- `if f != none then PollSet(n, f)`, and the end of the command. -/
def State.pollOptional (s : State) (node : ClockId) (base : Word) (f : Option FieldDesc) (next : Completion) :
    State :=
  match f with
  | some f => s.pollField node base f true next
  | none => s.finish node next

/-- `Strobe(n)` (R119): sets the strobe bit, preserves the rest of its register. -/
def State.strobe (s : State) (base : Word) (f : FieldDesc) : State := s.regUpdate base f.off f.mask f.mask

/-- `Settle()` (R120): a marker in the trace. DESIGN CHOICE (assumption 9): `T_SETTLE` has no value here. -/
def State.settle (s : State) : State := { s with trace := s.trace ++ [.settle] }

/-- Step 1 of `SelectThenConfigure` (R121): the full write of the ID, every other bit 0. -/
def State.selectId (s : State) (p : SharedPort) : State :=
  s.regWrite p.base p.idsel.off (p.idsel.place p.hwId)

/-- The word that step 2 of `SelectThenConfigure` writes (R121), from the state after step 1. -/
def State.configureValue (s : State) (p : SharedPort) (mask bits : Word) : Word :=
  s.updateValue p.base p.idsel.off (mask ||| p.strobe.mask) (bits ||| p.strobe.mask)

/-- Step 2 of `SelectThenConfigure` (R121): the update that sets the strobe. -/
def State.configure (s : State) (p : SharedPort) (mask bits : Word) : State :=
  s.regUpdate p.base p.idsel.off (mask ||| p.strobe.mask) (bits ||| p.strobe.mask)

/-- `SelectThenConfigure(n, mask, bits)` (R121), and the end of the command: select, configure, and a poll of the
ready bit when the layout has one and the written value has the enable bit set. -/
def State.selectThenConfigure (s : State) (node : ClockId) (p : SharedPort) (mask bits : Word)
    (next : Completion) : State :=
  let s1 := s.selectId p
  if p.en.extract (s1.configureValue p mask bits) = 1 then
    (s1.configure p mask bits).pollOptional node p.base p.ready next
  else (s1.configure p mask bits).finish node next

/-! ## The common prologue (R242) -/

/-- `Prologue(K)`: `node` is well-formed, registered and of the kind that `proj` projects to; none is
`InvalidArgument`. No bus access. -/
def State.prologue {α : Type} (s : State) (proj : NodeData → Option α) (node : ClockId) : Option (NodeFlags × α) :=
  if wellFormedId node then
    match s.nt.lookup node with
    | none => none
    | some e => (proj e.data).map (fun n => (e.flags, n))
  else none

/-! ## The host's moves and the engine reset -/

/-- The command word the engine runs (R24, R80). -/
def State.fetchedWord (s : State) : Word := s.cmd

/-- A host write of `CMD` while `BUSY = 0` (R21): `BUSY <- 1`, `R0 <- 0`, `R1 <- 0`, the command starts. -/
def State.acceptCmd (s : State) (w : Word) : State :=
  { s with cmd := w, r0 := 0, r1 := 0, engine := .started }

/-- A host write of the operand register `A<k>` while `BUSY = 0` (R21). -/
def State.setOperand (s : State) (k : Fin 4) (v : Operand) : State :=
  match k with
  | 0 => { s with a0 := v }
  | 1 => { s with a1 := v }
  | 2 => { s with a2 := v }
  | 3 => { s with a3 := v }

/-- The engine reset (R280): the port and the node table as after reset, the command in flight abandoned. The register
target (R281), the trace of what the bus has seen, and the host's later moves stay. `DESC` is cleared too (DESIGN
CHOICE, assumption 4). -/
def State.engineReset (s : State) : State :=
  { State.reset with params := s.params, target := s.target, trace := s.trace, host := s.host }

/-- A move of the host while `BUSY = 0`. -/
def State.hostMove (s : State) : HostMove → State
  | .writeCmd w => s.acceptCmd w
  | .writeOperand k v => s.setOperand k v
  | .writeDesc d => { s with desc := d }
  | .reset _ => s.engineReset
  | .wait => s

/-- A move of the host while the engine polls: writes are ignored (R21, R262; for `DESC`, assumption 11), a reset
abandons the command (R280), and when the host waits the engine reads the status register once more. -/
def State.hostMoveInPoll (s : State) (p : Poll) : HostMove → State
  | .writeCmd _ => s
  | .writeOperand _ _ => s
  | .writeDesc _ => s
  | .reset _ => s.engineReset
  | .wait => s.poll p

/-- One bus event, again, on the target. -/
def Target.replayOne (t : Target) : BusEvent → Target
  | .read _ _ => t.afterRead
  | .write a v => t.afterWrite a v
  | .settle => t

/-- Some bus events, again, on the target. -/
def Target.replay (t : Target) (evs : List BusEvent) : Target := evs.foldl Target.replayOne t

/-- The bus events of the command that took the machine from `s` to `t`. -/
def State.eventsSince (s t : State) : List BusEvent := t.trace.drop s.trace.length

/-- The command that would take the machine from `s` to `t`, abandoned by an engine reset after its first `after` bus
events (R280, R281, U26): those stand, the rest are not issued. -/
def State.abandon (s t : State) (after : Nat) : State :=
  State.engineReset
    { s with
      target := s.target.replay ((s.eventsSince t).take after)
      trace := s.trace ++ (s.eventsSince t).take after }

end Sys2Proof.Machine
end

