-- ==== Sys2Proof/Machine/Rate.lean ====
section
/-! DEFINITION. `Rate(id)` (47_node_table.md R240) and the readback each kind's `GET_RATE` rule makes once the parent's rate
is known. -/

namespace Sys2Proof.Machine

/-- The rate of a fractional PLL with the given fields (R141, R147), exact. -/
def fpllRate (parentRate mul frac : Nat) : Nat :=
  parentRate * mul + roundDiv (parentRate * frac) (2 ^ Config.fracBits)

/-- The own-fields half of `FPLL.GET_RATE` (R147). -/
def fpllReadback (n : FpllNode) (parentRate : Nat) (s : State) : State × Except Stop Nat :=
  let snap := s.fieldsValue n.base [n.mul, n.frac]
  let rate := fpllRate parentRate (n.mul.getFrom snap) (n.frac.getFrom snap)
  (s.fieldsGet n.base [n.mul, n.frac],
    if rate ≥ 2 ^ 64 then .error (.raised .outOfRange) else .ok rate)

/-- The own-fields half of `DPLL.GET_RATE` (R166). -/
def dpllReadback (n : DpllNode) (parentRate : Nat) (s : State) : State × Except Stop Nat :=
  (s.fieldGet n.base n.div, .ok (rdiv s.params.rdiv parentRate (s.fieldValue n.base n.div + 1)))

/-- The prescaler's divisor for a `pres` code (R175): 3 for `pres3`, else the power of two. -/
def mckPrescale (n : MckNode) (p : Nat) : Nat := if n.pres3 = some p then 3 else 2 ^ p

/-- The divisor of an `mdiv` code (R175): every divisor of the table is at least 1. -/
def mckDivisor (n : MckNode) (m : Nat) : Option Nat :=
  (n.divtab[m]?).filter (fun d => decide (1 ≤ d))

/-- The own-fields half of `MCK.GET_RATE` (R176). -/
def mckReadback (n : MckNode) (parentRate : Nat) (s : State) : State × Except Stop Nat :=
  let snap := s.fieldsValue n.base [n.pres, n.mdiv]
  let r1 := rdiv s.params.rdiv parentRate (mckPrescale n (n.pres.getFrom snap))
  (s.fieldsGet n.base [n.pres, n.mdiv],
    match mckDivisor n (n.mdiv.getFrom snap) with
    | none => .error (.stuck .divisorNotInTable)
    | some d => .ok (rdiv s.params.rdiv r1 d))

/-- The select write and the read of the shared command register (R197, R232 (g)): the value read. -/
def State.selectedValue (s : State) (p : SharedPort) : Word := (s.selectId p).regValue p.base p.idsel.off

/-- The select write and the read of the shared command register (R197, R232 (g)): the state after them. -/
def State.selectAndRead (s : State) (p : SharedPort) : State := (s.selectId p).regRead p.base p.idsel.off

/-- The own-fields half of `GCK.GET_RATE` (R197). -/
def gckReadback (n : GckNode) (parentRate : Nat) (s : State) : State × Except Stop Nat :=
  (s.selectAndRead n.port,
    .ok (rdiv s.params.rdiv parentRate (n.div.extract (s.selectedValue n.port) + 1)))

/-- The rate of a programmable clock with the given `pres` field (R220). -/
def progRate (mode : RoundMode) (n : ProgNode) (parentRate v : Nat) : Nat :=
  match n.mode with
  | .direct => rdiv mode parentRate (v + 1)
  | .pow2 => parentRate >>> v

/-- The own-fields half of `PROG.GET_RATE` (R220). -/
def progReadback (n : ProgNode) (parentRate : Nat) (s : State) : State × Except Stop Nat :=
  (s.fieldGet n.base n.pres, .ok (progRate s.params.rdiv n parentRate (s.fieldValue n.base n.pres)))

/-- The `GET_RATE` rule of a node's kind after its parent's rate (R240). An oscillator has no parent and its rate is
fixed (R235); a peripheral clock runs at its parent's rate (R201). -/
def readback (d : NodeData) (parentRate : Nat) (s : State) : State × Except Stop Nat :=
  match d with
  | .fpll n => fpllReadback n parentRate s
  | .dpll n => dpllReadback n parentRate s
  | .mck n => mckReadback n parentRate s
  | .gck n => gckReadback n parentRate s
  | .peri _ => (s, .ok parentRate)
  | .prog n => progReadback n parentRate s
  | .osc n => (s, .ok n.fixedRate)

/-- `Rate(id)` among some entries, the latest registered first (R240). A parent is looked up among the entries
registered before its child: DEDUCED (assumption 8) from R240, "following `parent` strictly goes back in registration
order". An id without an entry there, which no run meets, stops the machine. -/
def rateIn : NodeTable → ClockId → State → State × Except Stop Nat
  | [], _, s => (s, .error (.stuck .parentNotRegistered))
  | e :: older, id, s =>
    if e.id = id then
      match e.data.parent? with
      | none => readback e.data 0 s
      | some p =>
        match rateIn older p s with
        | (s1, .error x) => (s1, .error x)
        | (s1, .ok parentRate) => readback e.data parentRate s1
    else rateIn older id s

/-- `Rate(id)` (R240). -/
def State.rate (s : State) (id : ClockId) : State × Except Stop Nat := rateIn s.nt id s

/-- The result of a `GET_RATE` command: the rate in `R0` (R9), or the way its computation ended (R266). -/
def State.rateResult (r : State × Except Stop Nat) : Outcome :=
  match r with
  | (s, .error x) => s.stop x
  | (s, .ok rate) => .next (s.result (BitVec.ofNat 64 rate) 0)

/-- The parent's rate, then something that needs it (R266). -/
def State.withRate (s : State) (id : ClockId) (k : Nat → State → Outcome) : Outcome :=
  match s.rate id with
  | (s1, .error x) => s1.stop x
  | (s1, .ok rate) => k rate s1

end Sys2Proof.Machine
end

