-- ==== Sys2Proof/Machine/DivPll.lean ====
section
/-! DEFINITION. The divider PLL commands (43_div_pll.md). -/

namespace Sys2Proof.Machine

/-- Steps (6) to (10) of `DPLL.SET_RATE` (R162), for a divisor and a rate that passed the checks. -/
def dpllProgram (node : ClockId) (n : DpllNode) (div achieved : Nat) (s : State) : State :=
  let snap := s.fieldsValue n.base [n.div, n.en]
  let s1 := s.fieldsGet n.base [n.div, n.en]
  if n.div.getFrom snap = div then s1.result (BitVec.ofNat 64 achieved) 0
  else
    let s2 := (s1.fieldSet n.base n.div div).strobe n.base n.strobe
    if n.en.getFrom snap = 1 then s2.pollField node n.base n.ready true { r0 := BitVec.ofNat 64 achieved }
    else s2.result (BitVec.ofNat 64 achieved) 0

/-- `DPLL.SET_RATE` (R161, R162). -/
def execDpllSetRate (node : ClockId) (s : State) : Outcome :=
  match s.prologue NodeData.dpll? node with
  | none => .next (s.raise .invalidArgument)
  | some (_, n) =>
    let target := s.a0.toNat
    if target = 0 then .next (s.raise .invalidArgument)
    else
      s.withRate n.parent fun parentRate s =>
        let q := roundDiv parentRate target
        if q = 0 ∨ q - 1 > n.div.fmax then .next (s.raise .outOfRange)
        else
          let achieved := rdiv s.params.rdiv parentRate q
          if !inRange n.range achieved then .next (s.raise .outOfRange)
          else .next (dpllProgram node n (q - 1) achieved s)

/-- `DPLL.ENABLE` (R164). -/
def execDpllEnable (node : ClockId) (s : State) : Outcome :=
  match s.prologue NodeData.dpll? node with
  | none => .next (s.raise .invalidArgument)
  | some (_, n) =>
    let s1 := (s.setPll node .enabling).fieldSet n.base n.en 1
    .next ((s1.strobe n.base n.strobe).pollField node n.base n.ready true { pll := some .locked })

/-- `DPLL.DISABLE` (R165). -/
def execDpllDisable (node : ClockId) (s : State) : Outcome :=
  match s.prologue NodeData.dpll? node with
  | none => .next (s.raise .invalidArgument)
  | some (flags, n) =>
    if flags.critical then .next (s.result 0 0)
    else
      let s1 := (s.setPll node .disabling).fieldSet n.base n.en 0
      .next ((s1.strobe n.base n.strobe).pollField node n.base n.ready false { pll := some .disabled })

/-- `DPLL.GET_RATE` (R166). -/
def execDpllGetRate (node : ClockId) (s : State) : Outcome :=
  match s.prologue NodeData.dpll? node with
  | none => .next (s.raise .invalidArgument)
  | some (_, n) => s.withRate n.parent fun parentRate s => State.rateResult (dpllReadback n parentRate s)

/-- `DPLL.SET_PARENT` (R167): refused by the hardware. -/
def execDpllSetParent (node : ClockId) (s : State) : Outcome :=
  match s.prologue NodeData.dpll? node with
  | none => .next (s.raise .invalidArgument)
  | some _ => .next (s.raise .unsupportedOnVariant)

end Sys2Proof.Machine
end

