-- ==== Sys2Proof/Machine/FracPll.lean ====
section
/-! DEFINITION. The fractional PLL commands (42_frac_pll.md). -/

namespace Sys2Proof.Machine

/-- What `FpllCompute` returns (R141). -/
structure FpllSetting where
  mul      : Nat
  frac     : Nat
  achieved : Nat
deriving DecidableEq, Repr

/-- `FpllCompute(parent_rate, target)` (R141). -/
def fpllCompute (parentRate target : Nat) : FpllSetting :=
  let mul := target / parentRate
  let rem := target - mul * parentRate
  let frac := if rem = 0 then 0 else roundDiv (rem * 2 ^ Config.fracBits) parentRate
  { mul := mul, frac := frac, achieved := fpllRate parentRate mul frac }

/-- Step (6) of `FPLL.SET_RATE`: `mul` and `frac` fit their fields (R142) and the achieved rate fits `RATE_W` (D4, U19:
a computed rate of `2^64` or more is `OutOfRange`). That the last test stands in step (6) is DEDUCED (assumption 10). -/
def FpllSetting.fits (c : FpllSetting) (n : FpllNode) : Bool :=
  decide (c.frac ≤ n.frac.fmax) && decide (c.mul ≤ n.mul.fmax) && decide (c.achieved < 2 ^ 64)

/-- Steps (7) to (11) of `FPLL.SET_RATE` (R142), for a setting that fits. -/
def fpllProgram (node : ClockId) (n : FpllNode) (c : FpllSetting) (s : State) : State :=
  let snap := s.fieldsValue n.base [n.mul, n.frac, n.en]
  let s1 := s.fieldsGet n.base [n.mul, n.frac, n.en]
  if n.mul.getFrom snap = c.mul ∧ n.frac.getFrom snap = c.frac then s1.result (BitVec.ofNat 64 c.achieved) 0
  else
    let s2 := (s1.fieldsSet n.base [(n.mul, c.mul), (n.frac, c.frac)]).strobe n.base n.strobe
    if n.en.getFrom snap = 1 then s2.pollField node n.base n.ready true { r0 := BitVec.ofNat 64 c.achieved }
    else s2.result (BitVec.ofNat 64 c.achieved) 0

/-- `FPLL.SET_RATE` (R142). -/
def execFpllSetRate (node : ClockId) (s : State) : Outcome :=
  match s.prologue NodeData.fpll? node with
  | none => .next (s.raise .invalidArgument)
  | some (_, n) =>
    let target := s.a0.toNat
    if target = 0 then .next (s.raise .invalidArgument)
    else if !inRange n.range target then .next (s.raise .outOfRange)
    else
      s.withRate n.parent fun parentRate s =>
        if parentRate = 0 then .next (s.raise .invalidArgument)
        else
          let c := fpllCompute parentRate target
          if c.fits n then .next (fpllProgram node n c s)
          else .next (s.raise .outOfRange)

/-- An analog enable of `FPLL.ENABLE`, if the layout has it: its bit set, then the settle delay (R144). -/
def State.analogEnable (s : State) (base : Word) (f : Option FieldDesc) : State :=
  match f with
  | none => s
  | some f => (s.fieldSet base f 1).settle

/-- `FPLL.ENABLE` (R144). -/
def execFpllEnable (node : ClockId) (s : State) : Outcome :=
  match s.prologue NodeData.fpll? node with
  | none => .next (s.raise .invalidArgument)
  | some (_, n) =>
    let r := s.regValue n.base n.ready.off
    let s1 := s.regRead n.base n.ready.off
    if r &&& n.ready.mask ≠ 0 then .next (s1.finish node { pll := some .locked })
    else
      let s2 := s1.setPll node .enabling
      let s3 := ((s2.analogEnable n.base n.bias).analogEnable n.base n.bandgap).analogEnable n.base n.regulator
      .next (((s3.fieldSet n.base n.en 1).strobe n.base n.strobe).pollField node n.base n.ready true
        { pll := some .locked })

/-- `FPLL.DISABLE` (R146). -/
def execFpllDisable (node : ClockId) (s : State) : Outcome :=
  match s.prologue NodeData.fpll? node with
  | none => .next (s.raise .invalidArgument)
  | some (flags, n) =>
    if flags.critical then .next (s.result 0 0)
    else
      let s1 := (s.setPll node .disabling).fieldSet n.base n.en 0
      .next ((s1.strobe n.base n.strobe).pollField node n.base n.ready false { pll := some .disabled })

/-- `FPLL.GET_RATE` (R147). -/
def execFpllGetRate (node : ClockId) (s : State) : Outcome :=
  match s.prologue NodeData.fpll? node with
  | none => .next (s.raise .invalidArgument)
  | some (_, n) => s.withRate n.parent fun parentRate s => State.rateResult (fpllReadback n parentRate s)

/-- `FPLL.SET_PARENT` (R148): refused by the hardware. -/
def execFpllSetParent (node : ClockId) (s : State) : Outcome :=
  match s.prologue NodeData.fpll? node with
  | none => .next (s.raise .invalidArgument)
  | some _ => .next (s.raise .unsupportedOnVariant)

end Sys2Proof.Machine
end

