-- ==== Sys2Proof/Machine/GenericClock.lean ====
section
/-! DEFINITION. The generic clock commands (45_generic_peripheral.md R190 to R197). -/

namespace Sys2Proof.Machine

/-- `GCK.ENABLE` (R191). -/
def execGckEnable (node : ClockId) (s : State) : Outcome :=
  match s.prologue NodeData.gck? node with
  | none => .next (s.raise .invalidArgument)
  | some (_, n) => .next (s.selectThenConfigure node n.port n.port.en.mask n.port.en.mask {})

/-- `GCK.DISABLE` (R192). -/
def execGckDisable (node : ClockId) (s : State) : Outcome :=
  match s.prologue NodeData.gck? node with
  | none => .next (s.raise .invalidArgument)
  | some (flags, n) =>
    if flags.critical then .next (s.result 0 0)
    else .next (s.selectThenConfigure node n.port n.port.en.mask 0 {})

/-- `GCK.GET_RATE` (R197). -/
def execGckGetRate (node : ClockId) (s : State) : Outcome :=
  match s.prologue NodeData.gck? node with
  | none => .next (s.raise .invalidArgument)
  | some (_, n) => s.withRate n.parent fun parentRate s => State.rateResult (gckReadback n parentRate s)

/-- The best (parent, divisor) pair of the search so far (R193). -/
structure Candidate where
  diff : Nat
  pid  : ClockId
  div  : Nat
  rate : Nat
deriving DecidableEq, Repr

/-- `best = none or diff < best.diff`: strict improvement only (R193). -/
def improves (best : Option Candidate) (diff : Nat) : Bool :=
  match best with
  | none => true
  | some b => decide (diff < b.diff)

/-- The inner loop of `GckSearch` (R193) from divisor `d`, for at most the given number of divisors: compare, then
leave the loop on an exact match or on a rate below the target (R194 (e), R292). -/
def gckScan (mode : RoundMode) (target parentRate : Nat) (pid : ClockId) :
    Nat → Nat → Option Candidate → Option Candidate
  | 0, _, best => best
  | fuel + 1, d, best =>
    let r := rdiv mode parentRate d
    let diff := absDiff target r
    let best' := if improves best diff then some { diff := diff, pid := pid, div := d, rate := r } else best
    if diff = 0 ∨ r < target then best' else gckScan mode target parentRate pid fuel (d + 1) best'

/-- `GckSearch(n, target)` (R193): the candidate parents in declared order, each parent's rate read once. -/
def gckSearch (target : Nat) : List ClockId → Option Candidate → State → State × Except Stop (Option Candidate)
  | [], best, s => (s, .ok best)
  | pid :: rest, best, s =>
    match s.rate pid with
    | (s1, .error x) => (s1, .error x)
    | (s1, .ok parentRate) =>
      gckSearch target rest (gckScan s1.params.rdiv target parentRate pid Config.gckDivMax 1 best) s1

/-- Steps (5) to (7) of `GCK.SET_RATE` (R195). -/
def gckProgram (node : ClockId) (n : GckNode) (best : Candidate) (sel : Nat) (s : State) : State :=
  s.selectThenConfigure node n.port (n.mux.mask ||| n.div.mask) (n.mux.place sel ||| n.div.place (best.div - 1))
    { parent := some best.pid, r0 := BitVec.ofNat 64 best.rate, r1 := best.pid.setWidth 64 }

/-- `GCK.SET_RATE` (R195). A search with a candidate parent always finds a pair; were there none, step (3)'s error
is raised. -/
def execGckSetRate (node : ClockId) (s : State) : Outcome :=
  match s.prologue NodeData.gck? node with
  | none => .next (s.raise .invalidArgument)
  | some (_, n) =>
    let target := s.a0.toNat
    if target = 0 then .next (s.raise .invalidArgument)
    else if !inRange n.range target then .next (s.raise .outOfRange)
    else if n.extraParents.isEmpty then .next (s.raise .invalidArgument)
    else
      match gckSearch target n.extraParents none s with
      | (s1, .error x) => s1.stop x
      | (s1, .ok none) => .next (s1.raise .invalidArgument)
      | (s1, .ok (some best)) =>
        match n.table.p2s best.pid with
        | none => .next (s1.raise .unknownParent)
        | some sel => .next (gckProgram node n best sel s1)

/-- `GCK.SET_PARENT` (R196). -/
def execGckSetParent (node : ClockId) (s : State) : Outcome :=
  match s.prologue NodeData.gck? node with
  | none => .next (s.raise .invalidArgument)
  | some (_, n) =>
    match narrowId s.a0 with
    | none => .next (s.raise .invalidArgument)
    | some pid =>
      match n.table.p2s pid with
      | none => .next (s.raise .unknownParent)
      | some sel =>
        .next (s.selectThenConfigure node n.port n.mux.mask (n.mux.place sel) { parent := some pid })

end Sys2Proof.Machine
end

