-- ==== Sys2Proof/Machine/MasterClock.lean ====
section
/-! DEFINITION. The master/system clock commands (44_master_clock.md). -/

namespace Sys2Proof.Machine

/-- `MCK.ENABLE` (R177): succeeds with nothing to do. -/
def execMckEnable (node : ClockId) (s : State) : Outcome :=
  match s.prologue NodeData.mck? node with
  | none => .next (s.raise .invalidArgument)
  | some _ => .next (s.result 0 0)

/-- Clears the system clock enable bit, where the layout has it (R178). `NODE.REGISTER` admits `can_disable` only with
the descriptor (R232 (d)). -/
def State.clearSysen (s : State) (n : MckNode) : State :=
  match n.sysen with
  | none => s
  | some f => s.fieldSet n.base f 0

/-- `MCK.DISABLE` (R178). -/
def execMckDisable (node : ClockId) (s : State) : Outcome :=
  match s.prologue NodeData.mck? node with
  | none => .next (s.raise .invalidArgument)
  | some (flags, n) =>
    if flags.critical then .next (s.result 0 0)
    else if n.canDisable then .next ((s.clearSysen n).result 0 0)
    else .next (s.result 0 0)

/-- `MCK.GET_RATE` (R176). -/
def execMckGetRate (node : ClockId) (s : State) : Outcome :=
  match s.prologue NodeData.mck? node with
  | none => .next (s.raise .invalidArgument)
  | some (_, n) => s.withRate n.parent fun parentRate s => State.rateResult (mckReadback n parentRate s)

/-- `MCK.SET_RATE` (R181): refused by the hardware. -/
def execMckSetRate (node : ClockId) (s : State) : Outcome :=
  match s.prologue NodeData.mck? node with
  | none => .next (s.raise .invalidArgument)
  | some _ => .next (s.raise .unsupportedOnVariant)

/-- `if L.strobe != none then Strobe(n)` (R179). -/
def State.strobeOptional (s : State) (base : Word) (f : Option FieldDesc) : State :=
  match f with
  | none => s
  | some f => s.strobe base f

/-- `MCK.SET_PARENT` (R179). -/
def execMckSetParent (node : ClockId) (s : State) : Outcome :=
  match s.prologue NodeData.mck? node with
  | none => .next (s.raise .invalidArgument)
  | some (_, n) =>
    match narrowId s.a0 with
    | none => .next (s.raise .invalidArgument)
    | some pid =>
      match n.table.p2s pid with
      | none => .next (s.raise .unknownParent)
      | some sel =>
        .next (((s.fieldSet n.base n.mux sel).strobeOptional n.base n.strobe).pollField node n.base n.ready true
          { parent := some pid })

end Sys2Proof.Machine
end

