-- ==== Sys2Proof/Machine/Mux.lean ====
section
/-! DEFINITION. The mux translator commands (41_mux_translator.md R131, R132). -/

namespace Sys2Proof.Machine

/-- The mux table of a registered node; none where `node` is malformed, not registered or has no table, each of which
is `InvalidArgument` (R131, R132, R88, R254 (b), (c), (e)). -/
def State.tableOf (s : State) (node : ClockId) : Option MuxTable :=
  if wellFormedId node then
    match s.nt.lookup node with
    | none => none
    | some e => e.data.table?
  else none

/-- `MUX.P2S` (R131). -/
def execMuxP2s (node : ClockId) (s : State) : Outcome :=
  match narrowId s.a0, s.tableOf node with
  | some pid, some t =>
    match t.p2s pid with
    | none => .next (s.raise .unknownParent)
    | some sel => .next (s.result (BitVec.ofNat 64 sel) 0)
  | _, _ => .next (s.raise .invalidArgument)

/-- `MUX.S2I` (R132). -/
def execMuxS2i (node : ClockId) (s : State) : Outcome :=
  match narrowWord s.a0, s.tableOf node with
  | some code, some t =>
    match t.s2i code.toNat with
    | none => .next (s.raise .unknownSelect)
    | some idx => .next (s.result (BitVec.ofNat 64 idx) 0)
  | _, _ => .next (s.raise .invalidArgument)

end Sys2Proof.Machine
end

