-- ==== Sys2Proof/Machine/NodeTable.lean ====
section
/-! DEFINITION. Registration and lookup (47_node_table.md R230 to R233). -/

namespace Sys2Proof.Machine

/-! ## The static checks of `NODE.REGISTER` (R232 (a) to (f)) -/

/-- The kind of a registered id. -/
def NodeTable.kindOf (nt : NodeTable) (id : ClockId) : Option NodeKind := (nt.lookup id).map (·.data.kind)

/-- Every descriptor a description gives. -/
def LayoutDesc.present (l : LayoutDesc) : List FieldDesc :=
  [l.mul, l.frac, l.en, l.ready, l.strobe, l.bias, l.bandgap, l.regulator, l.div, l.pres, l.mdiv, l.mux, l.sysen,
    l.idsel, l.ext].filterMap id

/-- The descriptors of a node. -/
def NodeData.fields : NodeData → List FieldDesc
  | .fpll n => [n.mul, n.frac, n.en, n.ready, n.strobe] ++ [n.bias, n.bandgap, n.regulator].filterMap id
  | .dpll n => [n.div, n.en, n.ready, n.strobe]
  | .mck n => [n.pres, n.mdiv, n.mux, n.ready] ++ [n.strobe, n.sysen].filterMap id
  | .gck n => [n.port.idsel, n.port.strobe, n.port.en, n.div, n.mux] ++ [n.port.ready].filterMap id
  | .peri n => [n.port.idsel, n.port.strobe, n.port.en] ++ [n.port.ready].filterMap id
  | .prog n => [n.mux, n.pres] ++ [n.ext, n.ready].filterMap id
  | .osc _ => []

/-- The descriptors of a node whose width is "1" (R31). -/
def NodeData.oneBitFields : NodeData → List FieldDesc
  | .fpll n => [n.en, n.ready, n.strobe] ++ [n.bias, n.bandgap, n.regulator].filterMap id
  | .dpll n => [n.en, n.ready, n.strobe]
  | .mck n => [n.ready] ++ [n.strobe, n.sysen].filterMap id
  | .gck n => [n.port.strobe, n.port.en] ++ [n.port.ready].filterMap id
  | .peri n => [n.port.strobe, n.port.en] ++ [n.port.ready].filterMap id
  | .prog n => [n.ext, n.ready].filterMap id
  | .osc _ => []

/-- A node's base; an oscillator has none (R231). -/
def NodeData.base? : NodeData → Option Word
  | .fpll n => some n.base
  | .dpll n => some n.base
  | .mck n => some n.base
  | .gck n => some n.port.base
  | .peri n => some n.port.base
  | .prog n => some n.base
  | .osc _ => none

/-- The checks on a mux table common to its three kinds (R232 (e), R28). -/
def MuxTable.ok (nt : NodeTable) (t : MuxTable) : Bool :=
  decide (1 ≤ t.sel.length) && t.sel.length == t.pid.length && decide (t.sel.length ≤ Config.muxMax) &&
    decide t.sel.Nodup && decide t.pid.Nodup && t.pid.all (fun p => wellFormedId p && nt.has p)

/-- The fields of the shared command register lie in one register, and the ID fits its field (R31, R232 (c)). -/
def SharedPort.ok (p : SharedPort) : Bool :=
  p.strobe.off == p.idsel.off && p.en.off == p.idsel.off && decide (p.hwId ≤ p.idsel.fmax)

/-- The checks of R232 (c) to (f) that belong to a node's kind. -/
def NodeData.kindOk (nt : NodeTable) : NodeData → Bool
  | .fpll n => n.frac.width == Config.fracBits && wellFormedId n.parent && nt.has n.parent
  | .dpll n => wellFormedId n.parent && nt.kindOf n.parent == some .fpll
  | .mck n =>
    n.table.ok nt && n.table.sel.all (fun c => decide (c ≤ n.mux.fmax)) &&
      n.divtab.length == 2 ^ n.mdiv.width && n.divtab.all (fun d => decide (1 ≤ d)) &&
      n.pres3.all (fun c => decide (c ≤ n.pres.fmax)) && (!n.canDisable || n.sysen.isSome)
  | .gck n =>
    n.table.ok nt && n.table.sel.all (fun c => decide (c ≤ n.mux.fmax)) &&
      n.port.ok && n.div.off == n.port.idsel.off && n.mux.off == n.port.idsel.off && decide (8 ≤ n.div.width) &&
      decide n.extraParents.Nodup && n.extraParents.all (fun p => decide (p ∈ n.table.pid))
  | .peri n => n.port.ok && wellFormedId n.parent && nt.kindOf n.parent == some .mck
  | .prog n =>
    n.table.ok nt &&
      n.table.sel.all (fun c => if n.ext.isSome then decide (c ≤ 2 * n.mux.fmax + 1) else decide (c < 2 ^ 32))
  | .osc n => decide (n.fixedRate < 2 ^ 64)

/-- The checks of R232 (c) to (f) on a node, against the entries registered before it. -/
def NodeData.ok (nt : NodeTable) (d : NodeData) : Bool :=
  d.fields.all FieldDesc.ok && d.oneBitFields.all FieldDesc.oneBit &&
    d.base?.all (fun b => b.toNat % 4 == 0) && d.kindOk nt

/-- The node of a description of a given kind, when every field the kind requires is present (R31, R231, R232 (c) to
(f)). The parent of a node with a mux table and the `pll_state` are discovered later (R232 (g), (h)); until then they
hold a place. -/
def NodeDesc.build (d : NodeDesc) (k : NodeKind) : Option NodeData :=
  let base : Word := BitVec.ofNat 32 d.base
  let l := d.layout
  match k with
  | .fpll =>
    match l.mul, l.frac, l.en, l.ready, l.strobe, d.parent, d.table with
    | some mul, some frac, some en, some ready, some strobe, some parent, none =>
      some (.fpll {
          base, range := d.range, parent, mul, frac, en, ready, strobe, bias := l.bias
          bandgap := l.bandgap, regulator := l.regulator, pll := .disabled })
    | _, _, _, _, _, _, _ => none
  | .dpll =>
    match l.div, l.en, l.ready, l.strobe, d.parent, d.table with
    | some div, some en, some ready, some strobe, some parent, none =>
      some (.dpll { base, range := d.range, parent, div, en, ready, strobe, pll := .disabled })
    | _, _, _, _, _, _ => none
  | .mck =>
    match l.pres, l.mdiv, l.mux, l.ready, d.table with
    | some pres, some mdiv, some mux, some ready, some table =>
      some (.mck {
          base, range := d.range, table, parent := 0, pres, mdiv, mux, ready, strobe := l.strobe
          sysen := l.sysen, divtab := d.divtab, pres3 := d.pres3, canDisable := d.canDisable })
    | _, _, _, _, _ => none
  | .gck =>
    match l.idsel, l.strobe, l.en, l.div, l.mux, d.table with
    | some idsel, some strobe, some en, some div, some mux, some table =>
      some (.gck {
          port := { base, hwId := d.hwId, idsel, strobe, en, ready := l.ready }
          range := d.range, table, extraParents := d.extraParents, parent := 0, div, mux })
    | _, _, _, _, _, _ => none
  | .peri =>
    match l.idsel, l.strobe, l.en, d.parent, d.table with
    | some idsel, some strobe, some en, some parent, none =>
      some (.peri { port := { base, hwId := d.hwId, idsel, strobe, en, ready := l.ready }, range := d.range, parent })
    | _, _, _, _, _ => none
  | .prog =>
    match l.mux, l.pres, d.mode, d.table with
    | some mux, some pres, some mode, some table =>
      some (.prog { base, range := d.range, table, parent := 0, mode, mux, ext := l.ext, pres, ready := l.ready })
    | _, _, _, _ => none
  | .osc =>
    match d.parent, d.table with
    | none, none => some (.osc { fixedRate := d.fixedRate })
    | _, _ => none

/-- A base is below `2^32`; an oscillator has none (R231, R232 (c)). -/
def NodeDesc.baseOk (d : NodeDesc) (k : NodeKind) : Bool := k == .osc || decide (d.base < 2 ^ 32)

/-- Every ClockId that a description gives is well-formed (R88: "anywhere in a description"; R254 (b)), in a field that
its kind does not use too. -/
def NodeDesc.idsOk (d : NodeDesc) : Bool :=
  wellFormedId d.id && d.parent.all wellFormedId && d.extraParents.all wellFormedId &&
    d.table.all (fun t => t.pid.all wellFormedId)

/-- The static checks (R88, R232 (a) to (f)): the node a description stands for, or none, each failure being
`InvalidArgument`. -/
def NodeDesc.accept (d : NodeDesc) (params : Params) (nt : NodeTable) : Option NodeData :=
  match NodeKind.ofCode d.kindCode with
  | none => none
  | some k =>
    if d.idsOk && !nt.has d.id && decide (nt.length < params.nodeMax) &&
        d.layout.present.all FieldDesc.ok && d.baseOk k then
      (d.build k).filter (fun n => n.ok nt)
    else none

/-! ## Discovery from hardware (R232 (g), (h)) -/

/-- The parent a select code stands for: `d.mux.pid[S2I(d.mux, code)]` (R134, R232 (g)). -/
def MuxTable.parentOf (t : MuxTable) (code : Nat) : Option ClockId :=
  match t.s2i code with
  | none => none
  | some i => t.pid[i]?

/-- The registers a programmable clock's select code is read from (R232 (g)). -/
def progSelectFields (n : ProgNode) : List FieldDesc :=
  match n.ext with
  | none => [n.mux]
  | some ext => [n.mux, ext]

/-- The select code of a programmable clock in what was read: `lo | (x << width(L.mux))` (R232 (g)). -/
def progCode (n : ProgNode) (snap : Snapshot) : Nat :=
  match n.ext with
  | none => n.mux.getFrom snap
  | some ext => n.mux.getFrom snap ||| (ext.getFrom snap <<< n.mux.width)

/-- The `pll_state` of a PLL whose status register reads `r` (R38, R232 (h)). -/
def pllFromReady (ready : FieldDesc) (r : Word) : PllState := if r &&& ready.mask ≠ 0 then .locked else .disabled

/-- The node after the discovery accesses; none is `UnknownSelect` (R232 (g), (h)). -/
def NodeData.discovered (d : NodeData) (s : State) : Option NodeData :=
  match d with
  | .fpll n => some (.fpll { n with pll := pllFromReady n.ready (s.regValue n.base n.ready.off) })
  | .dpll n => some (.dpll { n with pll := pllFromReady n.ready (s.regValue n.base n.ready.off) })
  | .mck n => (n.table.parentOf (s.fieldValue n.base n.mux)).map (fun p => .mck { n with parent := p })
  | .gck n =>
    (n.table.parentOf (n.mux.extract (s.selectedValue n.port))).map (fun p => .gck { n with parent := p })
  | .prog n =>
    (n.table.parentOf (progCode n (s.fieldsValue n.base (progSelectFields n)))).map
      (fun p => .prog { n with parent := p })
  | .peri n => some (.peri n)
  | .osc n => some (.osc n)

/-- The state after the discovery accesses (R232 (g), (h)). -/
def State.discover (s : State) (d : NodeData) : State :=
  match d with
  | .fpll n => s.regRead n.base n.ready.off
  | .dpll n => s.regRead n.base n.ready.off
  | .mck n => s.fieldGet n.base n.mux
  | .gck n => s.selectAndRead n.port
  | .prog n => s.fieldsGet n.base (progSelectFields n)
  | .peri _ => s
  | .osc _ => s

/-- `NT[d.id] <- the entry` (R232). -/
def State.addNode (s : State) (id : ClockId) (flags : NodeFlags) (d : NodeData) : State :=
  { s with nt := { id := id, flags := flags, data := d } :: s.nt }

/-- `NODE.REGISTER` (R232). A word with a `node` is illegal (R95). -/
def execNodeRegister (node : ClockId) (s : State) : Outcome :=
  if node ≠ 0 then .next (s.raise .invalidArgument)
  else
    match s.desc.accept s.params s.nt with
    | none => .next (s.raise .invalidArgument)
    | some d =>
      match d.discovered s with
      | none => .next ((s.discover d).raise .unknownSelect)
      | some d' =>
        .next (((s.discover d).addNode s.desc.id s.desc.flags d').result (s.desc.id.setWidth 64) 0)

/-! ## Lookup (R233) -/

/-- `{has_parent, parent[15:0]}` (R233). -/
def parentResult (p : Option ClockId) : Operand :=
  match p with
  | none => 0
  | some p => (1 <<< 16) ||| p.setWidth 64

/-- `NODE.RESOLVE` (R233). -/
def execNodeResolve (node : ClockId) (s : State) : Outcome :=
  match s.prologue some node with
  | none => .next (s.raise .invalidArgument)
  | some (_, d) => .next (s.result (BitVec.ofNat 64 d.kind.code) (parentResult d.parent?))

end Sys2Proof.Machine
end

