-- ==== Sys2Proof/Machine/Oscillator.lean ====
section
/-! DEFINITION. The oscillator commands (47_node_table.md R235 to R239). -/

namespace Sys2Proof.Machine

/-- `OSC.GET_RATE` (R235). -/
def execOscGetRate (node : ClockId) (s : State) : Outcome :=
  match s.prologue NodeData.osc? node with
  | none => .next (s.raise .invalidArgument)
  | some (_, n) => .next (s.result (BitVec.ofNat 64 n.fixedRate) 0)

/-- `OSC.ENABLE` (R236): refused by the hardware. -/
def execOscEnable (node : ClockId) (s : State) : Outcome :=
  match s.prologue NodeData.osc? node with
  | none => .next (s.raise .invalidArgument)
  | some _ => .next (s.raise .unsupportedOnVariant)

/-- `OSC.DISABLE` (R237): refused by the hardware. -/
def execOscDisable (node : ClockId) (s : State) : Outcome :=
  match s.prologue NodeData.osc? node with
  | none => .next (s.raise .invalidArgument)
  | some _ => .next (s.raise .unsupportedOnVariant)

/-- `OSC.SET_RATE` (R238): refused by the hardware. -/
def execOscSetRate (node : ClockId) (s : State) : Outcome :=
  match s.prologue NodeData.osc? node with
  | none => .next (s.raise .invalidArgument)
  | some _ => .next (s.raise .unsupportedOnVariant)

/-- `OSC.SET_PARENT` (R239): refused by the hardware. -/
def execOscSetParent (node : ClockId) (s : State) : Outcome :=
  match s.prologue NodeData.osc? node with
  | none => .next (s.raise .invalidArgument)
  | some _ => .next (s.raise .unsupportedOnVariant)

end Sys2Proof.Machine
end

