-- ==== Sys2Proof/Machine/PeripheralClock.lean ====
section
/-! DEFINITION. The peripheral clock commands (45_generic_peripheral.md R198 to R203). -/

namespace Sys2Proof.Machine

/-- `PERI.ENABLE` (R199). -/
def execPeriEnable (node : ClockId) (s : State) : Outcome :=
  match s.prologue NodeData.peri? node with
  | none => .next (s.raise .invalidArgument)
  | some (_, n) => .next (s.selectThenConfigure node n.port n.port.en.mask n.port.en.mask {})

/-- `PERI.DISABLE` (R200). -/
def execPeriDisable (node : ClockId) (s : State) : Outcome :=
  match s.prologue NodeData.peri? node with
  | none => .next (s.raise .invalidArgument)
  | some (flags, n) =>
    if flags.critical then .next (s.result 0 0)
    else .next (s.selectThenConfigure node n.port n.port.en.mask 0 {})

/-- `PERI.GET_RATE` (R201): the parent's rate. -/
def execPeriGetRate (node : ClockId) (s : State) : Outcome :=
  match s.prologue NodeData.peri? node with
  | none => .next (s.raise .invalidArgument)
  | some (_, n) => State.rateResult (s.rate n.parent)

/-- `PERI.SET_RATE` (R202): refused by the hardware. -/
def execPeriSetRate (node : ClockId) (s : State) : Outcome :=
  match s.prologue NodeData.peri? node with
  | none => .next (s.raise .invalidArgument)
  | some _ => .next (s.raise .unsupportedOnVariant)

/-- `PERI.SET_PARENT` (R203): refused by the hardware. -/
def execPeriSetParent (node : ClockId) (s : State) : Outcome :=
  match s.prologue NodeData.peri? node with
  | none => .next (s.raise .invalidArgument)
  | some _ => .next (s.raise .unsupportedOnVariant)

end Sys2Proof.Machine
end

