-- ==== Sys2Proof/Machine/ProgrammableClock.lean ====
section
/-! DEFINITION. The programmable clock commands (46_programmable.md). -/

namespace Sys2Proof.Machine

/-- The `mux` and `ext` values of a select code (R216): the base field's bits and the extension bit; none where the
code exceeds the base field and the layout has no extension bit (`UnsupportedOnVariant`). -/
def progSelect (n : ProgNode) (sel : Nat) : Option (Nat × Nat) :=
  if sel ≤ n.mux.fmax then some (sel, 0)
  else if n.ext.isNone then none
  else some (sel &&& n.mux.fmax, 1)

/-- The select write of `PROG.SET_PARENT` (R216): the extension bit is written on every one where there is one. -/
def State.writeSelect (s : State) (n : ProgNode) (lo x : Nat) : State :=
  match n.ext with
  | none => s.fieldSet n.base n.mux lo
  | some ext => s.fieldsSet n.base [(n.mux, lo), (ext, x)]

/-- `PROG.SET_PARENT` (R216). -/
def execProgSetParent (node : ClockId) (s : State) : Outcome :=
  match s.prologue NodeData.prog? node with
  | none => .next (s.raise .invalidArgument)
  | some (_, n) =>
    match narrowId s.a0 with
    | none => .next (s.raise .invalidArgument)
    | some pid =>
      match n.table.p2s pid with
      | none => .next (s.raise .unknownParent)
      | some sel =>
        match progSelect n sel with
        | none => .next (s.raise .unsupportedOnVariant)
        | some (lo, x) =>
          .next ((s.writeSelect n lo x).pollOptional node n.base n.ready { parent := some pid })

/-- `ProgCompute(mode, parent_rate, target, pmax)` (R217); none is its `fail`. -/
def progCompute (mode : ProgMode) (parentRate target pmax : Nat) : Option Nat :=
  match mode with
  | .direct =>
    let divider := parentRate / target
    if divider < 1 ∨ divider > Config.progDivMax then none
    else if divider * target ≠ parentRate then none
    else if divider - 1 > pmax then none
    else some (divider - 1)
  | .pow2 =>
    if parentRate < target then none
    else
      let sh := clog2 parentRate target
      if parentRate >>> sh ≠ target then none
      else if sh > pmax then none
      else some sh

/-- `PROG.SET_RATE` (R218). -/
def execProgSetRate (node : ClockId) (s : State) : Outcome :=
  match s.prologue NodeData.prog? node with
  | none => .next (s.raise .invalidArgument)
  | some (_, n) =>
    let target := s.a0.toNat
    if target = 0 then .next (s.raise .invalidArgument)
    else if !inRange n.range target then .next (s.raise .outOfRange)
    else
      s.withRate n.parent fun parentRate s1 =>
        match progCompute n.mode parentRate target n.pres.fmax with
        | none => .next (s1.raise .outOfRange)
        | some v => .next ((s1.fieldSet n.base n.pres v).pollOptional node n.base n.ready { r0 := s.a0 })

/-- `PROG.ENABLE` (R219): refused by the hardware. -/
def execProgEnable (node : ClockId) (s : State) : Outcome :=
  match s.prologue NodeData.prog? node with
  | none => .next (s.raise .invalidArgument)
  | some _ => .next (s.raise .unsupportedOnVariant)

/-- `PROG.DISABLE` (R221): refused by the hardware; the `critical` flag is not consulted. -/
def execProgDisable (node : ClockId) (s : State) : Outcome :=
  match s.prologue NodeData.prog? node with
  | none => .next (s.raise .invalidArgument)
  | some _ => .next (s.raise .unsupportedOnVariant)

/-- `PROG.GET_RATE` (R220). -/
def execProgGetRate (node : ClockId) (s : State) : Outcome :=
  match s.prologue NodeData.prog? node with
  | none => .next (s.raise .invalidArgument)
  | some (_, n) => s.withRate n.parent fun parentRate s => State.rateResult (progReadback n parentRate s)

end Sys2Proof.Machine
end

