-- ==== Sys2Proof/Machine/RegAccess.lean ====
section
/-! DEFINITION. The register access commands (40_register_access.md R113 to R115). -/

namespace Sys2Proof.Machine

/-- `REG.READ` (R113). A word with a `node` is illegal (R95). -/
def execRegRead (node : ClockId) (s : State) : Outcome :=
  if node ≠ 0 then .next (s.raise .invalidArgument)
  else
    match narrowWord s.a0, narrowWord s.a1 with
    | some base, some off =>
      if (s.a0.toNat + s.a1.toNat) % 4 ≠ 0 then .next (s.raise .invalidArgument)
      else .next ((s.regRead base off).result ((s.regValue base off).setWidth 64) 0)
    | _, _ => .next (s.raise .invalidArgument)

/-- `REG.WRITE` (R114). A word with a `node` is illegal (R95). -/
def execRegWrite (node : ClockId) (s : State) : Outcome :=
  if node ≠ 0 then .next (s.raise .invalidArgument)
  else
    match narrowWord s.a0, narrowWord s.a1, narrowWord s.a2 with
    | some base, some off, some v =>
      if (s.a0.toNat + s.a1.toNat) % 4 ≠ 0 then .next (s.raise .invalidArgument)
      else .next ((s.regWrite base off v).result 0 0)
    | _, _, _ => .next (s.raise .invalidArgument)

/-- `REG.UPDATE` (R115). A word with a `node` is illegal (R95). -/
def execRegUpdate (node : ClockId) (s : State) : Outcome :=
  if node ≠ 0 then .next (s.raise .invalidArgument)
  else
    match narrowWord s.a0, narrowWord s.a1, narrowWord s.a2, narrowWord s.a3 with
    | some base, some off, some mask, some bits =>
      if (s.a0.toNat + s.a1.toNat) % 4 ≠ 0 then .next (s.raise .invalidArgument)
      else .next ((s.regUpdate base off mask bits).result 0 0)
    | _, _, _, _ => .next (s.raise .invalidArgument)

end Sys2Proof.Machine
end

