-- ==== Sys2Proof/Machine/NodeDispatch.lean ====
section
/-! DEFINITION. The five dispatch commands (47_node_table.md R241): the command of the node's own kind. -/

namespace Sys2Proof.Machine

/-- The kind a dispatch command goes by (R241); none is `InvalidArgument`. -/
def State.dispatchKind (s : State) (node : ClockId) : Option NodeKind :=
  (s.prologue some node).map (fun fd => fd.2.kind)

/-- `ENABLE` (R241). -/
def execEnable (node : ClockId) (s : State) : Outcome :=
  match s.dispatchKind node with
  | none => .next (s.raise .invalidArgument)
  | some .fpll => execFpllEnable node s
  | some .dpll => execDpllEnable node s
  | some .mck => execMckEnable node s
  | some .gck => execGckEnable node s
  | some .peri => execPeriEnable node s
  | some .prog => execProgEnable node s
  | some .osc => execOscEnable node s

/-- `DISABLE` (R241). -/
def execDisable (node : ClockId) (s : State) : Outcome :=
  match s.dispatchKind node with
  | none => .next (s.raise .invalidArgument)
  | some .fpll => execFpllDisable node s
  | some .dpll => execDpllDisable node s
  | some .mck => execMckDisable node s
  | some .gck => execGckDisable node s
  | some .peri => execPeriDisable node s
  | some .prog => execProgDisable node s
  | some .osc => execOscDisable node s

/-- `GET_RATE` (R241). -/
def execGetRate (node : ClockId) (s : State) : Outcome :=
  match s.dispatchKind node with
  | none => .next (s.raise .invalidArgument)
  | some .fpll => execFpllGetRate node s
  | some .dpll => execDpllGetRate node s
  | some .mck => execMckGetRate node s
  | some .gck => execGckGetRate node s
  | some .peri => execPeriGetRate node s
  | some .prog => execProgGetRate node s
  | some .osc => execOscGetRate node s

/-- `SET_RATE` (R241). -/
def execSetRate (node : ClockId) (s : State) : Outcome :=
  match s.dispatchKind node with
  | none => .next (s.raise .invalidArgument)
  | some .fpll => execFpllSetRate node s
  | some .dpll => execDpllSetRate node s
  | some .mck => execMckSetRate node s
  | some .gck => execGckSetRate node s
  | some .peri => execPeriSetRate node s
  | some .prog => execProgSetRate node s
  | some .osc => execOscSetRate node s

/-- `SET_PARENT` (R241). -/
def execSetParent (node : ClockId) (s : State) : Outcome :=
  match s.dispatchKind node with
  | none => .next (s.raise .invalidArgument)
  | some .fpll => execFpllSetParent node s
  | some .dpll => execDpllSetParent node s
  | some .mck => execMckSetParent node s
  | some .gck => execGckSetParent node s
  | some .peri => execPeriSetParent node s
  | some .prog => execProgSetParent node s
  | some .osc => execOscSetParent node s

end Sys2Proof.Machine
end

