-- ==== Sys2Proof/Machine/Dispatch.lean ====
section
/-! DEFINITION. The meaning of each command: one arm per constructor of `Instr`. -/

namespace Sys2Proof.Machine

def exec (i : Instr) (s : State) : Host.Outcome State Fault Refusal :=
  match i with
  | .regRead node => Sys2Proof.Machine.execRegRead node s
  | .regWrite node => Sys2Proof.Machine.execRegWrite node s
  | .regUpdate node => Sys2Proof.Machine.execRegUpdate node s
  | .muxP2s node => Sys2Proof.Machine.execMuxP2s node s
  | .muxS2i node => Sys2Proof.Machine.execMuxS2i node s
  | .nodeRegister node => Sys2Proof.Machine.execNodeRegister node s
  | .nodeResolve node => Sys2Proof.Machine.execNodeResolve node s
  | .fpllEnable node => Sys2Proof.Machine.execFpllEnable node s
  | .fpllDisable node => Sys2Proof.Machine.execFpllDisable node s
  | .fpllGetRate node => Sys2Proof.Machine.execFpllGetRate node s
  | .fpllSetRate node => Sys2Proof.Machine.execFpllSetRate node s
  | .fpllSetParent node => Sys2Proof.Machine.execFpllSetParent node s
  | .dpllEnable node => Sys2Proof.Machine.execDpllEnable node s
  | .dpllDisable node => Sys2Proof.Machine.execDpllDisable node s
  | .dpllGetRate node => Sys2Proof.Machine.execDpllGetRate node s
  | .dpllSetRate node => Sys2Proof.Machine.execDpllSetRate node s
  | .dpllSetParent node => Sys2Proof.Machine.execDpllSetParent node s
  | .mckEnable node => Sys2Proof.Machine.execMckEnable node s
  | .mckDisable node => Sys2Proof.Machine.execMckDisable node s
  | .mckGetRate node => Sys2Proof.Machine.execMckGetRate node s
  | .mckSetRate node => Sys2Proof.Machine.execMckSetRate node s
  | .mckSetParent node => Sys2Proof.Machine.execMckSetParent node s
  | .gckEnable node => Sys2Proof.Machine.execGckEnable node s
  | .gckDisable node => Sys2Proof.Machine.execGckDisable node s
  | .gckGetRate node => Sys2Proof.Machine.execGckGetRate node s
  | .gckSetRate node => Sys2Proof.Machine.execGckSetRate node s
  | .gckSetParent node => Sys2Proof.Machine.execGckSetParent node s
  | .periEnable node => Sys2Proof.Machine.execPeriEnable node s
  | .periDisable node => Sys2Proof.Machine.execPeriDisable node s
  | .periGetRate node => Sys2Proof.Machine.execPeriGetRate node s
  | .periSetRate node => Sys2Proof.Machine.execPeriSetRate node s
  | .periSetParent node => Sys2Proof.Machine.execPeriSetParent node s
  | .progEnable node => Sys2Proof.Machine.execProgEnable node s
  | .progDisable node => Sys2Proof.Machine.execProgDisable node s
  | .progGetRate node => Sys2Proof.Machine.execProgGetRate node s
  | .progSetRate node => Sys2Proof.Machine.execProgSetRate node s
  | .progSetParent node => Sys2Proof.Machine.execProgSetParent node s
  | .oscEnable node => Sys2Proof.Machine.execOscEnable node s
  | .oscDisable node => Sys2Proof.Machine.execOscDisable node s
  | .oscGetRate node => Sys2Proof.Machine.execOscGetRate node s
  | .oscSetRate node => Sys2Proof.Machine.execOscSetRate node s
  | .oscSetParent node => Sys2Proof.Machine.execOscSetParent node s
  | .enable node => Sys2Proof.Machine.execEnable node s
  | .disable node => Sys2Proof.Machine.execDisable node s
  | .getRate node => Sys2Proof.Machine.execGetRate node s
  | .setRate node => Sys2Proof.Machine.execSetRate node s
  | .setParent node => Sys2Proof.Machine.execSetParent node s

end Sys2Proof.Machine
end

