-- ==== Sys2Proof/Machine/Step.lean ====
section
/-! DEFINITION. One step of the machine, and the placing of a command word for the next step. -/

namespace Sys2Proof.Machine

/-- The command in `CMD` runs: an illegal word ends with `InvalidArgument` (R95, R254 (a)), any other is its
command. -/
def runCommand (s : State) : Host.Outcome State Fault Refusal :=
  match decode s.fetchedWord with
  | .error _ => .next (s.raise .invalidArgument)
  | .ok i => exec i s

/-- The command in `CMD` runs until an engine reset arrives after its first `after` bus events (R280). -/
def runAbandoned (after : Nat) (s : State) : Host.Outcome State Fault Refusal :=
  match runCommand s with
  | .next t => .next (s.abandon t after)
  | .fault f => .fault f
  | .refused r => .refused r

/-- One step: one move of one agent (R3, R24). Idle, the host moves, if it has a move; a command accepted runs, to its
end or into its poll, unless the host's next move is a reset; in a poll, the host moves if it has a move other than
to wait, and else the engine reads the status register once more. -/
def step (s : State) : Host.Outcome State Fault Refusal :=
  match s.engine, s.host with
  | .idle, [] => .next s
  | .idle, m :: rest => .next (State.hostMove { s with host := rest } m)
  | .started, .reset after :: rest => runAbandoned after { s with host := rest }
  | .started, _ => runCommand s
  | .polling p, [] => .next (s.poll p)
  | .polling p, m :: rest => .next (State.hostMoveInPoll { s with host := rest } p m)

/-- The state with a command word accepted (R21, R80), so that the next step runs it. No host move may come before
that step, so the host has none. -/
def State.withFetchWord (s : State) (_nbits w : Nat) : State :=
  { s.acceptCmd (BitVec.ofNat 32 w) with host := [] }

end Sys2Proof.Machine
end

