-- ==== Sys2Proof/Machine/Invariant.lean ====
section
/-! DEFINITION. The invariants of the machine, as checks on a state: what R232 establishes of the node table and every
command keeps, the port between commands, and the canonical form of the storage. -/

namespace Sys2Proof.Machine

/-- The current parent of a node with a mux table is one of the table's parents (R175, R190, R215, R232 (g)). -/
def NodeData.parentListed (d : NodeData) : Bool :=
  match d.table?, d.parent? with
  | some t, some p => decide (p ∈ t.pid)
  | _, _ => true

/-- What `NODE.REGISTER` establishes of an entry, against the entries registered before it (R232). -/
def NodeEntry.ok (older : NodeTable) (e : NodeEntry) : Bool :=
  wellFormedId e.id && !older.has e.id && e.data.ok older && e.data.parentListed

/-- Every entry of the table is as `NODE.REGISTER` made it (R232, R240). -/
def NodeTable.ok : NodeTable → Bool
  | [] => true
  | e :: older => e.ok older && NodeTable.ok older

/-- A parent that a poll's completion will set is in the mux table of its node. -/
def State.pollOk (s : State) (p : Poll) : Bool :=
  match p.next.parent with
  | none => true
  | some pid =>
    s.nt.all fun e => e.id != p.node ||
      match e.data.table? with
      | none => true
      | some t => decide (pid ∈ t.pid)

/-- The node table is well-formed and a poll in progress keeps it so. -/
def State.nodesOk (s : State) : Bool :=
  s.nt.ok &&
    match s.engine with
    | .idle => true
    | .started => true
    | .polling p => s.pollOk p

/-- `STATUS` is one of the six codes (R94), and while `BUSY = 1` the results are the zeros of the command's start
(R21). -/
def State.portOk (s : State) : Bool :=
  decide (s.status.toNat ≤ 5) && (!s.busy || (s.r0 == 0 && s.r1 == 0))

/-- The target's storage is in canonical form. -/
def State.storageOk (s : State) : Bool :=
  s.target.mem.wf && s.target.latched.wf && cellsWf s.target.selected && cellsWf s.target.applied

end Sys2Proof.Machine
end

