-- ==== Sys2Proof/Safety.lean ====
section
/-! DEFINITION. What counts as a safe run, and the words the statements use. -/

namespace Sys2Proof

open Machine

/-- A step of the machine goes on: it ends in a next state, not in a fault or a refusal. -/
def StepGoesOn (s : State) : Prop := ∃ t, step s = .next t

/-- The machine goes on for `n` steps. -/
def GoesOn (n : Nat) (s : State) : Prop := ∃ t, core.run n s = .next t

/-- The state with some more bus events: the target has seen them, the trace records them. -/
def afterEvents (s : State) (evs : List BusEvent) : State :=
  { s with target := s.target.replay evs, trace := s.trace ++ evs }

/-- The read of an address, with the answer the target gives after some events. -/
def readAfter (s : State) (evs : List BusEvent) (a : Word) : Word := (s.target.replay evs).answer a

/-- Every read in a trace carries the answer its target gave (R65): no read is satisfied without reaching the
target. -/
def Explained (t : Target) : List BusEvent → Prop
  | [] => True
  | .read a v :: rest => v = t.answer a ∧ Explained t.afterRead rest
  | .write a v :: rest => Explained (t.afterWrite a v) rest
  | .settle :: rest => Explained t rest

/-- Whether an event is a bus write. -/
def isWrite : BusEvent → Bool
  | .write _ _ => true
  | .read _ _ => false
  | .settle => false

/-- Whether an event writes one of the four bytes at a byte address. -/
def writesByte (b : Nat) : BusEvent → Bool
  | .write a _ => decide (a.toNat ≤ b ∧ b < a.toNat + 4)
  | .read _ _ => false
  | .settle => false

/-- Whether an event is the select write of a shared command register (R121 step 1). -/
def isSelectOf (p : SharedPort) : BusEvent → Bool
  | .write a v => a == busAddr p.base p.idsel.off && v == p.idsel.place p.hwId
  | .read _ _ => false
  | .settle => false

/-- What of a node no command changes after its registration (R20, R35): all but its parent and `pll_state`. -/
def fixedPart (d : NodeData) : NodeData := (d.withParent 0).withPll .disabled

/-- An entry with what no command changes in it. -/
def fixedEntry (e : NodeEntry) : NodeEntry := { e with data := fixedPart e.data }

/-- A command that succeeded at once: `STATUS = 0`, the results, `BUSY = 0`, and nothing else (R9). -/
def succeeded (s : State) (r0 r1 : Operand) : State :=
  { s with status := 0, r0 := r0, r1 := r1, engine := .idle }

/-- A command that ended with an error: `STATUS`, `BUSY = 0`, and nothing else (R252). -/
def failedWith (s : State) (code : BitVec 4) : State := { s with status := code, engine := .idle }

/-! ## Commands and nodes -/

/-- The 47 opcodes of R84. -/
def opcodes : List Nat :=
  [0x01, 0x02, 0x03, 0x10, 0x11, 0x20, 0x21, 0x30, 0x31, 0x32, 0x33, 0x34, 0x40, 0x41, 0x42, 0x43, 0x44, 0x50, 0x51,
    0x52, 0x53, 0x54, 0x60, 0x61, 0x62, 0x63, 0x64, 0x70, 0x71, 0x72, 0x73, 0x74, 0x80, 0x81, 0x82, 0x83, 0x84, 0x90,
    0x91, 0x92, 0x93, 0x94, 0xF0, 0xF1, 0xF2, 0xF3, 0xF4]

/-- A node is registered, with these flags and this data. -/
def Registered (s : State) (node : ClockId) (flags : NodeFlags) (d : NodeData) : Prop :=
  wellFormedId node = true ∧ s.nt.lookup node = some { id := node, flags := flags, data := d }

/-- `ENABLE` of a kind (R84). -/
def enableOf (k : NodeKind) (node : ClockId) : Instr :=
  match k with
  | .fpll => .fpllEnable node
  | .dpll => .dpllEnable node
  | .mck => .mckEnable node
  | .gck => .gckEnable node
  | .peri => .periEnable node
  | .prog => .progEnable node
  | .osc => .oscEnable node

/-- `DISABLE` of a kind (R84). -/
def disableOf (k : NodeKind) (node : ClockId) : Instr :=
  match k with
  | .fpll => .fpllDisable node
  | .dpll => .dpllDisable node
  | .mck => .mckDisable node
  | .gck => .gckDisable node
  | .peri => .periDisable node
  | .prog => .progDisable node
  | .osc => .oscDisable node

/-- `GET_RATE` of a kind (R84). -/
def getRateOf (k : NodeKind) (node : ClockId) : Instr :=
  match k with
  | .fpll => .fpllGetRate node
  | .dpll => .dpllGetRate node
  | .mck => .mckGetRate node
  | .gck => .gckGetRate node
  | .peri => .periGetRate node
  | .prog => .progGetRate node
  | .osc => .oscGetRate node

/-- `SET_RATE` of a kind (R84). -/
def setRateOf (k : NodeKind) (node : ClockId) : Instr :=
  match k with
  | .fpll => .fpllSetRate node
  | .dpll => .dpllSetRate node
  | .mck => .mckSetRate node
  | .gck => .gckSetRate node
  | .peri => .periSetRate node
  | .prog => .progSetRate node
  | .osc => .oscSetRate node

/-- `SET_PARENT` of a kind (R84). -/
def setParentOf (k : NodeKind) (node : ClockId) : Instr :=
  match k with
  | .fpll => .fpllSetParent node
  | .dpll => .dpllSetParent node
  | .mck => .mckSetParent node
  | .gck => .gckSetParent node
  | .peri => .periSetParent node
  | .prog => .progSetParent node
  | .osc => .oscSetParent node

/-- The kind-specific commands of a kind on a node (R84). -/
def kindCommands (k : NodeKind) (node : ClockId) : List Instr :=
  [enableOf k node, disableOf k node, getRateOf k node, setRateOf k node, setParentOf k node]

/-- The eleven refused commands on a node, each with its kind (R244). -/
def refusedCommands (node : ClockId) : List (NodeKind × Instr) :=
  [(.fpll, .fpllSetParent node), (.dpll, .dpllSetParent node), (.mck, .mckSetRate node), (.peri, .periSetRate node),
    (.peri, .periSetParent node), (.prog, .progEnable node), (.prog, .progDisable node), (.osc, .oscEnable node),
    (.osc, .oscDisable node), (.osc, .oscSetRate node), (.osc, .oscSetParent node)]

/-! ## Node descriptions -/

/-- A node carries what a description gives for its kind, unchanged (R35, R231): all of it but the parent of a node
with a mux table and the `pll_state`, which registration discovers (R232 (g), (h)). -/
def Carries (d : NodeDesc) (node : NodeData) : Prop :=
  d.kindCode = node.kind.code ∧
    match node with
    | .fpll n =>
      d.base = n.base.toNat ∧ d.range = n.range ∧ d.parent = some n.parent ∧ d.layout.mul = some n.mul ∧
        d.layout.frac = some n.frac ∧ d.layout.en = some n.en ∧ d.layout.ready = some n.ready ∧
        d.layout.strobe = some n.strobe ∧ d.layout.bias = n.bias ∧ d.layout.bandgap = n.bandgap ∧
        d.layout.regulator = n.regulator
    | .dpll n =>
      d.base = n.base.toNat ∧ d.range = n.range ∧ d.parent = some n.parent ∧ d.layout.div = some n.div ∧
        d.layout.en = some n.en ∧ d.layout.ready = some n.ready ∧ d.layout.strobe = some n.strobe
    | .mck n =>
      d.base = n.base.toNat ∧ d.range = n.range ∧ d.table = some n.table ∧ d.layout.pres = some n.pres ∧
        d.layout.mdiv = some n.mdiv ∧ d.layout.mux = some n.mux ∧ d.layout.ready = some n.ready ∧
        d.layout.strobe = n.strobe ∧ d.layout.sysen = n.sysen ∧ d.divtab = n.divtab ∧ d.pres3 = n.pres3 ∧
        d.canDisable = n.canDisable
    | .gck n =>
      d.base = n.port.base.toNat ∧ d.range = n.range ∧ d.table = some n.table ∧ d.extraParents = n.extraParents ∧
        d.hwId = n.port.hwId ∧ d.layout.idsel = some n.port.idsel ∧ d.layout.strobe = some n.port.strobe ∧
        d.layout.en = some n.port.en ∧ d.layout.div = some n.div ∧ d.layout.mux = some n.mux ∧
        d.layout.ready = n.port.ready
    | .peri n =>
      d.base = n.port.base.toNat ∧ d.range = n.range ∧ d.parent = some n.parent ∧ d.hwId = n.port.hwId ∧
        d.layout.idsel = some n.port.idsel ∧ d.layout.strobe = some n.port.strobe ∧
        d.layout.en = some n.port.en ∧ d.layout.ready = n.port.ready
    | .prog n =>
      d.base = n.base.toNat ∧ d.range = n.range ∧ d.table = some n.table ∧ d.mode = some n.mode ∧
        d.layout.mux = some n.mux ∧ d.layout.pres = some n.pres ∧ d.layout.ext = n.ext ∧ d.layout.ready = n.ready
    | .osc n => d.fixedRate = n.fixedRate

/-- The checks of R232 (e) on a mux table, common to the three kinds that have one. -/
def TableChecks (nt : NodeTable) (t : MuxTable) : Prop :=
  1 ≤ t.sel.length ∧ t.sel.length = t.pid.length ∧ t.sel.length ≤ 10 ∧ t.sel.Nodup ∧ t.pid.Nodup ∧
    ∀ p ∈ t.pid, wellFormedId p = true ∧ nt.lookup p ≠ none

/-- The checks of R232 (c) to (f) that belong to a node's kind. -/
def KindChecks (d : NodeDesc) (nt : NodeTable) : NodeData → Prop
  | .fpll n => n.frac.width = 22 ∧ wellFormedId n.parent = true ∧ nt.lookup n.parent ≠ none ∧ d.table = none
  | .dpll n =>
    wellFormedId n.parent = true ∧ (nt.lookup n.parent).map (·.data.kind) = some .fpll ∧ d.table = none
  | .mck n =>
    TableChecks nt n.table ∧ (∀ c ∈ n.table.sel, c ≤ n.mux.fmax) ∧ n.divtab.length = 2 ^ n.mdiv.width ∧
      (∀ x ∈ n.divtab, 1 ≤ x) ∧ (∀ c ∈ n.pres3, c ≤ n.pres.fmax) ∧ (n.canDisable = true → n.sysen ≠ none)
  | .gck n =>
    TableChecks nt n.table ∧ (∀ c ∈ n.table.sel, c ≤ n.mux.fmax) ∧ 8 ≤ n.div.width ∧
      n.port.hwId ≤ n.port.idsel.fmax ∧ n.port.strobe.off = n.port.idsel.off ∧ n.port.en.off = n.port.idsel.off ∧
      n.div.off = n.port.idsel.off ∧ n.mux.off = n.port.idsel.off ∧ n.extraParents.Nodup ∧
      ∀ p ∈ n.extraParents, p ∈ n.table.pid
  | .peri n =>
    n.port.hwId ≤ n.port.idsel.fmax ∧ n.port.strobe.off = n.port.idsel.off ∧ n.port.en.off = n.port.idsel.off ∧
      wellFormedId n.parent = true ∧ (nt.lookup n.parent).map (·.data.kind) = some .mck ∧ d.table = none
  | .prog n =>
    TableChecks nt n.table ∧
      ∀ c ∈ n.table.sel, (n.ext ≠ none → c ≤ 2 * n.mux.fmax + 1) ∧ (n.ext = none → c < 2 ^ 32)
  | .osc n => n.fixedRate < 2 ^ 64 ∧ d.parent = none ∧ d.table = none

/-- The static checks of `NODE.REGISTER` on the description in `DESC` and the node that carries it (R88, R90, R232 (a)
to (f)). -/
def StaticChecks (s : State) (node : NodeData) : Prop :=
  wellFormedId s.desc.id = true ∧ (∀ p ∈ s.desc.parent, wellFormedId p = true) ∧
    (∀ p ∈ s.desc.extraParents, wellFormedId p = true) ∧
    (∀ t ∈ s.desc.table, ∀ p ∈ t.pid, wellFormedId p = true) ∧
    s.nt.lookup s.desc.id = none ∧ s.nt.length < s.params.nodeMax ∧
    (∀ f ∈ s.desc.layout.present, f.off.toNat % 4 = 0 ∧ f.shift ≤ 31 ∧ 1 ≤ f.width ∧
      f.mask.toNat = (2 ^ f.width - 1) * 2 ^ f.shift) ∧
    (∀ b ∈ node.base?, b.toNat % 4 = 0) ∧ (∀ f ∈ node.oneBitFields, f.width = 1) ∧ KindChecks s.desc s.nt node

/-! ## What commands do, as bus events -/

/-- The events of `RegUpdate(base, off, mask, bits)` after some events: one read, one write of the value read with the
bits of the mask replaced (R112). -/
def updateEvents (s : State) (evs : List BusEvent) (base off mask bits : Word) : List BusEvent :=
  let a := busAddr base off
  let old := readAfter s evs a
  [.read a old, .write a ((old &&& ~~~ mask) ||| (bits &&& mask))]

/-- Some events, then an update of a field to a value (R116). -/
def thenSet (s : State) (evs : List BusEvent) (base : Word) (f : FieldDesc) (v : Nat) : List BusEvent :=
  evs ++ updateEvents s evs base f.off f.mask (f.place v)

/-- Some events, then a strobe (R119). -/
def thenStrobe (s : State) (evs : List BusEvent) (base : Word) (f : FieldDesc) : List BusEvent :=
  evs ++ updateEvents s evs base f.off f.mask f.mask

/-- Some events, then an analog enable with its settle marker where the layout has the bit (R144). -/
def thenAnalog (s : State) (evs : List BusEvent) (base : Word) (f : Option FieldDesc) : List BusEvent :=
  match f with
  | none => evs
  | some f => thenSet s evs base f 1 ++ [.settle]

/-- The events of the two steps of `SelectThenConfigure` after some events: exactly `W, R, W` (R121). -/
def selectConfigureEvents (s : State) (evs : List BusEvent) (p : SharedPort) (mask bits : Word) : List BusEvent :=
  let c := busAddr p.base p.idsel.off
  let select := BusEvent.write c (p.idsel.place p.hwId)
  select :: updateEvents s (evs ++ [select]) p.base p.idsel.off (mask ||| p.strobe.mask) (bits ||| p.strobe.mask)

/-- A command that completed on a node: `STATUS = 0`, `BUSY = 0`, the results, the node's new parent and
`pll_state`. -/
def completed (s : State) (node : ClockId) (c : Completion) : State :=
  { s with
    nt := s.nt.map (fun e => if e.id = node then { e with data := c.apply e.data } else e)
    r0 := c.r0, r1 := c.r1, status := 0, engine := .idle }

/-- Some events, then the first read of a poll (R117, R118): the command completes if the bit is as awaited, and is in
the poll with `BUSY = 1` otherwise. -/
def pollAfter (s : State) (evs : List BusEvent) (p : Poll) : State :=
  let v := readAfter s evs p.addr
  let u := afterEvents s (evs ++ [.read p.addr v])
  if (v &&& p.mask ≠ 0) ↔ p.awaited = true then completed u p.node p.next else { u with engine := .polling p }

/-- `SelectThenConfigure` and the end of its command (R121). -/
def sharedOutcome (s : State) (node : ClockId) (p : SharedPort) (mask bits : Word) (c : Completion) : State :=
  let evs := selectConfigureEvents s [] p mask bits
  let old := readAfter s (evs.take 1) (busAddr p.base p.idsel.off)
  let new := (old &&& ~~~ (mask ||| p.strobe.mask)) ||| ((bits ||| p.strobe.mask) &&& (mask ||| p.strobe.mask))
  match p.ready with
  | none => completed (afterEvents s evs) node c
  | some ready =>
    if p.en.extract new = 1 then
      pollAfter s evs
        { node := node, addr := busAddr p.base ready.off, mask := ready.mask, awaited := true, next := c }
    else completed (afterEvents s evs) node c

/-- The optional poll at the end of a command, after some events. -/
def optionalPoll (s : State) (evs : List BusEvent) (node : ClockId) (base : Word) (ready : Option FieldDesc)
    (c : Completion) : State :=
  match ready with
  | none => completed (afterEvents s evs) node c
  | some f =>
    pollAfter s evs { node := node, addr := busAddr base f.off, mask := f.mask, awaited := true, next := c }

/-- The rates of some nodes, read one after the other (R193), when every one is answered. -/
def ratesOf : List ClockId → State → Option (List (ClockId × Nat) × State)
  | [], s => some ([], s)
  | pid :: rest, s =>
    match s.rate pid with
    | (_, .error _) => none
    | (s1, .ok r) => (ratesOf rest s1).map (fun x => ((pid, r) :: x.1, x.2))

/-- The search of R193 over parents whose rates are known. -/
def bestOf (mode : RoundMode) (target : Nat) (ps : List (ClockId × Nat)) : Option Candidate :=
  ps.foldl (fun best p => gckScan mode target p.2 p.1 Config.gckDivMax 1 best) none

/-! ## Runs of reads and updates, as bus events -/

/-- The reads of some registers of a node, in order, after some events. -/
def readEvents (s : State) (evs : List BusEvent) (base : Word) (offs : List Word) : List BusEvent :=
  offs.foldl (fun evs o => evs ++ [.read (busAddr base o) (readAfter s evs (busAddr base o))]) evs

/-- The value of the first read of an address among some events. -/
def firstRead (a : Word) : List BusEvent → Word
  | [] => 0
  | .read b v :: rest => if b = a then v else firstRead a rest
  | .write _ _ :: rest => firstRead a rest
  | .settle :: rest => firstRead a rest

/-- The value of a node's field as some events show it (R116). -/
def fieldIn (evs : List BusEvent) (base : Word) (f : FieldDesc) : Nat :=
  f.extract (firstRead (busAddr base f.off) evs)

/-- `FieldsSet` after some events: one update for each register (R116). -/
def updateAllEvents (s : State) (evs : List BusEvent) (base : Word) (fvs : List (FieldDesc × Nat)) : List BusEvent :=
  (distinctOffs (fvs.map (·.1))).foldl
    (fun evs o => evs ++ updateEvents s evs base o (maskAt o fvs) (bitsAt o fvs)) evs

/-- The port and the node table are as R36 says they are after an engine reset. -/
def AtReset (s : State) : Prop :=
  s.busy = false ∧ s.status = 0 ∧ s.cmd = 0 ∧ s.a0 = 0 ∧ s.a1 = 0 ∧ s.a2 = 0 ∧ s.a3 = 0 ∧ s.r0 = 0 ∧ s.r1 = 0 ∧
    ∀ id, s.nt.lookup id = none

/-- The target after some reads. -/
def readsLater (t : Target) : Nat → Target
  | 0 => t
  | k + 1 => (readsLater t k).afterRead

end Sys2Proof
end

