-- ==== Sys2Proof/Certificates/Slice0/Obligations.lean ====
section
/-! DEFINITION. The statements for the provers. -/

open Sys2Proof
open Sys2Proof.Machine

/-! ## Encoding -/

/-- R81, R84, R95, R97: a well-formed command encodes to `(node << 8) | op`, and decoding that word gives the command; a
legal word is the encoding of the one command it decodes to, and that command is well-formed. -/
def Obligations.DecodeEncodeAgree : Prop :=
  (∀ i : Instr, i.WellFormed →
      encode i = (i.node.setWidth 32 <<< 8) ||| (opcodeOf i).setWidth 32 ∧ decode (encode i) = .ok i) ∧
    ∀ (w : Word) (i : Instr), decode w = .ok i → i.WellFormed ∧ encode i = w

/-- R95: which words are illegal, what the engine answers to one, and that the eleven refused commands are legal words
that answer `UnsupportedOnVariant`. -/
def Obligations.IllegalWordsExactly : Prop :=
  (∀ w : Word,
      (∃ why, decode w = .error why) ↔
        w.extractLsb' 24 8 ≠ 0 ∨ (w.extractLsb' 0 8).toNat ∉ opcodes ∨
          ((w.extractLsb' 0 8).toNat ∈ [0x01, 0x02, 0x03, 0x20] ∧ w.extractLsb' 8 16 ≠ 0)) ∧
    (∀ s : State, s.engine = .started → (∀ after rest, s.host ≠ .reset after :: rest) →
      (∃ why, decode s.cmd = .error why) → step s = .next (failedWith s 1)) ∧
    (∀ (s : State) (node : ClockId) (flags : NodeFlags) (d : NodeData) (i : Instr),
      (d.kind, i) ∈ refusedCommands node → decode (encode i) = .ok i ∧
        (Registered s node flags d → exec i s = .next (failedWith s 5)))

/-- Sanity: a few words written out from R81 and R84 decode to their commands; three illegal words do not. -/
def Obligations.SampleWordsDecode : Prop :=
  decode 0x00000001 = .ok (.regRead 0) ∧ decode 0x00000133 = .ok (.fpllSetRate 1) ∧
    decode 0x00000811 = .ok (.muxS2i 8) ∧ decode 0x00032263 = .ok (.gckSetRate 0x0322) ∧
    decode 0x00040BF4 = .ok (.setParent 0x040B) ∧ decode 0x00000101 = .error .nodeNotZero ∧
    decode 0x00000135 = .error .unassignedOpcode ∧ decode 0x01000133 = .error .zeroFieldSet

/-! ## Steps, the port, the engine reset -/

/-- R24, R80: the step after a command is accepted is the command of the word in `CMD`, unless the host resets the
engine meanwhile. -/
def Obligations.StepRunsTheDecodedCommand : Prop :=
  (∀ (s : State) (i : Instr), s.engine = .started → (∀ after rest, s.host ≠ .reset after :: rest) →
      decode s.cmd = .ok i → step s = exec i s) ∧
    ∀ (s : State) (nbits w : Nat) (i : Instr), decodeTableWord nbits w = some i →
      step (s.withFetchWord nbits w) = exec i (s.withFetchWord nbits w)

/-- R21, R80, R262: what the host's moves do while `BUSY = 0`, and that its writes while the engine polls change nothing
(for `DESC` this is assumption 11, DEDUCED). -/
def Obligations.HostMovesReachPort : Prop :=
  (∀ (s : State) (rest : List HostMove), s.engine = .idle →
      (∀ w, s.host = .writeCmd w :: rest →
        step s = .next { s with cmd := w, r0 := 0, r1 := 0, engine := .started, host := rest }) ∧
      (∀ v, s.host = .writeOperand 0 v :: rest → step s = .next { s with a0 := v, host := rest }) ∧
      (∀ v, s.host = .writeOperand 1 v :: rest → step s = .next { s with a1 := v, host := rest }) ∧
      (∀ v, s.host = .writeOperand 2 v :: rest → step s = .next { s with a2 := v, host := rest }) ∧
      (∀ v, s.host = .writeOperand 3 v :: rest → step s = .next { s with a3 := v, host := rest }) ∧
      (∀ d, s.host = .writeDesc d :: rest → step s = .next { s with desc := d, host := rest }) ∧
      (s.host = .wait :: rest → step s = .next { s with host := rest }) ∧
      (s.host = [] → step s = .next s)) ∧
    ∀ (s : State) (p : Poll) (m : HostMove) (rest : List HostMove), s.engine = .polling p → s.host = m :: rest →
      ((∃ w, m = .writeCmd w) ∨ (∃ k v, m = .writeOperand k v) ∨ ∃ d, m = .writeDesc d) →
        step s = .next { s with host := rest }

/-- R36: the port and the node table after an engine reset, from reset and after every reset move, whatever the engine
was doing. -/
def Obligations.ResetValues : Prop :=
  AtReset State.reset ∧
    ∀ (s t : State) (after : Nat) (rest : List HostMove), s.host = .reset after :: rest → step s = .next t →
      AtReset t

/-- R37, R280, R281: an engine reset between commands or in a poll leaves the target and the trace alone; one that
arrives after the first `after` accesses of a command abandons it: those accesses stand, none of the others is issued;
one that arrives when an illegal command word has been accepted finds no access to abandon. That `DESC` is blank after
it is assumption 4 (DESIGN CHOICE). -/
def Obligations.ResetKeepsTarget : Prop :=
  (∀ (s : State) (after : Nat) (rest : List HostMove),
      (s.engine ≠ .started ∨ ∃ why, decode s.cmd = .error why) → s.host = .reset after :: rest →
      ∃ t, step s = .next t ∧ AtReset t ∧ t.target = s.target ∧ t.trace = s.trace ∧ t.params = s.params ∧
        t.desc = {} ∧ t.host = rest) ∧
    ∀ (s t : State) (i : Instr) (after : Nat) (rest : List HostMove) (evs : List BusEvent), s.engine = .started →
      s.host = .reset after :: rest → decode s.cmd = .ok i → exec i { s with host := rest } = .next t →
      t.trace = s.trace ++ evs →
        ∃ u, step s = .next u ∧ AtReset u ∧ u.target = s.target.replay (evs.take after) ∧
          u.trace = s.trace ++ evs.take after ∧ u.params = s.params ∧ u.desc = {} ∧ u.host = rest

/-- R117, R118: a step of a poll is one read of its status register: the command completes if the bit is as awaited,
and stays in the poll otherwise. -/
def Obligations.PollReadsOnce : Prop :=
  ∀ (s : State) (p : Poll), s.engine = .polling p →
    (s.host = [] → step s = .next (pollAfter s [] p)) ∧
      ∀ rest, s.host = .wait :: rest → step s = .next (pollAfter { s with host := rest } [] p)

/-- R262, R285: a poll whose awaited value never comes is never left, however many steps run and whatever the host
writes: `BUSY` stays 1, the port and the node table keep their values, and the bus sees reads of the status register
alone. That a host write of `DESC` changes nothing while `BUSY = 1` is assumption 11 (DEDUCED). -/
def Obligations.UnansweredPollNeverReturns : Prop :=
  ∀ (n : Nat) (s : State) (p : Poll), s.engine = .polling p → (∀ m ∈ s.host, ∀ k, m ≠ .reset k) →
    (∀ k ≤ n, ¬(((readsLater s.target k).answer p.addr &&& p.mask ≠ 0) ↔ p.awaited = true)) →
      ∃ t, core.run n s = .next t ∧ t.engine = .polling p ∧ t.busy = true ∧ t.status = s.status ∧ t.r0 = s.r0 ∧
        t.r1 = s.r1 ∧ t.cmd = s.cmd ∧ t.a0 = s.a0 ∧ t.a1 = s.a1 ∧ t.a2 = s.a2 ∧ t.a3 = s.a3 ∧ t.desc = s.desc ∧
        t.nt = s.nt ∧ ∃ evs, t.trace = s.trace ++ evs ∧ ∀ e ∈ evs, ∃ v, e = .read p.addr v

/-- R64: with the named premise that the target answers the poll with the awaited value within `n` reads, the command
ends, with `STATUS = 0`, within `n` steps. -/
def Obligations.AnsweredPollReturns : Prop :=
  ∀ (n : Nat) (s : State) (p : Poll), s.engine = .polling p → s.host = [] →
    (∃ k < n, ((readsLater s.target k).answer p.addr &&& p.mask ≠ 0) ↔ p.awaited = true) →
      ∃ m ≤ n, ∃ t, core.run m s = .next t ∧ t.busy = false ∧ t.status = 0 ∧ t.r0 = p.next.r0 ∧ t.r1 = p.next.r1

/-! ## Invariants and whole-machine rules -/

/-- The three invariants hold after reset. -/
def Obligations.ResetMeetsInvariants : Prop :=
  State.reset.nodesOk = true ∧ State.reset.storageOk = true ∧ State.reset.portOk = true

/-- R28, R31, R232, R240: the node table stays as registration made it: every entry satisfies the checks of R232
against the entries registered before it, and its parent is one its mux table lists. -/
def Obligations.StepKeepsNodeTable : Prop :=
  ∀ s t : State, s.nodesOk = true → step s = .next t → t.nodesOk = true

/-- The canonical form of the target's storage is kept. -/
def Obligations.StepKeepsStorageCanonical : Prop :=
  ∀ s t : State, s.storageOk = true → step s = .next t → t.storageOk = true

/-- R21, R94: `STATUS` is one of the six codes, and `R0 = R1 = 0` while `BUSY = 1`. -/
def Obligations.StepKeepsPort : Prop :=
  ∀ s t : State, s.portOk = true → step s = .next t → t.portOk = true

/-- From a state with a well-formed node table the machine goes on: no fault and no refusal (R240, R176). -/
def Obligations.StepNeverStops : Prop :=
  ∀ s : State, s.nodesOk = true → StepGoesOn s

/-- Whatever the host does from reset, and whatever target it does it to, no step of the run stops. -/
def Obligations.RunFromResetGoesOn : Prop :=
  ∀ (n : Nat) (target : Target) (params : Params) (host : List HostMove),
    GoesOn n { State.reset with target := target, params := params, host := host }

/-- R7, R20, R21, R35: no step changes a parameter or the variant's register map; no command writes `CMD`, `A0` to `A3`
or `DESC`, nor uses up a move of the host. -/
def Obligations.InputsAndParametersKept : Prop :=
  (∀ s t : State, step s = .next t → t.params = s.params ∧ t.target.map = s.target.map) ∧
    ∀ (i : Instr) (s t : State), exec i s = .next t →
      t.cmd = s.cmd ∧ t.a0 = s.a0 ∧ t.a1 = s.a1 ∧ t.a2 = s.a2 ∧ t.a3 = s.a3 ∧ t.desc = s.desc ∧
        t.params = s.params ∧ t.host = s.host

/-- R65: what a command does to the target is what its bus accesses do, in order, and every read among them carries the
target's answer at that moment. -/
def Obligations.CommandTraceExplainsTarget : Prop :=
  ∀ (i : Instr) (s t : State), exec i s = .next t →
    ∃ evs, t.trace = s.trace ++ evs ∧ t.target = s.target.replay evs ∧ Explained s.target evs

/-- The frame of memory, for every command: a byte changes only if a bus write of the command goes to its word. Of a
write to an address without a register, whose effect R59 leaves unspecified, this is assumption 18 (DESIGN CHOICE). -/
def Obligations.BytesChangeOnlyWhereWritten : Prop :=
  ∀ (i : Instr) (s t : State), exec i s = .next t →
    ∀ b : Nat, (∀ e ∈ t.trace.drop s.trace.length, writesByte b e = false) →
      t.target.mem.readByte b = s.target.mem.readByte b

/-- R20, R35: a step, unless the host resets the engine, leaves the table's configuration as it was or adds one entry;
a command changes the entry of no other node than its own. -/
def Obligations.ConfigurationImmutable : Prop :=
  (∀ s t : State, step s = .next t →
      (∃ after rest, s.host = .reset after :: rest) ∨ t.nt.map fixedEntry = s.nt.map fixedEntry ∨
        ∃ e, t.nt = e :: s.nt) ∧
    ∀ (i : Instr) (s t : State), exec i s = .next t →
      (t.nt.map fixedEntry = s.nt.map fixedEntry ∧
          ∀ id, id ≠ i.node → t.nt.lookup id = s.nt.lookup id) ∨
        (i = .nodeRegister 0 ∧ ∃ e, e.id = s.desc.id ∧ t.nt = e :: s.nt)

/-- R252: a command that ends with an error changes `STATUS` and `BUSY` and nothing else: `NT`, `R0` and `R1` are as
before it, and the only bus writes among its accesses are select words (the ID in its field, every other bit 0) of a
registered `GCK` or of the `GCK` being registered (R232). That a failed command may have issued the former, those of a
rate query (R197, R240), is assumption 13 (DEDUCED): R253 by its letter excepts only the latter. -/
def Obligations.FailedCommandChangesNothing : Prop :=
  ∀ (i : Instr) (s t : State), exec i s = .next t → t.busy = false → t.status ≠ 0 →
    ∃ evs, t = failedWith (afterEvents s evs) t.status ∧
      ∀ e ∈ evs, isWrite e = true →
        (∃ entry ∈ s.nt, ∃ n, entry.data = .gck n ∧ isSelectOf n.port e = true) ∨
          ∃ n, s.desc.accept s.params s.nt = some (.gck n) ∧ isSelectOf n.port e = true

/-! ## Commands that are turned away -/

/-- R242: the prologue of every kind-specific command. -/
def Obligations.PrologueRejects : Prop :=
  ∀ (s : State) (k : NodeKind) (node : ClockId) (i : Instr), i ∈ kindCommands k node →
    (wellFormedId node = false ∨ s.nt.lookup node = none ∨
        ∃ e, s.nt.lookup node = some e ∧ e.data.kind ≠ k) →
      exec i s = .next (failedWith s 1)

/-- R244 and the rules of the eleven refused commands: each runs its prologue, then raises `UnsupportedOnVariant`,
without a bus access or a change of state. -/
def Obligations.RefusedCommands : Prop :=
  ∀ (s : State) (node : ClockId),
    (refusedCommands node).map (fun x => (opcodeOf x.2).toNat) =
        [0x34, 0x44, 0x53, 0x73, 0x74, 0x80, 0x81, 0x90, 0x91, 0x93, 0x94] ∧
      ∀ k i, (k, i) ∈ refusedCommands node →
        i.node = node ∧
        ((wellFormedId node = false ∨ s.nt.lookup node = none ∨
            ∃ e, s.nt.lookup node = some e ∧ e.data.kind ≠ k) → exec i s = .next (failedWith s 1)) ∧
        ∀ flags d, Registered s node flags d → d.kind = k → exec i s = .next (failedWith s 5)

/-- R243: a `DISABLE` on a critical node of a kind that can be disabled does nothing and succeeds. -/
def Obligations.CriticalDisableDoesNothing : Prop :=
  ∀ (s : State) (node : ClockId) (flags : NodeFlags) (d : NodeData), Registered s node flags d →
    flags.critical = true → d.kind ∈ [NodeKind.fpll, .dpll, .mck, .gck, .peri] →
      ∀ i ∈ [disableOf d.kind node, .disable node], exec i s = .next (succeeded s 0 0)

/-- R241: a dispatch command is the command of the same function in the unit of the node's own kind, and
`InvalidArgument` for a malformed or unregistered id. -/
def Obligations.DispatchRunsKindsCommand : Prop :=
  (∀ (node : ClockId) (k : NodeKind),
      [Instr.enable node, .disable node, .getRate node, .setRate node, .setParent node].map
          (fun i => (opcodeOf i).toNat) = [0xF0, 0xF1, 0xF2, 0xF3, 0xF4] ∧
        (kindCommands k node).map (fun i => (opcodeOf i).toNat) =
          [k.code * 16, k.code * 16 + 1, k.code * 16 + 2, k.code * 16 + 3, k.code * 16 + 4]) ∧
    (∀ (s : State) (node : ClockId), (wellFormedId node = false ∨ s.nt.lookup node = none) →
      ∀ i ∈ [Instr.enable node, .disable node, .getRate node, .setRate node, .setParent node],
        exec i s = .next (failedWith s 1)) ∧
    ∀ (s : State) (node : ClockId) (flags : NodeFlags) (d : NodeData), Registered s node flags d →
      exec (.enable node) s = exec (enableOf d.kind node) s ∧
        exec (.disable node) s = exec (disableOf d.kind node) s ∧
        exec (.getRate node) s = exec (getRateOf d.kind node) s ∧
        exec (.setRate node) s = exec (setRateOf d.kind node) s ∧
        exec (.setParent node) s = exec (setParentOf d.kind node) s

/-! ## Arithmetic -/

/-- R10: the arithmetic functions. `round` is within half a unit, a tie up; `clog2` is the least exponent. -/
def Obligations.ArithmeticFunctions : Prop :=
  ∀ a b : Nat, 0 < b →
    roundDiv a b = (2 * a + b) / (2 * b) ∧ 2 * (roundDiv a b * b) ≤ 2 * a + b ∧
      2 * a < 2 * (roundDiv a b * b) + b ∧
      a ≤ b * 2 ^ clog2 a b ∧ (∀ s, a ≤ b * 2 ^ s → clog2 a b ≤ s) ∧ (a ≤ b → clog2 a b = 0) ∧
      rdiv .floor a b = a / b ∧ rdiv .nearest a b = roundDiv a b ∧ absDiff a b = max a b - min a b

/-- R11: the range test, both bounds inclusive, each unconstrained on its own when zero. -/
def Obligations.RangeTest : Prop :=
  ∀ (r : ClockRange) (v : Nat),
    inRange r v = true ↔ (r.min = 0 ∨ v ≥ r.min) ∧ (r.max = 0 ∨ v ≤ r.max)

/-- R141, R149: the fractional PLL's setting, and that the achieved rate is within one quantisation step of the
target. -/
def Obligations.FracPllQuantisation : Prop :=
  ∀ parentRate target : Nat, 0 < parentRate →
    let c := fpllCompute parentRate target
    c.mul = target / parentRate ∧
      c.frac = ((target % parentRate) * 2 ^ 22 * 2 + parentRate) / (2 * parentRate) ∧ c.frac ≤ 2 ^ 22 ∧
      c.achieved = parentRate * c.mul + (2 * (parentRate * c.frac) + 2 ^ 22) / 2 ^ 23 ∧
      2 ^ 23 * absDiff c.achieved target ≤ parentRate + 2 ^ 22 ∧
      (parentRate < 2 ^ 22 → c.achieved = target) ∧
      (2 ^ 22 ≤ parentRate → 2 ^ 22 * absDiff c.achieved target ≤ parentRate)

/-- R163: the bound that does hold for the divider PLL, for both values of `RDIV`. -/
def Obligations.DivPllErrorBound : Prop :=
  ∀ (mode : RoundMode) (parentRate target : Nat), 0 < target →
    let q := roundDiv parentRate target
    0 < q → absDiff (rdiv mode parentRate q) target * (2 * q) < target + 2 * q

/-- R193, R194: the generic clock's search, early exits included, finds the nearest rate over all its parents and the
divisors 1 to 256; ties go to the earliest parent, then to the smallest divisor; no rate exceeds its parent's. -/
def Obligations.GckSearchFindsNearest : Prop :=
  ∀ (mode : RoundMode) (target : Nat) (ps : List (ClockId × Nat)), 0 < target → ps ≠ [] →
    (∀ pr d : Nat, 1 ≤ d → rdiv mode pr (d + 1) ≤ rdiv mode pr d) ∧
    ∃ b p before after, bestOf mode target ps = some b ∧ ps = before ++ p :: after ∧ b.pid = p.1 ∧
      1 ≤ b.div ∧ b.div ≤ 256 ∧ b.rate = rdiv mode p.2 b.div ∧ b.rate ≤ p.2 ∧
      b.diff = absDiff target b.rate ∧
      (∀ p' ∈ before, ∀ d, 1 ≤ d → d ≤ 256 → b.diff < absDiff target (rdiv mode p'.2 d)) ∧
      (∀ d, 1 ≤ d → d < b.div → b.diff < absDiff target (rdiv mode p.2 d)) ∧
      ∀ p' ∈ p :: after, ∀ d, 1 ≤ d → d ≤ 256 → b.diff ≤ absDiff target (rdiv mode p'.2 d)

/-- R217: the programmable clock encodes exactly the rates that divide the parent's exactly. -/
def Obligations.ProgComputeExact : Prop :=
  ∀ parentRate target pmax v : Nat, 0 < target →
    (progCompute .direct parentRate target pmax = some v ↔
        parentRate = (v + 1) * target ∧ v + 1 ≤ 256 ∧ v ≤ pmax) ∧
      (progCompute .pow2 parentRate target pmax = some v ↔ parentRate = target * 2 ^ v ∧ v ≤ pmax)

/-! ## Operand forms -/

/-- R133: the two directions of the mux translator undo one another. -/
def Obligations.MuxRoundTrip : Prop :=
  ∀ t : MuxTable, t.sel.length = t.pid.length → t.sel.Nodup → t.pid.Nodup →
    (∀ (i : Nat) (pid : ClockId), t.pid[i]? = some pid → (t.p2s pid).bind t.s2i = some i) ∧
      ∀ (i : Nat) (code : Nat), t.sel[i]? = some code →
        ((t.s2i code).bind (fun j => t.pid[j]?)).bind t.p2s = some code

/-- R90, R91: a value that fits a field and is placed by an update is what the field then reads as, every bit outside
the field is preserved, and every extracted value fits the field. -/
def Obligations.FieldReadsBack : Prop :=
  ∀ (f : FieldDesc) (v : Nat) (r : Word), f.ok = true → v ≤ f.fmax →
    f.fmax = 2 ^ f.width - 1 ∧ f.extract ((r &&& ~~~ f.mask) ||| (f.place v &&& f.mask)) = v ∧
      ((r &&& ~~~ f.mask) ||| (f.place v &&& f.mask)) &&& ~~~ f.mask = r &&& ~~~ f.mask ∧ f.extract r ≤ f.fmax

/-- R116: fields that share a register cost one read, registers are taken in order of first appearance, and fields that
share a register are written together. -/
def Obligations.FieldsGroupedByRegister : Prop :=
  (∀ (f : FieldDesc) (fs : List FieldDesc),
      distinctOffs [] = [] ∧ distinctOffs (f :: fs) = f.off :: (distinctOffs fs).filter (fun o => o != f.off)) ∧
    (∀ (s : State) (base : Word) (fs : List FieldDesc),
      s.fieldsGet base fs = afterEvents s (readEvents s [] base (distinctOffs fs)) ∧
        ∀ f ∈ fs, f.getFrom (s.fieldsValue base fs) =
          fieldIn (readEvents s [] base (distinctOffs fs)) base f) ∧
    (∀ (s : State) (base : Word) (fvs : List (FieldDesc × Nat)),
      s.fieldsSet base fvs = afterEvents s (updateAllEvents s [] base fvs)) ∧
    ∀ (o : Word) (fvs : List (FieldDesc × Nat)) (b : Nat),
      ((maskAt o fvs).getLsbD b = true ↔ ∃ fv ∈ fvs, fv.1.off = o ∧ fv.1.mask.getLsbD b = true) ∧
        ((bitsAt o fvs).getLsbD b = true ↔ ∃ fv ∈ fvs, fv.1.off = o ∧ (fv.1.place fv.2).getLsbD b = true)

/-! ## The register target -/

/-- R34, R59 to R62, U1: storage bits read what was last written to them and a write touches no other register's
storage; every other bit, and every bit of an address without a register, is a draw; after a write to such an address
every answer is a draw. And the latching of R34: a write takes into use the registers that the strobes it sets commit,
itself where the map says so, and no other. That a read returns the value written, strobed or not, is the spec's
assumption (R60, U5; assumption 16, DEDUCED); what a strobe commits and what is taken into use without one is the map's
(assumption 17, DESIGN CHOICE). -/
def Obligations.PlainRegisterReadsBack : Prop :=
  ∀ (t : Target) (a v storage : Word), t.havoc = false → a.toNat % 4 = 0 →
    (t.regAt a = some (.plain storage) →
      (t.afterWrite a v).answer a &&& storage = v &&& storage ∧
        t.answer a &&& ~~~ storage = t.nextDraw &&& ~~~ storage ∧
        ∀ b other, t.regAt b = some (.plain other) → b.toNat % 4 = 0 → b ≠ a →
          (t.afterWrite a v).answer b &&& other = t.answer b &&& other) ∧
      (∀ r, t.specAt a = some r → r.kind = .plain storage →
        (∀ st ∈ r.strobes, ∀ c ∈ st.commits, c.toNat % 4 = 0) →
          ∀ c : Word, c.toNat % 4 = 0 →
            ((r.direct = true ∧ c = a ∨ ∃ st ∈ r.strobes, v &&& st.mask ≠ 0 ∧ c ∈ st.commits) →
              (t.afterWrite a v).latched.inUseWord c = (t.afterWrite a v).mem.readWord c) ∧
            (¬(r.direct = true ∧ c = a) → (∀ st ∈ r.strobes, v &&& st.mask ≠ 0 → c ∉ st.commits) →
              (t.afterWrite a v).latched.inUseWord c = t.latched.inUseWord c)) ∧
      (t.regAt a = none → t.answer a = t.nextDraw ∧ ∀ b, (t.afterWrite a v).answer b = t.nextDraw)

/-- R63: the shared command register. A write with the strobe 0 selects its ID and a following read returns that ID and
its configuration; a write with the strobe 1 applies its configuration fields to its ID and to no other. -/
def Obligations.SharedRegisterSelects : Prop :=
  ∀ (t : Target) (a v idsel strobe config : Word), t.havoc = false →
    t.regAt a = some (.shared idsel strobe config) → idsel &&& config = 0 →
      (v &&& strobe = 0 →
        (t.afterWrite a v).answer a &&& idsel = v &&& idsel ∧
          (t.afterWrite a v).answer a &&& config = t.configOf a (v &&& idsel) &&& config) ∧
      (v &&& strobe ≠ 0 → ∀ u, u &&& strobe = 0 →
        (u &&& idsel = v &&& idsel →
          ((t.afterWrite a v).afterWrite a u).answer a &&& config = v &&& config) ∧
        (u &&& idsel ≠ v &&& idsel →
          ((t.afterWrite a v).afterWrite a u).answer a &&& config = (t.afterWrite a u).answer a &&& config))

/-! ## Rates -/

/-- R240: the rate of a node is its kind's readback of its parent's rate, the parent's accesses first; an oscillator,
which has no parent, ends the recursion. And that rate is what the node's `GET_RATE` answers: the same accesses, the
rate in `R0`, the same error. The lookup of a parent among earlier entries is assumption 8 (DEDUCED); that the accesses
include the select of a generic clock on the path, on an error too (R197), is assumption 13 (DEDUCED). -/
def Obligations.RateFollowsTheTable : Prop :=
  ∀ (s : State) (id : ClockId) (e : NodeEntry), s.nt.ok = true → s.nt.lookup id = some e →
    s.rate id =
        (match e.data.parent? with
        | none => readback e.data 0 s
        | some p =>
          match s.rate p with
          | (s₁, .ok r) => readback e.data r s₁
          | (s₁, .error x) => (s₁, .error x)) ∧
      ∀ i ∈ [getRateOf e.data.kind id, .getRate id],
        (∀ s₁ r, s.rate id = (s₁, .ok r) → exec i s = .next (succeeded s₁ (BitVec.ofNat 64 r) 0)) ∧
          ∀ s₁ x, s.rate id = (s₁, .error (.raised x)) → exec i s = .next (failedWith s₁ x.code)

/-- R240, R257 (e), R266: the rate of a registered node is a number below `2^64`, or the query ends with `OutOfRange`;
either way the query leaves nothing changed but what its bus accesses do. That these include the selects of generic
clocks on the path, on an error too (R197), is assumption 13 (DEDUCED). -/
def Obligations.RateAlwaysAnswers : Prop :=
  ∀ (s : State) (id : ClockId) (e : NodeEntry), s.nt.ok = true → s.nt.lookup id = some e →
    ∃ evs, Explained s.target evs ∧
      ((∃ r, s.rate id = (afterEvents s evs, .ok r) ∧ r < 2 ^ 64) ∨
        s.rate id = (afterEvents s evs, .error (.raised .outOfRange)))

/-- R266: an error of a rate query is raised by the command that made it, with the same code; the reads already issued
stay. That the selects of generic clocks on its path (R197, R240) stay too is assumption 13 (DEDUCED): R253 by its letter
has no write in a failed command. -/
def Obligations.RateErrorEndsCommand : Prop :=
  (∀ (s s₁ : State) (node : ClockId) (flags : NodeFlags) (d : NodeData) (p : ClockId) (e : CmdError),
      Registered s node flags d → d.parent? = some p → s.rate p = (s₁, .error (.raised e)) →
        (∀ i ∈ [getRateOf d.kind node, .getRate node], exec i s = .next (failedWith s₁ e.code)) ∧
        (s.a0 ≠ 0 →
          (∀ n, d = .fpll n → inRange n.range s.a0.toNat = true →
            ∀ i ∈ [Instr.fpllSetRate node, .setRate node], exec i s = .next (failedWith s₁ e.code)) ∧
          (∀ n, d = .dpll n →
            ∀ i ∈ [Instr.dpllSetRate node, .setRate node], exec i s = .next (failedWith s₁ e.code)) ∧
          ∀ n, d = .prog n → inRange n.range s.a0.toNat = true →
            ∀ i ∈ [Instr.progSetRate node, .setRate node], exec i s = .next (failedWith s₁ e.code))) ∧
    ∀ (s s₀ s₁ : State) (node : ClockId) (flags : NodeFlags) (n : GckNode) (before after : List ClockId)
      (p : ClockId) (ps : List (ClockId × Nat)) (e : CmdError),
      Registered s node flags (.gck n) → s.a0 ≠ 0 → inRange n.range s.a0.toNat = true →
      n.extraParents = before ++ p :: after → ratesOf before s = some (ps, s₀) →
      s₀.rate p = (s₁, .error (.raised e)) →
        ∀ i ∈ [Instr.gckSetRate node, .setRate node], exec i s = .next (failedWith s₁ e.code)

/-- R147, R166: what `GET_RATE` of the two PLL kinds reads and returns, once the parent's rate is known. The state `s₁`
holds the parent query's accesses; that these include the selects of generic clocks on its path (R197, R240), also when
the command ends with an error, is assumption 13 (DEDUCED): R147 and R166 say that they write nothing, R253 that a failed
command does not. -/
def Obligations.PllGetRate : Prop :=
  ∀ (s s₁ : State) (node : ClockId) (flags : NodeFlags) (r : Nat),
    (∀ n, Registered s node flags (.fpll n) → s.rate n.parent = (s₁, .ok r) →
      let evs := readEvents s₁ [] n.base (distinctOffs [n.mul, n.frac])
      let rate := r * fieldIn evs n.base n.mul + roundDiv (r * fieldIn evs n.base n.frac) (2 ^ 22)
      ∀ i ∈ [Instr.fpllGetRate node, .getRate node],
        exec i s = .next
          (if rate ≥ 2 ^ 64 then failedWith (afterEvents s₁ evs) 4
          else succeeded (afterEvents s₁ evs) (BitVec.ofNat 64 rate) 0)) ∧
    ∀ n, Registered s node flags (.dpll n) → s.rate n.parent = (s₁, .ok r) →
      let evs := readEvents s₁ [] n.base [n.div.off]
      ∀ i ∈ [Instr.dpllGetRate node, .getRate node],
        exec i s = .next
          (succeeded (afterEvents s₁ evs)
            (BitVec.ofNat 64 (rdiv s₁.params.rdiv r (fieldIn evs n.base n.div + 1))) 0)

/-- R176, R197, R201, R220, R235: what `GET_RATE` of the other kinds reads and returns, once the parent's rate is known.
The state `s₁` holds the parent query's accesses; that these include the selects of generic clocks on its path (R197,
R240) is assumption 13 (DEDUCED): R176 and R220 say that they write nothing. -/
def Obligations.ClockGetRate : Prop :=
  ∀ (s s₁ : State) (node : ClockId) (flags : NodeFlags) (r : Nat),
    (∀ n, Registered s node flags (.mck n) → s.rate n.parent = (s₁, .ok r) →
      let evs := readEvents s₁ [] n.base (distinctOffs [n.pres, n.mdiv])
      let p := fieldIn evs n.base n.pres
      ∀ d, n.divtab[fieldIn evs n.base n.mdiv]? = some d → 1 ≤ d →
      ∀ i ∈ [Instr.mckGetRate node, .getRate node],
        exec i s = .next
          (succeeded (afterEvents s₁ evs)
            (BitVec.ofNat 64 (rdiv s₁.params.rdiv
              (rdiv s₁.params.rdiv r (if n.pres3 = some p then 3 else 2 ^ p)) d)) 0)) ∧
    (∀ n, Registered s node flags (.gck n) → s.rate n.parent = (s₁, .ok r) →
      let c := busAddr n.port.base n.port.idsel.off
      let select := BusEvent.write c (n.port.idsel.place n.port.hwId)
      let v := readAfter s₁ [select] c
      ∀ i ∈ [Instr.gckGetRate node, .getRate node],
        exec i s = .next
          (succeeded (afterEvents s₁ [select, .read c v])
            (BitVec.ofNat 64 (rdiv s₁.params.rdiv r (n.div.extract v + 1))) 0)) ∧
    (∀ n, Registered s node flags (.peri n) → s.rate n.parent = (s₁, .ok r) →
      ∀ i ∈ [Instr.periGetRate node, .getRate node],
        exec i s = .next (succeeded s₁ (BitVec.ofNat 64 r) 0)) ∧
    (∀ n, Registered s node flags (.prog n) → s.rate n.parent = (s₁, .ok r) →
      let evs := readEvents s₁ [] n.base [n.pres.off]
      let v := fieldIn evs n.base n.pres
      ∀ i ∈ [Instr.progGetRate node, .getRate node],
        exec i s = .next
          (succeeded (afterEvents s₁ evs)
            (BitVec.ofNat 64 (if n.mode = .direct then rdiv s₁.params.rdiv r (v + 1) else r >>> v)) 0)) ∧
    ∀ n, Registered s node flags (.osc n) →
      ∀ i ∈ [Instr.oscGetRate node, .getRate node],
        exec i s = .next (succeeded s (BitVec.ofNat 64 n.fixedRate) 0)

/-! ## Register access commands -/

/-- R110, R113: `REG.READ`, for every state and operands; an address with no register behind it answers a draw. -/
def Obligations.RegReadResult : Prop :=
  ∀ s : State,
    let a := s.a0.setWidth 32 + s.a1.setWidth 32
    let v := s.target.answer a
    encode (.regRead 0) = 0x01 ∧ (s.target.regAt a = none → v = s.target.nextDraw) ∧ exec (.regRead 0) s = .next
      (if s.a0.toNat ≥ 2 ^ 32 ∨ s.a1.toNat ≥ 2 ^ 32 ∨ (s.a0.toNat + s.a1.toNat) % 4 ≠ 0 then failedWith s 1
      else succeeded (afterEvents s [.read a v]) (v.setWidth 64) 0)

/-- R111, R114: `REG.WRITE`, for every state and operands; every byte outside the word written reads as before. Of an
address without a register (R59) the last clause is assumption 18 (DESIGN CHOICE). -/
def Obligations.RegWriteResult : Prop :=
  ∀ s : State,
    let a := s.a0.setWidth 32 + s.a1.setWidth 32
    encode (.regWrite 0) = 0x02 ∧ exec (.regWrite 0) s = .next
      (if s.a0.toNat ≥ 2 ^ 32 ∨ s.a1.toNat ≥ 2 ^ 32 ∨ s.a2.toNat ≥ 2 ^ 32 ∨
          (s.a0.toNat + s.a1.toNat) % 4 ≠ 0 then failedWith s 1
      else succeeded (afterEvents s [.write a (s.a2.setWidth 32)]) 0 0) ∧
    ∀ (t : State) (b : Nat), exec (.regWrite 0) s = .next t → ¬(a.toNat ≤ b ∧ b < a.toNat + 4) →
      t.target.mem.readByte b = s.target.mem.readByte b

/-- R112, R115: `REG.UPDATE`, for every state and operands; every byte outside the word written reads as before. Of an
address without a register (R59) the last clause is assumption 18 (DESIGN CHOICE). -/
def Obligations.RegUpdateResult : Prop :=
  ∀ s : State,
    let a := s.a0.setWidth 32 + s.a1.setWidth 32
    let old := s.target.answer a
    let mask := s.a2.setWidth 32
    encode (.regUpdate 0) = 0x03 ∧ exec (.regUpdate 0) s = .next
      (if s.a0.toNat ≥ 2 ^ 32 ∨ s.a1.toNat ≥ 2 ^ 32 ∨ s.a2.toNat ≥ 2 ^ 32 ∨ s.a3.toNat ≥ 2 ^ 32 ∨
          (s.a0.toNat + s.a1.toNat) % 4 ≠ 0 then failedWith s 1
      else succeeded
        (afterEvents s [.read a old, .write a ((old &&& ~~~ mask) ||| (s.a3.setWidth 32 &&& mask))]) 0 0) ∧
    ∀ (t : State) (b : Nat), exec (.regUpdate 0) s = .next t → ¬(a.toNat ≤ b ∧ b < a.toNat + 4) →
      t.target.mem.readByte b = s.target.mem.readByte b

/-! ## Mux translator, node table -/

/-- R131, R132, R256: the two mux commands: the first match in ascending index order, or the miss; no bus access and no
state change. That a malformed `node` is `InvalidArgument` here (R88, R254 (b)) is assumption 15 (DEDUCED). -/
def Obligations.MuxCommands : Prop :=
  (∀ (s : State) (node : ClockId) (flags : NodeFlags) (d : NodeData) (t : MuxTable) (pid : ClockId),
      Registered s node flags d → d.table? = some t → s.a0 = pid.setWidth 64 → wellFormedId pid = true →
        (∀ (i sel : Nat), t.pid[i]? = some pid → (∀ j < i, t.pid[j]? ≠ some pid) → t.sel[i]? = some sel →
          exec (.muxP2s node) s = .next (succeeded s (BitVec.ofNat 64 sel) 0)) ∧
        (pid ∉ t.pid → exec (.muxP2s node) s = .next (failedWith s 2))) ∧
    (∀ (s : State) (node : ClockId) (flags : NodeFlags) (d : NodeData) (t : MuxTable),
      Registered s node flags d → d.table? = some t → s.a0.toNat < 2 ^ 32 →
        (∀ i : Nat, t.sel[i]? = some s.a0.toNat → (∀ j < i, t.sel[j]? ≠ some s.a0.toNat) →
          exec (.muxS2i node) s = .next (succeeded s (BitVec.ofNat 64 i) 0)) ∧
        (s.a0.toNat ∉ t.sel → exec (.muxS2i node) s = .next (failedWith s 3))) ∧
    ∀ (s : State) (node : ClockId),
      (wellFormedId node = false ∨ s.nt.lookup node = none ∨
          (∃ e, s.nt.lookup node = some e ∧ e.data.table? = none) →
        exec (.muxP2s node) s = .next (failedWith s 1) ∧ exec (.muxS2i node) s = .next (failedWith s 1)) ∧
      (s.a0.toNat ≥ 2 ^ 16 ∨ wellFormedId (s.a0.setWidth 16) = false →
        exec (.muxP2s node) s = .next (failedWith s 1)) ∧
      (s.a0.toNat ≥ 2 ^ 32 → exec (.muxS2i node) s = .next (failedWith s 1))

/-- R233: `NODE.RESOLVE`, for every state and id. -/
def Obligations.NodeResolveResult : Prop :=
  ∀ (s : State) (node : ClockId),
    encode (.nodeResolve node) = (node.setWidth 32 <<< 8) ||| 0x21 ∧
    (wellFormedId node = false ∨ s.nt.lookup node = none →
      exec (.nodeResolve node) s = .next (failedWith s 1)) ∧
    ∀ flags d, Registered s node flags d →
      exec (.nodeResolve node) s = .next
        (succeeded s (BitVec.ofNat 64 d.kind.code)
          (match d.parent? with
          | none => 0
          | some p => BitVec.ofNat 64 (2 ^ 16 + p.toNat)))

/-- R35, R38, R231, R232: `NODE.REGISTER` of a description that meets the static checks: what it reads from the hardware,
and the entry it adds, which carries what the description gives for its kind, unchanged, with the parent and the
`pll_state` that the hardware shows. -/
def Obligations.NodeRegisterAddsEntry : Prop :=
  ∀ (s : State) (d : NodeData), Carries s.desc d → StaticChecks s d →
    let add (evs : List BusEvent) (d' : NodeData) : State :=
      succeeded
        { afterEvents s evs with nt := { id := s.desc.id, flags := s.desc.flags, data := d' } :: s.nt }
        (s.desc.id.setWidth 64) 0
    (∀ n, d = .osc n → exec (.nodeRegister 0) s = .next (add [] d)) ∧
    (∀ n, d = .peri n → exec (.nodeRegister 0) s = .next (add [] d)) ∧
    (∀ n, d = .fpll n →
      let a := busAddr n.base n.ready.off
      let v := s.target.answer a
      exec (.nodeRegister 0) s = .next
        (add [.read a v] (.fpll { n with pll := if v &&& n.ready.mask ≠ 0 then .locked else .disabled }))) ∧
    (∀ n, d = .dpll n →
      let a := busAddr n.base n.ready.off
      let v := s.target.answer a
      exec (.nodeRegister 0) s = .next
        (add [.read a v] (.dpll { n with pll := if v &&& n.ready.mask ≠ 0 then .locked else .disabled }))) ∧
    (∀ n, d = .mck n →
      let evs := readEvents s [] n.base [n.mux.off]
      ∀ (i : Nat) (p : ClockId), n.table.s2i (fieldIn evs n.base n.mux) = some i → n.table.pid[i]? = some p →
        exec (.nodeRegister 0) s = .next (add evs (.mck { n with parent := p }))) ∧
    (∀ n, d = .gck n →
      let c := busAddr n.port.base n.port.idsel.off
      let select := BusEvent.write c (n.port.idsel.place n.port.hwId)
      let v := readAfter s [select] c
      ∀ (i : Nat) (p : ClockId), n.table.s2i (n.mux.extract v) = some i → n.table.pid[i]? = some p →
        exec (.nodeRegister 0) s = .next (add [select, .read c v] (.gck { n with parent := p }))) ∧
    ∀ n, d = .prog n →
      let fields := match n.ext with
        | none => [n.mux]
        | some ext => [n.mux, ext]
      let evs := readEvents s [] n.base (distinctOffs fields)
      let code := match n.ext with
        | none => fieldIn evs n.base n.mux
        | some ext => fieldIn evs n.base n.mux ||| (fieldIn evs n.base ext <<< n.mux.width)
      ∀ (i : Nat) (p : ClockId), n.table.s2i code = some i → n.table.pid[i]? = some p →
        exec (.nodeRegister 0) s = .next (add evs (.prog { n with parent := p }))

/-- R88, R232, R254 (k), R256: a description is admitted exactly when it meets the static checks, and then the node it
stands for carries it; any other ends with `InvalidArgument` before the first bus access; a select code that is not in
the table ends with `UnknownSelect` and no entry. That no other check is made is assumption 14 (DEDUCED). -/
def Obligations.NodeRegisterChecks : Prop :=
  (∀ s : State, (∀ d, Carries s.desc d → ¬StaticChecks s d) →
      exec (.nodeRegister 0) s = .next (failedWith s 1)) ∧
    (∀ (s : State) (d : NodeData),
      (s.desc.accept s.params s.nt = some d → Carries s.desc d ∧ StaticChecks s d ∧ d = fixedPart d) ∧
        (Carries s.desc d → StaticChecks s d → s.desc.accept s.params s.nt = some (fixedPart d))) ∧
    ∀ (s : State) (d : NodeData), Carries s.desc d → StaticChecks s d →
      (∀ n, d = .mck n →
        let evs := readEvents s [] n.base [n.mux.off]
        fieldIn evs n.base n.mux ∉ n.table.sel →
          exec (.nodeRegister 0) s = .next (failedWith (afterEvents s evs) 3)) ∧
      (∀ n, d = .gck n →
        let c := busAddr n.port.base n.port.idsel.off
        let select := BusEvent.write c (n.port.idsel.place n.port.hwId)
        let v := readAfter s [select] c
        n.mux.extract v ∉ n.table.sel →
          exec (.nodeRegister 0) s = .next (failedWith (afterEvents s [select, .read c v]) 3)) ∧
      ∀ n, d = .prog n →
        let fields := match n.ext with
          | none => [n.mux]
          | some ext => [n.mux, ext]
        let evs := readEvents s [] n.base (distinctOffs fields)
        let code := match n.ext with
          | none => fieldIn evs n.base n.mux
          | some ext => fieldIn evs n.base n.mux ||| (fieldIn evs n.base ext <<< n.mux.width)
        code ∉ n.table.sel → exec (.nodeRegister 0) s = .next (failedWith (afterEvents s evs) 3)

/-! ## PLL commands -/

/-- R117, R119, R120, R144, R164, R286: what `ENABLE` of the two PLL kinds does, access by access. -/
def Obligations.PllEnableSequence : Prop :=
  ∀ (s : State) (node : ClockId) (flags : NodeFlags),
    let enabling := { s with nt := s.nt.modify node (NodeData.withPll .enabling) }
    (∀ n, Registered s node flags (.fpll n) →
      let a := busAddr n.base n.ready.off
      let v := s.target.answer a
      let analog := thenAnalog s
        (thenAnalog s (thenAnalog s [.read a v] n.base n.bias) n.base n.bandgap) n.base n.regulator
      let evs := thenStrobe s (thenSet s analog n.base n.en 1) n.base n.strobe
      ∀ i ∈ [Instr.fpllEnable node, .enable node],
        exec i s = .next
          (if v &&& n.ready.mask ≠ 0 then
            completed (afterEvents s [.read a v]) node { pll := some .locked }
          else
            pollAfter enabling evs
              { node := node, addr := a, mask := n.ready.mask, awaited := true, next := { pll := some .locked } })) ∧
    ∀ n, Registered s node flags (.dpll n) →
      let evs := thenStrobe s (thenSet s [] n.base n.en 1) n.base n.strobe
      ∀ i ∈ [Instr.dpllEnable node, .enable node],
        exec i s = .next
          (pollAfter enabling evs
            { node := node, addr := busAddr n.base n.ready.off, mask := n.ready.mask, awaited := true,
              next := { pll := some .locked } })

/-- R118, R119, R146, R165: what `DISABLE` of the two PLL kinds does on a node that is not critical, access by
access. -/
def Obligations.PllDisableSequence : Prop :=
  ∀ (s : State) (node : ClockId) (flags : NodeFlags), flags.critical = false →
    let disabling := { s with nt := s.nt.modify node (NodeData.withPll .disabling) }
    (∀ n, Registered s node flags (.fpll n) →
      let evs := thenStrobe s (thenSet s [] n.base n.en 0) n.base n.strobe
      ∀ i ∈ [Instr.fpllDisable node, .disable node],
        exec i s = .next
          (pollAfter disabling evs
            { node := node, addr := busAddr n.base n.ready.off, mask := n.ready.mask, awaited := false,
              next := { pll := some .disabled } })) ∧
    ∀ n, Registered s node flags (.dpll n) →
      let evs := thenStrobe s (thenSet s [] n.base n.en 0) n.base n.strobe
      ∀ i ∈ [Instr.dpllDisable node, .disable node],
        exec i s = .next
          (pollAfter disabling evs
            { node := node, addr := busAddr n.base n.ready.off, mask := n.ready.mask, awaited := false,
              next := { pll := some .disabled } })

/-- R141, R142: `FPLL.SET_RATE` of an accepted target: the latched-value test, the writes, the strobe, the optional
poll, the achieved rate. An accepted target is one whose setting fits its fields (R142 (6)) and whose achieved rate fits
64 bits (D4, U19; assumption 10, DEDUCED). -/
def Obligations.FpllSetRateResult : Prop :=
  ∀ (s s₁ : State) (node : ClockId) (flags : NodeFlags) (n : FpllNode) (r : Nat),
    Registered s node flags (.fpll n) → s.a0 ≠ 0 → inRange n.range s.a0.toNat = true →
    s.rate n.parent = (s₁, .ok r) → r ≠ 0 →
    let c := fpllCompute r s.a0.toNat
    c.frac ≤ n.frac.fmax → c.mul ≤ n.mul.fmax → c.achieved < 2 ^ 64 →
    let reads := readEvents s₁ [] n.base (distinctOffs [n.mul, n.frac, n.en])
    let evs := thenStrobe s₁ (updateAllEvents s₁ reads n.base [(n.mul, c.mul), (n.frac, c.frac)]) n.base n.strobe
    let r0 : Operand := BitVec.ofNat 64 c.achieved
    ∀ i ∈ [Instr.fpllSetRate node, .setRate node],
      exec i s = .next
        (if fieldIn reads n.base n.mul = c.mul ∧ fieldIn reads n.base n.frac = c.frac then
          succeeded (afterEvents s₁ reads) r0 0
        else if fieldIn reads n.base n.en = 1 then
          pollAfter s₁ evs
            { node := node, addr := busAddr n.base n.ready.off, mask := n.ready.mask, awaited := true,
              next := { r0 := r0 } }
        else succeeded (afterEvents s₁ evs) r0 0)

/-- R161, R162: `DPLL.SET_RATE` of an accepted target. -/
def Obligations.DpllSetRateResult : Prop :=
  ∀ (s s₁ : State) (node : ClockId) (flags : NodeFlags) (n : DpllNode) (r : Nat),
    Registered s node flags (.dpll n) → s.a0 ≠ 0 → s.rate n.parent = (s₁, .ok r) →
    let q := roundDiv r s.a0.toNat
    q ≠ 0 → q - 1 ≤ n.div.fmax →
    let achieved := rdiv s₁.params.rdiv r q
    inRange n.range achieved = true →
    let reads := readEvents s₁ [] n.base (distinctOffs [n.div, n.en])
    let evs := thenStrobe s₁ (thenSet s₁ reads n.base n.div (q - 1)) n.base n.strobe
    ∀ i ∈ [Instr.dpllSetRate node, .setRate node],
      exec i s = .next
        (if fieldIn reads n.base n.div = q - 1 then succeeded (afterEvents s₁ reads) (BitVec.ofNat 64 achieved) 0
        else if fieldIn reads n.base n.en = 1 then
          pollAfter s₁ evs
            { node := node, addr := busAddr n.base n.ready.off, mask := n.ready.mask, awaited := true,
              next := { r0 := BitVec.ofNat 64 achieved } }
        else succeeded (afterEvents s₁ evs) (BitVec.ofNat 64 achieved) 0)

/-- R142, R162, R195, R218, R254, R257, R260: the checks of the four `SET_RATE` commands that have one: a zero target,
a target outside the range, and the checks on the computed values, which leave the accesses of the rate query (an
achieved rate of `2^64` or more among them: D4, U19; assumption 10, DEDUCED, for its place among the checks); and a
`SET_PARENT` operand that is no well-formed ClockId (R88, R179, R196, R216, R255). That the selects of generic clocks on
the path of the rate query (R197, R240) stay on a failure is assumption 13 (DEDUCED): R142, R162, R218, R223 and R253 have
every error before the first write. -/
def Obligations.ArgumentRejections : Prop :=
  (∀ (s s₁ : State) (node : ClockId) (flags : NodeFlags) (d : NodeData) (r : Nat), Registered s node flags d →
      (s.a0 = 0 → d.kind ∈ [NodeKind.fpll, .dpll, .gck, .prog] →
        ∀ i ∈ [setRateOf d.kind node, .setRate node], exec i s = .next (failedWith s 1)) ∧
      (s.a0 ≠ 0 →
        (∀ n, d = .fpll n → ∀ i ∈ [Instr.fpllSetRate node, .setRate node],
          (inRange n.range s.a0.toNat = false → exec i s = .next (failedWith s 4)) ∧
          (inRange n.range s.a0.toNat = true → s.rate n.parent = (s₁, .ok r) →
            (r = 0 → exec i s = .next (failedWith s₁ 1)) ∧
            (r ≠ 0 → (fpllCompute r s.a0.toNat).frac > n.frac.fmax ∨ (fpllCompute r s.a0.toNat).mul > n.mul.fmax ∨
                (fpllCompute r s.a0.toNat).achieved ≥ 2 ^ 64 →
              exec i s = .next (failedWith s₁ 4)))) ∧
        (∀ n, d = .dpll n → s.rate n.parent = (s₁, .ok r) → ∀ i ∈ [Instr.dpllSetRate node, .setRate node],
          (roundDiv r s.a0.toNat = 0 ∨ roundDiv r s.a0.toNat - 1 > n.div.fmax ∨
              inRange n.range (rdiv s₁.params.rdiv r (roundDiv r s.a0.toNat)) = false →
            exec i s = .next (failedWith s₁ 4))) ∧
        (∀ n, d = .gck n → ∀ i ∈ [Instr.gckSetRate node, .setRate node],
          (inRange n.range s.a0.toNat = false → exec i s = .next (failedWith s 4)) ∧
          (inRange n.range s.a0.toNat = true → n.extraParents = [] → exec i s = .next (failedWith s 1))) ∧
        ∀ n, d = .prog n → ∀ i ∈ [Instr.progSetRate node, .setRate node],
          (inRange n.range s.a0.toNat = false → exec i s = .next (failedWith s 4)) ∧
          (inRange n.range s.a0.toNat = true → s.rate n.parent = (s₁, .ok r) →
            progCompute n.mode r s.a0.toNat n.pres.fmax = none → exec i s = .next (failedWith s₁ 4)))) ∧
    ∀ (s : State) (node : ClockId) (flags : NodeFlags) (d : NodeData) (t : MuxTable),
      Registered s node flags d → d.table? = some t →
      s.a0.toNat ≥ 2 ^ 16 ∨ wellFormedId (s.a0.setWidth 16) = false →
        ∀ i ∈ [setParentOf d.kind node, .setParent node], exec i s = .next (failedWith s 1)

/-- R143, R168: a second `SET_RATE` of a PLL with the same target, at the same parent rate, writes nothing of its own: it
makes the accesses of its rate query, then reads alone. The first makes at most three bus writes (`FPLL`) or two
(`DPLL`). The PLL's fields are storage (R60; assumption 16, DEDUCED); between the two commands, and in the second one's
rate query, the bus may have seen any reads and any writes of shared command registers. That a rate query through a
generic clock writes that clock's select (R197, R240) is assumption 13 (DEDUCED): R143 and R168 say "no write". -/
def Obligations.PllSetRateTwiceWritesOnce : Prop :=
  ∀ (s s₁ t u u₁ : State) (node : ClockId) (flags : NodeFlags) (r : Nat) (between : List BusEvent)
    (sStrobe : Word),
    s.nt.ok = true → s₁.target.havoc = false → u.a0 = s.a0 → u.params = s.params →
    u₁.target = t.target.replay between →
    (∀ a v, .write a v ∈ between → ∃ idsel st config, s₁.target.regAt a = some (.shared idsel st config)) →
    (t.busy = true ∨ t.status = 0) →
    (∀ (n : FpllNode) (sMul sFrac : Word),
      Registered s node flags (.fpll n) → s.rate n.parent = (s₁, .ok r) →
      s₁.target.regAt (busAddr n.base n.mul.off) = some (.plain sMul) → n.mul.mask &&& sMul = n.mul.mask →
      s₁.target.regAt (busAddr n.base n.frac.off) = some (.plain sFrac) → n.frac.mask &&& sFrac = n.frac.mask →
      s₁.target.regAt (busAddr n.base n.strobe.off) = some (.plain sStrobe) →
      (n.mul.off = n.frac.off → n.mul.mask &&& n.frac.mask = 0) →
      (n.mul.off = n.strobe.off → n.mul.mask &&& n.strobe.mask = 0) →
      (n.frac.off = n.strobe.off → n.frac.mask &&& n.strobe.mask = 0) →
      exec (.fpllSetRate node) s = .next t →
      (∃ pll, Registered u node flags (.fpll { n with pll := pll })) → u.rate n.parent = (u₁, .ok r) →
        ((t.trace.drop s₁.trace.length).filter isWrite).length ≤ 3 ∧
        ∃ evs, (∀ e ∈ evs, isWrite e = false) ∧
          exec (.fpllSetRate node) u = .next
            (succeeded (afterEvents u₁ evs) (BitVec.ofNat 64 (fpllCompute r s.a0.toNat).achieved) 0)) ∧
    ∀ (n : DpllNode) (sDiv : Word),
      Registered s node flags (.dpll n) → s.rate n.parent = (s₁, .ok r) →
      s₁.target.regAt (busAddr n.base n.div.off) = some (.plain sDiv) → n.div.mask &&& sDiv = n.div.mask →
      s₁.target.regAt (busAddr n.base n.strobe.off) = some (.plain sStrobe) →
      (n.div.off = n.strobe.off → n.div.mask &&& n.strobe.mask = 0) →
      exec (.dpllSetRate node) s = .next t →
      (∃ pll, Registered u node flags (.dpll { n with pll := pll })) → u.rate n.parent = (u₁, .ok r) →
        ((t.trace.drop s₁.trace.length).filter isWrite).length ≤ 2 ∧
        ∃ evs, (∀ e ∈ evs, isWrite e = false) ∧
          exec (.dpllSetRate node) u = .next
            (succeeded (afterEvents u₁ evs)
              (BitVec.ofNat 64 (rdiv s.params.rdiv r (roundDiv r s.a0.toNat))) 0)

/-! ## Master clock, shared command register, programmable clock -/

/-- R177, R178, R179: the master clock's `ENABLE`, `DISABLE` and `SET_PARENT`. -/
def Obligations.MckCommands : Prop :=
  ∀ (s : State) (node : ClockId) (flags : NodeFlags) (n : MckNode), Registered s node flags (.mck n) →
    (∀ i ∈ [Instr.mckEnable node, .enable node], exec i s = .next (succeeded s 0 0)) ∧
    (∀ i ∈ [Instr.mckDisable node, .disable node],
      (flags.critical = true ∨ n.canDisable = false → exec i s = .next (succeeded s 0 0)) ∧
      (flags.critical = false → n.canDisable = true → ∀ f, n.sysen = some f →
        exec i s = .next (succeeded (afterEvents s (thenSet s [] n.base f 0)) 0 0))) ∧
    ∀ pid sel, s.a0 = pid.setWidth 64 → wellFormedId pid = true → n.table.p2s pid = some sel →
      let evs := match n.strobe with
        | none => thenSet s [] n.base n.mux sel
        | some f => thenStrobe s (thenSet s [] n.base n.mux sel) n.base f
      ∀ i ∈ [Instr.mckSetParent node, .setParent node],
        exec i s = .next
          (pollAfter s evs
            { node := node, addr := busAddr n.base n.ready.off, mask := n.ready.mask, awaited := true,
              next := { parent := some pid } })

/-- R121, R191, R192, R196, R199, R200, R204: the commands of generic and peripheral clocks on the shared command
register: `W, R, W`, then the optional poll. -/
def Obligations.SharedRegisterCommands : Prop :=
  ∀ (s : State) (node : ClockId) (flags : NodeFlags),
    (∀ n, Registered s node flags (.gck n) →
      (∀ i ∈ [Instr.gckEnable node, .enable node],
        exec i s = .next (sharedOutcome s node n.port n.port.en.mask n.port.en.mask {})) ∧
      (flags.critical = false → ∀ i ∈ [Instr.gckDisable node, .disable node],
        exec i s = .next (sharedOutcome s node n.port n.port.en.mask 0 {})) ∧
      ∀ pid sel, s.a0 = pid.setWidth 64 → wellFormedId pid = true → n.table.p2s pid = some sel →
        ∀ i ∈ [Instr.gckSetParent node, .setParent node],
          exec i s = .next
            (sharedOutcome s node n.port n.mux.mask (n.mux.place sel) { parent := some pid })) ∧
    ∀ n, Registered s node flags (.peri n) →
      (∀ i ∈ [Instr.periEnable node, .enable node],
        exec i s = .next (sharedOutcome s node n.port n.port.en.mask n.port.en.mask {})) ∧
      (flags.critical = false → ∀ i ∈ [Instr.periDisable node, .disable node],
        exec i s = .next (sharedOutcome s node n.port n.port.en.mask 0 {}))

/-- R193, R195: `GCK.SET_RATE`: the rates of the additional parents are read in declared order, each once; the search
picks a parent and a divisor; both are applied in one select-then-configure pair. -/
def Obligations.GckSetRateResult : Prop :=
  ∀ (s s₁ : State) (node : ClockId) (flags : NodeFlags) (n : GckNode) (ps : List (ClockId × Nat)) (b : Candidate)
    (sel : Nat),
    Registered s node flags (.gck n) → s.a0 ≠ 0 → inRange n.range s.a0.toNat = true → n.extraParents ≠ [] →
    ratesOf n.extraParents s = some (ps, s₁) → bestOf s.params.rdiv s.a0.toNat ps = some b →
    n.table.p2s b.pid = some sel →
      ∀ i ∈ [Instr.gckSetRate node, .setRate node],
        exec i s = .next
          (sharedOutcome s₁ node n.port (n.mux.mask ||| n.div.mask) (n.mux.place sel ||| n.div.place (b.div - 1))
            { parent := some b.pid, r0 := BitVec.ofNat 64 b.rate, r1 := b.pid.setWidth 64 })

/-- R216, R259 (a): `PROG.SET_PARENT`: the select code within the base field, through the extension bit, and refused
where the variant has none. -/
def Obligations.ProgSetParentResult : Prop :=
  ∀ (s : State) (node : ClockId) (flags : NodeFlags) (n : ProgNode) (pid : ClockId) (sel : Nat),
    Registered s node flags (.prog n) → s.a0 = pid.setWidth 64 → wellFormedId pid = true →
    n.table.p2s pid = some sel → ∀ i ∈ [Instr.progSetParent node, .setParent node],
      (n.ext = none → sel ≤ n.mux.fmax →
        exec i s = .next
          (optionalPoll s (thenSet s [] n.base n.mux sel) node n.base n.ready { parent := some pid })) ∧
      (n.ext = none → sel > n.mux.fmax → exec i s = .next (failedWith s 5)) ∧
      ∀ ext, n.ext = some ext →
        exec i s = .next
          (optionalPoll s
            (updateAllEvents s [] n.base
              (if sel ≤ n.mux.fmax then [(n.mux, sel), (ext, 0)] else [(n.mux, sel &&& n.mux.fmax), (ext, 1)]))
            node n.base n.ready { parent := some pid })

/-- R218: `PROG.SET_RATE` of a rate with an exact encoding. -/
def Obligations.ProgSetRateResult : Prop :=
  ∀ (s s₁ : State) (node : ClockId) (flags : NodeFlags) (n : ProgNode) (r v : Nat),
    Registered s node flags (.prog n) → s.a0 ≠ 0 → inRange n.range s.a0.toNat = true →
    s.rate n.parent = (s₁, .ok r) → progCompute n.mode r s.a0.toNat n.pres.fmax = some v →
      ∀ i ∈ [Instr.progSetRate node, .setRate node],
        exec i s = .next
          (optionalPoll s₁ (thenSet s₁ [] n.base n.pres v) node n.base n.ready { r0 := s.a0 })

/-- R135: a parent that the node's mux table does not list: `UnknownParent`, no bus access, the parent unchanged. -/
def Obligations.SetParentMissIsAtomic : Prop :=
  ∀ (s : State) (node : ClockId) (flags : NodeFlags) (d : NodeData) (t : MuxTable) (pid : ClockId),
    Registered s node flags d → d.table? = some t → s.a0 = pid.setWidth 64 → wellFormedId pid = true →
    pid ∉ t.pid → ∀ i ∈ [setParentOf d.kind node, .setParent node], exec i s = .next (failedWith s 2)
end

