-- ==== Sys2Proof/Laws/Encoding.lean ====
section
/-! SUPPORT. The fields of an encoded command word (R81). -/

namespace Sys2Proof.Laws

/-- Bit `i` of a packed word. -/
theorem getLsbD_packed (z : BitVec 8) (n : ClockId) (o : BitVec 8) (i : Nat) :
    BitVec.getLsbD (w := 32) (z ++ n ++ o) i =
      if i < 8 then o.getLsbD i else if i < 24 then n.getLsbD (i - 8) else z.getLsbD (i - 24) := by
  have h₁ := BitVec.getLsbD_append (x := z ++ n) (y := o) (i := i)
  have h₂ := BitVec.getLsbD_append (x := z) (y := n) (i := i - 8)
  refine h₁.trans ?_
  rw [h₂, show i - 8 - 16 = i - 24 by omega]
  by_cases a : i < 8
  · simp [a]
  · by_cases b : i < 24
    · simp [a, b, show i - 8 < 16 by omega]
    · simp [a, b, show ¬ i - 8 < 16 by omega]

/-- The opcode field of a packed word. -/
theorem opField_packed (z : BitVec 8) (n : ClockId) (o : BitVec 8) : opField (z ++ n ++ o) = o := by
  ext i hi
  simp [opField, getLsbD_packed, hi, BitVec.getLsbD_eq_getElem]

/-- The node field of a packed word. -/
theorem nodeField_packed (z : BitVec 8) (n : ClockId) (o : BitVec 8) : nodeField (z ++ n ++ o) = n := by
  ext i hi
  simp [nodeField, getLsbD_packed, hi, BitVec.getLsbD_eq_getElem, show 8 + i < 24 by omega]

/-- The zero field of a packed word. -/
theorem zeroField_packed (z : BitVec 8) (n : ClockId) (o : BitVec 8) : zeroField (z ++ n ++ o) = z := by
  ext i hi
  simp [zeroField, getLsbD_packed, hi, BitVec.getLsbD_eq_getElem, show ¬ 24 + i < 8 by omega]

/-- A word is its three fields, packed. -/
theorem packed_fields (w : Word) : zeroField w ++ nodeField w ++ opField w = w := by
  ext i hi
  simp only [zeroField, nodeField, opField, BitVec.getElem_append, BitVec.getElem_extractLsb']
  split
  · simp [BitVec.getLsbD_eq_getElem (by omega : i < 32)]
  · split
    · rw [show 8 + (i - 8) = i by omega]
      simp [BitVec.getLsbD_eq_getElem (by omega : i < 32)]
    · rw [show 24 + (i - 8 - 16) = i by omega]
      simp [BitVec.getLsbD_eq_getElem (by omega : i < 32)]

end Sys2Proof.Laws
end

