-- ==== Sys2Proof/Laws/State.lean ====
section
/-! SUPPORT. One lemma for each field of the state and each update of it, so that no proof unfolds a record update. -/

namespace Sys2Proof.Laws

open Machine

variable (s : State)

/-! `memRead` -/

@[simp] theorem memRead_params (a : Word) : (s.memRead a).params = s.params := rfl
@[simp] theorem memRead_cmd (a : Word) : (s.memRead a).cmd = s.cmd := rfl
@[simp] theorem memRead_a0 (a : Word) : (s.memRead a).a0 = s.a0 := rfl
@[simp] theorem memRead_a1 (a : Word) : (s.memRead a).a1 = s.a1 := rfl
@[simp] theorem memRead_a2 (a : Word) : (s.memRead a).a2 = s.a2 := rfl
@[simp] theorem memRead_a3 (a : Word) : (s.memRead a).a3 = s.a3 := rfl
@[simp] theorem memRead_desc (a : Word) : (s.memRead a).desc = s.desc := rfl
@[simp] theorem memRead_r0 (a : Word) : (s.memRead a).r0 = s.r0 := rfl
@[simp] theorem memRead_r1 (a : Word) : (s.memRead a).r1 = s.r1 := rfl
@[simp] theorem memRead_status (a : Word) : (s.memRead a).status = s.status := rfl
@[simp] theorem memRead_engine (a : Word) : (s.memRead a).engine = s.engine := rfl
@[simp] theorem memRead_nt (a : Word) : (s.memRead a).nt = s.nt := rfl
@[simp] theorem memRead_target (a : Word) : (s.memRead a).target = s.target.afterRead := rfl
@[simp] theorem memRead_trace (a : Word) : (s.memRead a).trace = s.trace ++ [.read a (s.target.answer a)] := rfl
@[simp] theorem memRead_host (a : Word) : (s.memRead a).host = s.host := rfl

/-! `memWrite` -/

@[simp] theorem memWrite_params (a v : Word) : (s.memWrite a v).params = s.params := rfl
@[simp] theorem memWrite_cmd (a v : Word) : (s.memWrite a v).cmd = s.cmd := rfl
@[simp] theorem memWrite_a0 (a v : Word) : (s.memWrite a v).a0 = s.a0 := rfl
@[simp] theorem memWrite_a1 (a v : Word) : (s.memWrite a v).a1 = s.a1 := rfl
@[simp] theorem memWrite_a2 (a v : Word) : (s.memWrite a v).a2 = s.a2 := rfl
@[simp] theorem memWrite_a3 (a v : Word) : (s.memWrite a v).a3 = s.a3 := rfl
@[simp] theorem memWrite_desc (a v : Word) : (s.memWrite a v).desc = s.desc := rfl
@[simp] theorem memWrite_r0 (a v : Word) : (s.memWrite a v).r0 = s.r0 := rfl
@[simp] theorem memWrite_r1 (a v : Word) : (s.memWrite a v).r1 = s.r1 := rfl
@[simp] theorem memWrite_status (a v : Word) : (s.memWrite a v).status = s.status := rfl
@[simp] theorem memWrite_engine (a v : Word) : (s.memWrite a v).engine = s.engine := rfl
@[simp] theorem memWrite_nt (a v : Word) : (s.memWrite a v).nt = s.nt := rfl
@[simp] theorem memWrite_target (a v : Word) : (s.memWrite a v).target = s.target.afterWrite a v := rfl
@[simp] theorem memWrite_trace (a v : Word) : (s.memWrite a v).trace = s.trace ++ [.write a v] := rfl
@[simp] theorem memWrite_host (a v : Word) : (s.memWrite a v).host = s.host := rfl

/-! `settle` -/

@[simp] theorem settle_params : s.settle.params = s.params := rfl
@[simp] theorem settle_cmd : s.settle.cmd = s.cmd := rfl
@[simp] theorem settle_a0 : s.settle.a0 = s.a0 := rfl
@[simp] theorem settle_a1 : s.settle.a1 = s.a1 := rfl
@[simp] theorem settle_a2 : s.settle.a2 = s.a2 := rfl
@[simp] theorem settle_a3 : s.settle.a3 = s.a3 := rfl
@[simp] theorem settle_desc : s.settle.desc = s.desc := rfl
@[simp] theorem settle_r0 : s.settle.r0 = s.r0 := rfl
@[simp] theorem settle_r1 : s.settle.r1 = s.r1 := rfl
@[simp] theorem settle_status : s.settle.status = s.status := rfl
@[simp] theorem settle_engine : s.settle.engine = s.engine := rfl
@[simp] theorem settle_nt : s.settle.nt = s.nt := rfl
@[simp] theorem settle_target : s.settle.target = s.target := rfl
@[simp] theorem settle_trace : s.settle.trace = s.trace ++ [.settle] := rfl
@[simp] theorem settle_host : s.settle.host = s.host := rfl

/-! `setPll` -/

@[simp] theorem setPll_params (i : ClockId) (st : PllState) : (s.setPll i st).params = s.params := rfl
@[simp] theorem setPll_cmd (i : ClockId) (st : PllState) : (s.setPll i st).cmd = s.cmd := rfl
@[simp] theorem setPll_a0 (i : ClockId) (st : PllState) : (s.setPll i st).a0 = s.a0 := rfl
@[simp] theorem setPll_a1 (i : ClockId) (st : PllState) : (s.setPll i st).a1 = s.a1 := rfl
@[simp] theorem setPll_a2 (i : ClockId) (st : PllState) : (s.setPll i st).a2 = s.a2 := rfl
@[simp] theorem setPll_a3 (i : ClockId) (st : PllState) : (s.setPll i st).a3 = s.a3 := rfl
@[simp] theorem setPll_desc (i : ClockId) (st : PllState) : (s.setPll i st).desc = s.desc := rfl
@[simp] theorem setPll_r0 (i : ClockId) (st : PllState) : (s.setPll i st).r0 = s.r0 := rfl
@[simp] theorem setPll_r1 (i : ClockId) (st : PllState) : (s.setPll i st).r1 = s.r1 := rfl
@[simp] theorem setPll_status (i : ClockId) (st : PllState) : (s.setPll i st).status = s.status := rfl
@[simp] theorem setPll_engine (i : ClockId) (st : PllState) : (s.setPll i st).engine = s.engine := rfl
@[simp] theorem setPll_nt (i : ClockId) (st : PllState) : (s.setPll i st).nt = s.nt.modify i (NodeData.withPll st) := rfl
@[simp] theorem setPll_target (i : ClockId) (st : PllState) : (s.setPll i st).target = s.target := rfl
@[simp] theorem setPll_trace (i : ClockId) (st : PllState) : (s.setPll i st).trace = s.trace := rfl
@[simp] theorem setPll_host (i : ClockId) (st : PllState) : (s.setPll i st).host = s.host := rfl

/-! `addNode` -/

@[simp] theorem addNode_params (i : ClockId) (f : NodeFlags) (d : NodeData) : (s.addNode i f d).params = s.params := rfl
@[simp] theorem addNode_cmd (i : ClockId) (f : NodeFlags) (d : NodeData) : (s.addNode i f d).cmd = s.cmd := rfl
@[simp] theorem addNode_a0 (i : ClockId) (f : NodeFlags) (d : NodeData) : (s.addNode i f d).a0 = s.a0 := rfl
@[simp] theorem addNode_a1 (i : ClockId) (f : NodeFlags) (d : NodeData) : (s.addNode i f d).a1 = s.a1 := rfl
@[simp] theorem addNode_a2 (i : ClockId) (f : NodeFlags) (d : NodeData) : (s.addNode i f d).a2 = s.a2 := rfl
@[simp] theorem addNode_a3 (i : ClockId) (f : NodeFlags) (d : NodeData) : (s.addNode i f d).a3 = s.a3 := rfl
@[simp] theorem addNode_desc (i : ClockId) (f : NodeFlags) (d : NodeData) : (s.addNode i f d).desc = s.desc := rfl
@[simp] theorem addNode_r0 (i : ClockId) (f : NodeFlags) (d : NodeData) : (s.addNode i f d).r0 = s.r0 := rfl
@[simp] theorem addNode_r1 (i : ClockId) (f : NodeFlags) (d : NodeData) : (s.addNode i f d).r1 = s.r1 := rfl
@[simp] theorem addNode_status (i : ClockId) (f : NodeFlags) (d : NodeData) : (s.addNode i f d).status = s.status := rfl
@[simp] theorem addNode_engine (i : ClockId) (f : NodeFlags) (d : NodeData) : (s.addNode i f d).engine = s.engine := rfl
@[simp] theorem addNode_nt (i : ClockId) (f : NodeFlags) (d : NodeData) : (s.addNode i f d).nt = { id := i, flags := f, data := d } :: s.nt := rfl
@[simp] theorem addNode_target (i : ClockId) (f : NodeFlags) (d : NodeData) : (s.addNode i f d).target = s.target := rfl
@[simp] theorem addNode_trace (i : ClockId) (f : NodeFlags) (d : NodeData) : (s.addNode i f d).trace = s.trace := rfl
@[simp] theorem addNode_host (i : ClockId) (f : NodeFlags) (d : NodeData) : (s.addNode i f d).host = s.host := rfl

/-! `raise` -/

@[simp] theorem raise_params (e : CmdError) : (s.raise e).params = s.params := rfl
@[simp] theorem raise_cmd (e : CmdError) : (s.raise e).cmd = s.cmd := rfl
@[simp] theorem raise_a0 (e : CmdError) : (s.raise e).a0 = s.a0 := rfl
@[simp] theorem raise_a1 (e : CmdError) : (s.raise e).a1 = s.a1 := rfl
@[simp] theorem raise_a2 (e : CmdError) : (s.raise e).a2 = s.a2 := rfl
@[simp] theorem raise_a3 (e : CmdError) : (s.raise e).a3 = s.a3 := rfl
@[simp] theorem raise_desc (e : CmdError) : (s.raise e).desc = s.desc := rfl
@[simp] theorem raise_r0 (e : CmdError) : (s.raise e).r0 = s.r0 := rfl
@[simp] theorem raise_r1 (e : CmdError) : (s.raise e).r1 = s.r1 := rfl
@[simp] theorem raise_status (e : CmdError) : (s.raise e).status = e.code := rfl
@[simp] theorem raise_engine (e : CmdError) : (s.raise e).engine = .idle := rfl
@[simp] theorem raise_nt (e : CmdError) : (s.raise e).nt = s.nt := rfl
@[simp] theorem raise_target (e : CmdError) : (s.raise e).target = s.target := rfl
@[simp] theorem raise_trace (e : CmdError) : (s.raise e).trace = s.trace := rfl
@[simp] theorem raise_host (e : CmdError) : (s.raise e).host = s.host := rfl

/-! `finish` -/

@[simp] theorem finish_params (i : ClockId) (c : Completion) : (s.finish i c).params = s.params := rfl
@[simp] theorem finish_cmd (i : ClockId) (c : Completion) : (s.finish i c).cmd = s.cmd := rfl
@[simp] theorem finish_a0 (i : ClockId) (c : Completion) : (s.finish i c).a0 = s.a0 := rfl
@[simp] theorem finish_a1 (i : ClockId) (c : Completion) : (s.finish i c).a1 = s.a1 := rfl
@[simp] theorem finish_a2 (i : ClockId) (c : Completion) : (s.finish i c).a2 = s.a2 := rfl
@[simp] theorem finish_a3 (i : ClockId) (c : Completion) : (s.finish i c).a3 = s.a3 := rfl
@[simp] theorem finish_desc (i : ClockId) (c : Completion) : (s.finish i c).desc = s.desc := rfl
@[simp] theorem finish_r0 (i : ClockId) (c : Completion) : (s.finish i c).r0 = c.r0 := rfl
@[simp] theorem finish_r1 (i : ClockId) (c : Completion) : (s.finish i c).r1 = c.r1 := rfl
@[simp] theorem finish_status (i : ClockId) (c : Completion) : (s.finish i c).status = 0 := rfl
@[simp] theorem finish_engine (i : ClockId) (c : Completion) : (s.finish i c).engine = .idle := rfl
@[simp] theorem finish_nt (i : ClockId) (c : Completion) : (s.finish i c).nt = s.nt.modify i c.apply := rfl
@[simp] theorem finish_target (i : ClockId) (c : Completion) : (s.finish i c).target = s.target := rfl
@[simp] theorem finish_trace (i : ClockId) (c : Completion) : (s.finish i c).trace = s.trace := rfl
@[simp] theorem finish_host (i : ClockId) (c : Completion) : (s.finish i c).host = s.host := rfl

/-! `result` -/

@[simp] theorem result_params (x y : Operand) : (s.result x y).params = s.params := rfl
@[simp] theorem result_cmd (x y : Operand) : (s.result x y).cmd = s.cmd := rfl
@[simp] theorem result_a0 (x y : Operand) : (s.result x y).a0 = s.a0 := rfl
@[simp] theorem result_a1 (x y : Operand) : (s.result x y).a1 = s.a1 := rfl
@[simp] theorem result_a2 (x y : Operand) : (s.result x y).a2 = s.a2 := rfl
@[simp] theorem result_a3 (x y : Operand) : (s.result x y).a3 = s.a3 := rfl
@[simp] theorem result_desc (x y : Operand) : (s.result x y).desc = s.desc := rfl
@[simp] theorem result_r0 (x y : Operand) : (s.result x y).r0 = x := rfl
@[simp] theorem result_r1 (x y : Operand) : (s.result x y).r1 = y := rfl
@[simp] theorem result_status (x y : Operand) : (s.result x y).status = 0 := rfl
@[simp] theorem result_engine (x y : Operand) : (s.result x y).engine = .idle := rfl
@[simp] theorem result_nt (x y : Operand) : (s.result x y).nt = s.nt := rfl
@[simp] theorem result_target (x y : Operand) : (s.result x y).target = s.target := rfl
@[simp] theorem result_trace (x y : Operand) : (s.result x y).trace = s.trace := rfl
@[simp] theorem result_host (x y : Operand) : (s.result x y).host = s.host := rfl

/-! `acceptCmd` -/

@[simp] theorem acceptCmd_params (w : Word) : (s.acceptCmd w).params = s.params := rfl
@[simp] theorem acceptCmd_cmd (w : Word) : (s.acceptCmd w).cmd = w := rfl
@[simp] theorem acceptCmd_a0 (w : Word) : (s.acceptCmd w).a0 = s.a0 := rfl
@[simp] theorem acceptCmd_a1 (w : Word) : (s.acceptCmd w).a1 = s.a1 := rfl
@[simp] theorem acceptCmd_a2 (w : Word) : (s.acceptCmd w).a2 = s.a2 := rfl
@[simp] theorem acceptCmd_a3 (w : Word) : (s.acceptCmd w).a3 = s.a3 := rfl
@[simp] theorem acceptCmd_desc (w : Word) : (s.acceptCmd w).desc = s.desc := rfl
@[simp] theorem acceptCmd_r0 (w : Word) : (s.acceptCmd w).r0 = 0 := rfl
@[simp] theorem acceptCmd_r1 (w : Word) : (s.acceptCmd w).r1 = 0 := rfl
@[simp] theorem acceptCmd_status (w : Word) : (s.acceptCmd w).status = s.status := rfl
@[simp] theorem acceptCmd_engine (w : Word) : (s.acceptCmd w).engine = .started := rfl
@[simp] theorem acceptCmd_nt (w : Word) : (s.acceptCmd w).nt = s.nt := rfl
@[simp] theorem acceptCmd_target (w : Word) : (s.acceptCmd w).target = s.target := rfl
@[simp] theorem acceptCmd_trace (w : Word) : (s.acceptCmd w).trace = s.trace := rfl
@[simp] theorem acceptCmd_host (w : Word) : (s.acceptCmd w).host = s.host := rfl

/-! `engineReset` -/

@[simp] theorem engineReset_params : s.engineReset.params = s.params := rfl
@[simp] theorem engineReset_cmd : s.engineReset.cmd = 0 := rfl
@[simp] theorem engineReset_a0 : s.engineReset.a0 = 0 := rfl
@[simp] theorem engineReset_a1 : s.engineReset.a1 = 0 := rfl
@[simp] theorem engineReset_a2 : s.engineReset.a2 = 0 := rfl
@[simp] theorem engineReset_a3 : s.engineReset.a3 = 0 := rfl
@[simp] theorem engineReset_desc : s.engineReset.desc = {} := rfl
@[simp] theorem engineReset_r0 : s.engineReset.r0 = 0 := rfl
@[simp] theorem engineReset_r1 : s.engineReset.r1 = 0 := rfl
@[simp] theorem engineReset_status : s.engineReset.status = 0 := rfl
@[simp] theorem engineReset_engine : s.engineReset.engine = .idle := rfl
@[simp] theorem engineReset_nt : s.engineReset.nt = [] := rfl
@[simp] theorem engineReset_target : s.engineReset.target = s.target := rfl
@[simp] theorem engineReset_trace : s.engineReset.trace = s.trace := rfl
@[simp] theorem engineReset_host : s.engineReset.host = s.host := rfl

/-! `afterEvents` -/

@[simp] theorem afterEvents_params (evs : List BusEvent) : (afterEvents s evs).params = s.params := rfl
@[simp] theorem afterEvents_cmd (evs : List BusEvent) : (afterEvents s evs).cmd = s.cmd := rfl
@[simp] theorem afterEvents_a0 (evs : List BusEvent) : (afterEvents s evs).a0 = s.a0 := rfl
@[simp] theorem afterEvents_a1 (evs : List BusEvent) : (afterEvents s evs).a1 = s.a1 := rfl
@[simp] theorem afterEvents_a2 (evs : List BusEvent) : (afterEvents s evs).a2 = s.a2 := rfl
@[simp] theorem afterEvents_a3 (evs : List BusEvent) : (afterEvents s evs).a3 = s.a3 := rfl
@[simp] theorem afterEvents_desc (evs : List BusEvent) : (afterEvents s evs).desc = s.desc := rfl
@[simp] theorem afterEvents_r0 (evs : List BusEvent) : (afterEvents s evs).r0 = s.r0 := rfl
@[simp] theorem afterEvents_r1 (evs : List BusEvent) : (afterEvents s evs).r1 = s.r1 := rfl
@[simp] theorem afterEvents_status (evs : List BusEvent) : (afterEvents s evs).status = s.status := rfl
@[simp] theorem afterEvents_engine (evs : List BusEvent) : (afterEvents s evs).engine = s.engine := rfl
@[simp] theorem afterEvents_nt (evs : List BusEvent) : (afterEvents s evs).nt = s.nt := rfl
@[simp] theorem afterEvents_target (evs : List BusEvent) : (afterEvents s evs).target = s.target.replay evs := rfl
@[simp] theorem afterEvents_trace (evs : List BusEvent) : (afterEvents s evs).trace = s.trace ++ evs := rfl
@[simp] theorem afterEvents_host (evs : List BusEvent) : (afterEvents s evs).host = s.host := rfl

/-! `regRead` changes the target and the trace only -/

@[simp] theorem regRead_params (b o : Word) : (s.regRead b o).params = s.params := rfl
@[simp] theorem regRead_cmd (b o : Word) : (s.regRead b o).cmd = s.cmd := rfl
@[simp] theorem regRead_a0 (b o : Word) : (s.regRead b o).a0 = s.a0 := rfl
@[simp] theorem regRead_a1 (b o : Word) : (s.regRead b o).a1 = s.a1 := rfl
@[simp] theorem regRead_a2 (b o : Word) : (s.regRead b o).a2 = s.a2 := rfl
@[simp] theorem regRead_a3 (b o : Word) : (s.regRead b o).a3 = s.a3 := rfl
@[simp] theorem regRead_desc (b o : Word) : (s.regRead b o).desc = s.desc := rfl
@[simp] theorem regRead_r0 (b o : Word) : (s.regRead b o).r0 = s.r0 := rfl
@[simp] theorem regRead_r1 (b o : Word) : (s.regRead b o).r1 = s.r1 := rfl
@[simp] theorem regRead_status (b o : Word) : (s.regRead b o).status = s.status := rfl
@[simp] theorem regRead_engine (b o : Word) : (s.regRead b o).engine = s.engine := rfl
@[simp] theorem regRead_nt (b o : Word) : (s.regRead b o).nt = s.nt := rfl
@[simp] theorem regRead_host (b o : Word) : (s.regRead b o).host = s.host := rfl

/-! `regWrite` changes the target and the trace only -/

@[simp] theorem regWrite_params (b o v : Word) : (s.regWrite b o v).params = s.params := rfl
@[simp] theorem regWrite_cmd (b o v : Word) : (s.regWrite b o v).cmd = s.cmd := rfl
@[simp] theorem regWrite_a0 (b o v : Word) : (s.regWrite b o v).a0 = s.a0 := rfl
@[simp] theorem regWrite_a1 (b o v : Word) : (s.regWrite b o v).a1 = s.a1 := rfl
@[simp] theorem regWrite_a2 (b o v : Word) : (s.regWrite b o v).a2 = s.a2 := rfl
@[simp] theorem regWrite_a3 (b o v : Word) : (s.regWrite b o v).a3 = s.a3 := rfl
@[simp] theorem regWrite_desc (b o v : Word) : (s.regWrite b o v).desc = s.desc := rfl
@[simp] theorem regWrite_r0 (b o v : Word) : (s.regWrite b o v).r0 = s.r0 := rfl
@[simp] theorem regWrite_r1 (b o v : Word) : (s.regWrite b o v).r1 = s.r1 := rfl
@[simp] theorem regWrite_status (b o v : Word) : (s.regWrite b o v).status = s.status := rfl
@[simp] theorem regWrite_engine (b o v : Word) : (s.regWrite b o v).engine = s.engine := rfl
@[simp] theorem regWrite_nt (b o v : Word) : (s.regWrite b o v).nt = s.nt := rfl
@[simp] theorem regWrite_host (b o v : Word) : (s.regWrite b o v).host = s.host := rfl

/-! `regUpdate` changes the target and the trace only -/

@[simp] theorem regUpdate_params (b o m x : Word) : (s.regUpdate b o m x).params = s.params := rfl
@[simp] theorem regUpdate_cmd (b o m x : Word) : (s.regUpdate b o m x).cmd = s.cmd := rfl
@[simp] theorem regUpdate_a0 (b o m x : Word) : (s.regUpdate b o m x).a0 = s.a0 := rfl
@[simp] theorem regUpdate_a1 (b o m x : Word) : (s.regUpdate b o m x).a1 = s.a1 := rfl
@[simp] theorem regUpdate_a2 (b o m x : Word) : (s.regUpdate b o m x).a2 = s.a2 := rfl
@[simp] theorem regUpdate_a3 (b o m x : Word) : (s.regUpdate b o m x).a3 = s.a3 := rfl
@[simp] theorem regUpdate_desc (b o m x : Word) : (s.regUpdate b o m x).desc = s.desc := rfl
@[simp] theorem regUpdate_r0 (b o m x : Word) : (s.regUpdate b o m x).r0 = s.r0 := rfl
@[simp] theorem regUpdate_r1 (b o m x : Word) : (s.regUpdate b o m x).r1 = s.r1 := rfl
@[simp] theorem regUpdate_status (b o m x : Word) : (s.regUpdate b o m x).status = s.status := rfl
@[simp] theorem regUpdate_engine (b o m x : Word) : (s.regUpdate b o m x).engine = s.engine := rfl
@[simp] theorem regUpdate_nt (b o m x : Word) : (s.regUpdate b o m x).nt = s.nt := rfl
@[simp] theorem regUpdate_host (b o m x : Word) : (s.regUpdate b o m x).host = s.host := rfl

/-! `fieldGet` changes the target and the trace only -/

@[simp] theorem fieldGet_params (b : Word) (f : FieldDesc) : (s.fieldGet b f).params = s.params := rfl
@[simp] theorem fieldGet_cmd (b : Word) (f : FieldDesc) : (s.fieldGet b f).cmd = s.cmd := rfl
@[simp] theorem fieldGet_a0 (b : Word) (f : FieldDesc) : (s.fieldGet b f).a0 = s.a0 := rfl
@[simp] theorem fieldGet_a1 (b : Word) (f : FieldDesc) : (s.fieldGet b f).a1 = s.a1 := rfl
@[simp] theorem fieldGet_a2 (b : Word) (f : FieldDesc) : (s.fieldGet b f).a2 = s.a2 := rfl
@[simp] theorem fieldGet_a3 (b : Word) (f : FieldDesc) : (s.fieldGet b f).a3 = s.a3 := rfl
@[simp] theorem fieldGet_desc (b : Word) (f : FieldDesc) : (s.fieldGet b f).desc = s.desc := rfl
@[simp] theorem fieldGet_r0 (b : Word) (f : FieldDesc) : (s.fieldGet b f).r0 = s.r0 := rfl
@[simp] theorem fieldGet_r1 (b : Word) (f : FieldDesc) : (s.fieldGet b f).r1 = s.r1 := rfl
@[simp] theorem fieldGet_status (b : Word) (f : FieldDesc) : (s.fieldGet b f).status = s.status := rfl
@[simp] theorem fieldGet_engine (b : Word) (f : FieldDesc) : (s.fieldGet b f).engine = s.engine := rfl
@[simp] theorem fieldGet_nt (b : Word) (f : FieldDesc) : (s.fieldGet b f).nt = s.nt := rfl
@[simp] theorem fieldGet_host (b : Word) (f : FieldDesc) : (s.fieldGet b f).host = s.host := rfl

/-! `fieldSet` changes the target and the trace only -/

@[simp] theorem fieldSet_params (b : Word) (f : FieldDesc) (v : Nat) : (s.fieldSet b f v).params = s.params := rfl
@[simp] theorem fieldSet_cmd (b : Word) (f : FieldDesc) (v : Nat) : (s.fieldSet b f v).cmd = s.cmd := rfl
@[simp] theorem fieldSet_a0 (b : Word) (f : FieldDesc) (v : Nat) : (s.fieldSet b f v).a0 = s.a0 := rfl
@[simp] theorem fieldSet_a1 (b : Word) (f : FieldDesc) (v : Nat) : (s.fieldSet b f v).a1 = s.a1 := rfl
@[simp] theorem fieldSet_a2 (b : Word) (f : FieldDesc) (v : Nat) : (s.fieldSet b f v).a2 = s.a2 := rfl
@[simp] theorem fieldSet_a3 (b : Word) (f : FieldDesc) (v : Nat) : (s.fieldSet b f v).a3 = s.a3 := rfl
@[simp] theorem fieldSet_desc (b : Word) (f : FieldDesc) (v : Nat) : (s.fieldSet b f v).desc = s.desc := rfl
@[simp] theorem fieldSet_r0 (b : Word) (f : FieldDesc) (v : Nat) : (s.fieldSet b f v).r0 = s.r0 := rfl
@[simp] theorem fieldSet_r1 (b : Word) (f : FieldDesc) (v : Nat) : (s.fieldSet b f v).r1 = s.r1 := rfl
@[simp] theorem fieldSet_status (b : Word) (f : FieldDesc) (v : Nat) : (s.fieldSet b f v).status = s.status := rfl
@[simp] theorem fieldSet_engine (b : Word) (f : FieldDesc) (v : Nat) : (s.fieldSet b f v).engine = s.engine := rfl
@[simp] theorem fieldSet_nt (b : Word) (f : FieldDesc) (v : Nat) : (s.fieldSet b f v).nt = s.nt := rfl
@[simp] theorem fieldSet_host (b : Word) (f : FieldDesc) (v : Nat) : (s.fieldSet b f v).host = s.host := rfl

/-! `strobe` changes the target and the trace only -/

@[simp] theorem strobe_params (b : Word) (f : FieldDesc) : (s.strobe b f).params = s.params := rfl
@[simp] theorem strobe_cmd (b : Word) (f : FieldDesc) : (s.strobe b f).cmd = s.cmd := rfl
@[simp] theorem strobe_a0 (b : Word) (f : FieldDesc) : (s.strobe b f).a0 = s.a0 := rfl
@[simp] theorem strobe_a1 (b : Word) (f : FieldDesc) : (s.strobe b f).a1 = s.a1 := rfl
@[simp] theorem strobe_a2 (b : Word) (f : FieldDesc) : (s.strobe b f).a2 = s.a2 := rfl
@[simp] theorem strobe_a3 (b : Word) (f : FieldDesc) : (s.strobe b f).a3 = s.a3 := rfl
@[simp] theorem strobe_desc (b : Word) (f : FieldDesc) : (s.strobe b f).desc = s.desc := rfl
@[simp] theorem strobe_r0 (b : Word) (f : FieldDesc) : (s.strobe b f).r0 = s.r0 := rfl
@[simp] theorem strobe_r1 (b : Word) (f : FieldDesc) : (s.strobe b f).r1 = s.r1 := rfl
@[simp] theorem strobe_status (b : Word) (f : FieldDesc) : (s.strobe b f).status = s.status := rfl
@[simp] theorem strobe_engine (b : Word) (f : FieldDesc) : (s.strobe b f).engine = s.engine := rfl
@[simp] theorem strobe_nt (b : Word) (f : FieldDesc) : (s.strobe b f).nt = s.nt := rfl
@[simp] theorem strobe_host (b : Word) (f : FieldDesc) : (s.strobe b f).host = s.host := rfl

/-! `selectId` changes the target and the trace only -/

@[simp] theorem selectId_params (p : SharedPort) : (s.selectId p).params = s.params := rfl
@[simp] theorem selectId_cmd (p : SharedPort) : (s.selectId p).cmd = s.cmd := rfl
@[simp] theorem selectId_a0 (p : SharedPort) : (s.selectId p).a0 = s.a0 := rfl
@[simp] theorem selectId_a1 (p : SharedPort) : (s.selectId p).a1 = s.a1 := rfl
@[simp] theorem selectId_a2 (p : SharedPort) : (s.selectId p).a2 = s.a2 := rfl
@[simp] theorem selectId_a3 (p : SharedPort) : (s.selectId p).a3 = s.a3 := rfl
@[simp] theorem selectId_desc (p : SharedPort) : (s.selectId p).desc = s.desc := rfl
@[simp] theorem selectId_r0 (p : SharedPort) : (s.selectId p).r0 = s.r0 := rfl
@[simp] theorem selectId_r1 (p : SharedPort) : (s.selectId p).r1 = s.r1 := rfl
@[simp] theorem selectId_status (p : SharedPort) : (s.selectId p).status = s.status := rfl
@[simp] theorem selectId_engine (p : SharedPort) : (s.selectId p).engine = s.engine := rfl
@[simp] theorem selectId_nt (p : SharedPort) : (s.selectId p).nt = s.nt := rfl
@[simp] theorem selectId_host (p : SharedPort) : (s.selectId p).host = s.host := rfl

/-! `configure` changes the target and the trace only -/

@[simp] theorem configure_params (p : SharedPort) (m x : Word) : (s.configure p m x).params = s.params := rfl
@[simp] theorem configure_cmd (p : SharedPort) (m x : Word) : (s.configure p m x).cmd = s.cmd := rfl
@[simp] theorem configure_a0 (p : SharedPort) (m x : Word) : (s.configure p m x).a0 = s.a0 := rfl
@[simp] theorem configure_a1 (p : SharedPort) (m x : Word) : (s.configure p m x).a1 = s.a1 := rfl
@[simp] theorem configure_a2 (p : SharedPort) (m x : Word) : (s.configure p m x).a2 = s.a2 := rfl
@[simp] theorem configure_a3 (p : SharedPort) (m x : Word) : (s.configure p m x).a3 = s.a3 := rfl
@[simp] theorem configure_desc (p : SharedPort) (m x : Word) : (s.configure p m x).desc = s.desc := rfl
@[simp] theorem configure_r0 (p : SharedPort) (m x : Word) : (s.configure p m x).r0 = s.r0 := rfl
@[simp] theorem configure_r1 (p : SharedPort) (m x : Word) : (s.configure p m x).r1 = s.r1 := rfl
@[simp] theorem configure_status (p : SharedPort) (m x : Word) : (s.configure p m x).status = s.status := rfl
@[simp] theorem configure_engine (p : SharedPort) (m x : Word) : (s.configure p m x).engine = s.engine := rfl
@[simp] theorem configure_nt (p : SharedPort) (m x : Word) : (s.configure p m x).nt = s.nt := rfl
@[simp] theorem configure_host (p : SharedPort) (m x : Word) : (s.configure p m x).host = s.host := rfl

/-! `selectAndRead` changes the target and the trace only -/

@[simp] theorem selectAndRead_params (p : SharedPort) : (s.selectAndRead p).params = s.params := rfl
@[simp] theorem selectAndRead_cmd (p : SharedPort) : (s.selectAndRead p).cmd = s.cmd := rfl
@[simp] theorem selectAndRead_a0 (p : SharedPort) : (s.selectAndRead p).a0 = s.a0 := rfl
@[simp] theorem selectAndRead_a1 (p : SharedPort) : (s.selectAndRead p).a1 = s.a1 := rfl
@[simp] theorem selectAndRead_a2 (p : SharedPort) : (s.selectAndRead p).a2 = s.a2 := rfl
@[simp] theorem selectAndRead_a3 (p : SharedPort) : (s.selectAndRead p).a3 = s.a3 := rfl
@[simp] theorem selectAndRead_desc (p : SharedPort) : (s.selectAndRead p).desc = s.desc := rfl
@[simp] theorem selectAndRead_r0 (p : SharedPort) : (s.selectAndRead p).r0 = s.r0 := rfl
@[simp] theorem selectAndRead_r1 (p : SharedPort) : (s.selectAndRead p).r1 = s.r1 := rfl
@[simp] theorem selectAndRead_status (p : SharedPort) : (s.selectAndRead p).status = s.status := rfl
@[simp] theorem selectAndRead_engine (p : SharedPort) : (s.selectAndRead p).engine = s.engine := rfl
@[simp] theorem selectAndRead_nt (p : SharedPort) : (s.selectAndRead p).nt = s.nt := rfl
@[simp] theorem selectAndRead_host (p : SharedPort) : (s.selectAndRead p).host = s.host := rfl

end Sys2Proof.Laws
end

