-- ==== Sys2Proof/Laws/Ops.lean ====
section
/-! SUPPORT. What each shared operation can do, said once: bus accesses as events, polls and ends of commands as case
distinctions, rates as reads and select writes. -/

namespace Sys2Proof.Laws

open Machine

/-! ## Events -/

@[simp] theorem replay_nil (t : Target) : t.replay [] = t := rfl

@[simp] theorem replay_cons (t : Target) (e : BusEvent) (evs : List BusEvent) :
    t.replay (e :: evs) = (t.replayOne e).replay evs := rfl

@[simp] theorem replay_append (t : Target) (e₁ e₂ : List BusEvent) :
    t.replay (e₁ ++ e₂) = (t.replay e₁).replay e₂ := by
  simp [Target.replay]

@[simp] theorem replayOne_read (t : Target) (a v : Word) : t.replayOne (.read a v) = t.afterRead := rfl

@[simp] theorem replayOne_write (t : Target) (a v : Word) : t.replayOne (.write a v) = t.afterWrite a v := rfl

@[simp] theorem replayOne_settle (t : Target) : t.replayOne .settle = t := rfl

@[simp] theorem afterEvents_nil (s : State) : afterEvents s [] = s := by
  simp [afterEvents]

@[simp] theorem afterEvents_afterEvents (s : State) (e₁ e₂ : List BusEvent) :
    afterEvents (afterEvents s e₁) e₂ = afterEvents s (e₁ ++ e₂) := by
  simp [afterEvents]

theorem explained_append (t : Target) (e₁ e₂ : List BusEvent) :
    Explained t (e₁ ++ e₂) ↔ Explained t e₁ ∧ Explained (t.replay e₁) e₂ := by
  induction e₁ generalizing t with
  | nil => simp [Explained]
  | cons e rest ih => cases e <;> simp [Explained, ih, and_assoc]

/-! ## Bus accesses as events -/

theorem memRead_eq (s : State) (a : Word) : s.memRead a = afterEvents s [.read a (s.target.answer a)] := rfl

theorem memWrite_eq (s : State) (a v : Word) : s.memWrite a v = afterEvents s [.write a v] := rfl

theorem settle_eq (s : State) : s.settle = afterEvents s [.settle] := rfl

theorem regRead_eq (s : State) (b o : Word) :
    s.regRead b o = afterEvents s [.read (busAddr b o) (s.target.answer (busAddr b o))] := rfl

theorem regWrite_eq (s : State) (b o v : Word) : s.regWrite b o v = afterEvents s [.write (busAddr b o) v] := rfl

/-- `RegUpdate` is one read, then one write of the merged value (R112). -/
theorem regUpdate_eq (s : State) (b o m x : Word) :
    s.regUpdate b o m x =
      afterEvents s [.read (busAddr b o) (s.target.answer (busAddr b o)),
        .write (busAddr b o) ((s.target.answer (busAddr b o) &&& ~~~ m) ||| (x &&& m))] := by
  simp [State.regUpdate, regRead_eq, regWrite_eq, State.updateValue, State.regValue, State.memValue]

/-! ## A run of accesses: what is reached by bus events alone -/

/-- The second state is the first with some more bus events, every read among them answered by the target. -/
def Traced (s t : State) : Prop := ∃ evs, t = afterEvents s evs ∧ Explained s.target evs

theorem traced_refl (s : State) : Traced s s := ⟨[], by simp, trivial⟩

theorem traced_trans {s t u : State} (h₁ : Traced s t) (h₂ : Traced t u) : Traced s u := by
  obtain ⟨e₁, rfl, x₁⟩ := h₁
  obtain ⟨e₂, rfl, x₂⟩ := h₂
  exact ⟨e₁ ++ e₂, by simp, (explained_append _ _ _).2 ⟨x₁, x₂⟩⟩

theorem memRead_traced (s : State) (a : Word) : Traced s (s.memRead a) :=
  ⟨_, memRead_eq s a, rfl, trivial⟩

theorem memWrite_traced (s : State) (a v : Word) : Traced s (s.memWrite a v) :=
  ⟨_, memWrite_eq s a v, trivial⟩

theorem settle_traced (s : State) : Traced s s.settle := ⟨_, settle_eq s, trivial⟩

theorem regRead_traced (s : State) (b o : Word) : Traced s (s.regRead b o) := memRead_traced s _

theorem regWrite_traced (s : State) (b o v : Word) : Traced s (s.regWrite b o v) := memWrite_traced s _ _

theorem regUpdate_traced (s : State) (b o m x : Word) : Traced s (s.regUpdate b o m x) :=
  traced_trans (regRead_traced s b o) (regWrite_traced _ _ _ _)

theorem fieldSet_traced (s : State) (b : Word) (f : FieldDesc) (v : Nat) : Traced s (s.fieldSet b f v) :=
  regUpdate_traced s _ _ _ _

theorem strobe_traced (s : State) (b : Word) (f : FieldDesc) : Traced s (s.strobe b f) :=
  regUpdate_traced s _ _ _ _

theorem readAll_traced (s : State) (b : Word) (os : List Word) : Traced s (s.readAll b os) := by
  induction os generalizing s with
  | nil => exact traced_refl s
  | cons o os ih => exact traced_trans (regRead_traced s b o) (ih _)

theorem fieldsGet_traced (s : State) (b : Word) (fs : List FieldDesc) : Traced s (s.fieldsGet b fs) :=
  readAll_traced s b _

theorem foldl_traced {α : Type} (f : State → α → State) (hf : ∀ s a, Traced s (f s a)) (l : List α) (s : State) :
    Traced s (l.foldl f s) := by
  induction l generalizing s with
  | nil => exact traced_refl s
  | cons a l ih => exact traced_trans (hf s a) (ih _)

theorem fieldsSet_traced (s : State) (b : Word) (fvs : List (FieldDesc × Nat)) : Traced s (s.fieldsSet b fvs) :=
  foldl_traced _ (fun _ _ => regUpdate_traced _ _ _ _ _) _ s

theorem selectId_traced (s : State) (p : SharedPort) : Traced s (s.selectId p) := regWrite_traced s _ _ _

theorem configure_traced (s : State) (p : SharedPort) (m x : Word) : Traced s (s.configure p m x) :=
  regUpdate_traced s _ _ _ _

theorem selectAndRead_traced (s : State) (p : SharedPort) : Traced s (s.selectAndRead p) :=
  traced_trans (selectId_traced s p) (regRead_traced _ _ _)

theorem analogEnable_traced (s : State) (b : Word) (f : Option FieldDesc) : Traced s (s.analogEnable b f) := by
  cases f with
  | none => exact traced_refl s
  | some f => exact traced_trans (fieldSet_traced s b f 1) (settle_traced _)

theorem strobeOptional_traced (s : State) (b : Word) (f : Option FieldDesc) : Traced s (s.strobeOptional b f) := by
  cases f with
  | none => exact traced_refl s
  | some f => exact strobe_traced s b f

theorem clearSysen_traced (s : State) (n : MckNode) : Traced s (s.clearSysen n) := by
  unfold State.clearSysen
  cases n.sysen with
  | none => exact traced_refl s
  | some f => exact fieldSet_traced s _ f 0

theorem writeSelect_traced (s : State) (n : ProgNode) (lo x : Nat) : Traced s (s.writeSelect n lo x) := by
  unfold State.writeSelect
  cases n.ext with
  | none => exact fieldSet_traced s _ _ _
  | some f => exact fieldsSet_traced s _ _

theorem discover_traced (s : State) (d : NodeData) : Traced s (s.discover d) := by
  cases d <;> first
    | exact traced_refl s
    | exact regRead_traced s _ _
    | exact selectAndRead_traced s _
    | exact fieldsGet_traced s _ _

/-! ## What a traced run leaves unchanged -/

section
variable {s t : State} (h : Traced s t)
include h
theorem traced_params : t.params = s.params := by obtain ⟨_, rfl, _⟩ := h; rfl
theorem traced_cmd : t.cmd = s.cmd := by obtain ⟨_, rfl, _⟩ := h; rfl
theorem traced_a0 : t.a0 = s.a0 := by obtain ⟨_, rfl, _⟩ := h; rfl
theorem traced_a1 : t.a1 = s.a1 := by obtain ⟨_, rfl, _⟩ := h; rfl
theorem traced_a2 : t.a2 = s.a2 := by obtain ⟨_, rfl, _⟩ := h; rfl
theorem traced_a3 : t.a3 = s.a3 := by obtain ⟨_, rfl, _⟩ := h; rfl
theorem traced_desc : t.desc = s.desc := by obtain ⟨_, rfl, _⟩ := h; rfl
theorem traced_r0 : t.r0 = s.r0 := by obtain ⟨_, rfl, _⟩ := h; rfl
theorem traced_r1 : t.r1 = s.r1 := by obtain ⟨_, rfl, _⟩ := h; rfl
theorem traced_status : t.status = s.status := by obtain ⟨_, rfl, _⟩ := h; rfl
theorem traced_engine : t.engine = s.engine := by obtain ⟨_, rfl, _⟩ := h; rfl
theorem traced_nt : t.nt = s.nt := by obtain ⟨_, rfl, _⟩ := h; rfl
theorem traced_host : t.host = s.host := by obtain ⟨_, rfl, _⟩ := h; rfl
end

/-! ## Polls and the ends of commands -/

/-- What one poll read does (R117, R118): the command completes, or stays in the poll. -/
theorem poll_cases (s : State) (p : Poll) :
    (p.exits (s.target.answer p.addr) = true ∧ s.poll p = (s.memRead p.addr).finish p.node p.next) ∨
      (p.exits (s.target.answer p.addr) = false ∧ s.poll p = { s.memRead p.addr with engine := .polling p }) := by
  cases h : p.exits (s.target.answer p.addr)
  · exact .inr ⟨rfl, by simp [State.poll, State.memValue, h]⟩
  · exact .inl ⟨rfl, by simp [State.poll, State.memValue, h]⟩

/-- What `SelectThenConfigure` does (R121): select, configure, and the optional poll or the end. -/
theorem selectThenConfigure_cases (s : State) (node : ClockId) (p : SharedPort) (m x : Word) (c : Completion) :
    (∃ ready, p.ready = some ready ∧ p.en.extract ((s.selectId p).configureValue p m x) = 1 ∧
        s.selectThenConfigure node p m x c = ((s.selectId p).configure p m x).pollField node p.base ready true c) ∨
      ((p.ready = none ∨ p.en.extract ((s.selectId p).configureValue p m x) ≠ 1) ∧
        s.selectThenConfigure node p m x c = ((s.selectId p).configure p m x).finish node c) := by
  unfold State.selectThenConfigure State.pollOptional
  by_cases he : p.en.extract ((s.selectId p).configureValue p m x) = 1
  · cases hr : p.ready with
    | none => exact .inr ⟨.inl rfl, by simp [he]⟩
    | some f => exact .inl ⟨f, rfl, he, by simp [he]⟩
  · exact .inr ⟨.inr he, by simp [he]⟩

/-- What a prologue that passes says (R242). -/
theorem prologue_eq_some {α : Type} (s : State) (proj : NodeData → Option α) (node : ClockId) (fl : NodeFlags)
    (n : α) :
    s.prologue proj node = some (fl, n) ↔
      wellFormedId node = true ∧ ∃ e, s.nt.lookup node = some e ∧ proj e.data = some n ∧ e.flags = fl := by
  unfold State.prologue
  by_cases hw : wellFormedId node = true
  · cases hl : s.nt.lookup node with
    | none => simp [hw]
    | some e =>
      simp only [hw, if_true, Option.map_eq_some_iff, Prod.mk.injEq, true_and, Option.some.injEq]
      constructor
      · rintro ⟨a, h1, rfl, rfl⟩
        exact ⟨e, rfl, h1, rfl⟩
      · rintro ⟨_, rfl, h1, rfl⟩
        exact ⟨n, h1, rfl, rfl⟩
  · simp [hw]

/-- A command that needs its parent's rate either is stopped by it or goes on with it (R266). -/
theorem withRate_cases (s : State) (id : ClockId) (k : Nat → State → Outcome) :
    (∃ s₁ x, s.rate id = (s₁, .error x) ∧ s.withRate id k = s₁.stop x) ∨
      (∃ s₁ r, s.rate id = (s₁, .ok r) ∧ s.withRate id k = k r s₁) := by
  rcases h : s.rate id with ⟨s₁, x | r⟩
  · exact .inl ⟨s₁, x, rfl, by simp [State.withRate, h]⟩
  · exact .inr ⟨s₁, r, rfl, by simp [State.withRate, h]⟩

/-! ## Rates -/

theorem readback_traced (d : NodeData) (r : Nat) (s : State) : Traced s (readback d r s).1 := by
  cases d with
  | fpll n => exact fieldsGet_traced s _ _
  | dpll n => exact regRead_traced s _ _
  | mck n => exact fieldsGet_traced s _ _
  | gck n => exact selectAndRead_traced s _
  | peri n => exact traced_refl s
  | prog n => exact regRead_traced s _ _
  | osc n => exact traced_refl s

/-- A rate query changes nothing but by its bus accesses (R240). -/
theorem rateIn_traced (nt : NodeTable) (id : ClockId) (s : State) : Traced s (rateIn nt id s).1 := by
  induction nt generalizing id s with
  | nil => exact traced_refl s
  | cons e older ih =>
    unfold rateIn
    by_cases he : e.id = id
    · cases hp : e.data.parent? with
      | none => simpa [he, hp] using readback_traced e.data 0 s
      | some p =>
        rcases hr : rateIn older p s with ⟨s₁, x | r⟩
        · have := ih p s
          simpa [he, hp, hr] using this
        · have h₁ : Traced s s₁ := by simpa [hr] using ih p s
          simpa [he, hp, hr] using traced_trans h₁ (readback_traced e.data r s₁)
    · simpa [he] using ih id s

theorem rate_traced (s : State) (id : ClockId) : Traced s (s.rate id).1 := rateIn_traced s.nt id s

theorem gckSearch_traced (target : Nat) (pids : List ClockId) (best : Option Candidate) (s : State) :
    Traced s (gckSearch target pids best s).1 := by
  induction pids generalizing best s with
  | nil => exact traced_refl s
  | cons pid rest ih =>
    have h := rate_traced s pid
    unfold gckSearch
    rcases hr : s.rate pid with ⟨s₁, x | r⟩
    · simpa [hr] using h
    · simp only [hr] at h ⊢
      exact traced_trans h (ih _ _)

end Sys2Proof.Laws
end

