-- ==== Sys2Proof/Laws/Events.lean ====
section
/-! SUPPORT. The operations in the words of bus events, the form in which the statements are written: what each adds to
the trace when it follows some events. -/

namespace Sys2Proof.Laws

open Machine

/-! ## Reads and updates -/

/-- `FieldSet` (R116) is one update. -/
theorem fieldSet_afterEvents (s : State) (evs : List BusEvent) (base : Word) (f : FieldDesc) (v : Nat) :
    (afterEvents s evs).fieldSet base f v = afterEvents s (thenSet s evs base f v) := by
  simp [State.fieldSet, regUpdate_eq, thenSet, updateEvents, readAfter, afterEvents]

/-- `Strobe` (R119) is one update. -/
theorem strobe_afterEvents (s : State) (evs : List BusEvent) (base : Word) (f : FieldDesc) :
    (afterEvents s evs).strobe base f = afterEvents s (thenStrobe s evs base f) := by
  simp [State.strobe, regUpdate_eq, thenStrobe, updateEvents, readAfter, afterEvents]

/-- An analog enable (R144) is one update and a settle marker. -/
theorem analogEnable_afterEvents (s : State) (evs : List BusEvent) (base : Word) (f : Option FieldDesc) :
    (afterEvents s evs).analogEnable base f = afterEvents s (thenAnalog s evs base f) := by
  cases f <;> simp [State.analogEnable, thenAnalog, fieldSet_afterEvents, settle_eq]

/-- The select write and the read of the shared command register (R197). -/
theorem selectAndRead_eq (s : State) (p : SharedPort) :
    s.selectAndRead p =
      afterEvents s
        [.write (busAddr p.base p.idsel.off) (p.idsel.place p.hwId),
          .read (busAddr p.base p.idsel.off)
            (readAfter s [.write (busAddr p.base p.idsel.off) (p.idsel.place p.hwId)]
              (busAddr p.base p.idsel.off))] := by
  rw [State.selectAndRead, State.selectId, regRead_eq, regWrite_eq, afterEvents_afterEvents]; rfl

/-! ## The ends of commands -/

/-- A poll from its first read (R117, R118). -/
theorem pollField_eq (s : State) (node : ClockId) (base : Word) (f : FieldDesc) (awaited : Bool) (c : Completion) :
    s.pollField node base f awaited c =
      pollAfter s [] { node := node, addr := busAddr base f.off, mask := f.mask, awaited := awaited, next := c } := by
  have key : ∀ w : Word,
      (((w &&& f.mask != 0) == awaited) = true) ↔ ((w &&& f.mask ≠ 0) ↔ awaited = true) := by
    intro w
    cases awaited <;> by_cases h : w &&& f.mask = 0 <;> simp [h]
  by_cases h : (s.target.answer (busAddr base f.off) &&& f.mask ≠ 0) ↔ awaited = true
  · exact (if_pos ((key _).2 h)).trans (if_pos h).symm
  · exact (if_neg (fun x => h ((key _).1 x))).trans (if_neg h).symm

theorem pollAfter_afterEvents (s : State) (evs evs' : List BusEvent) (p : Poll) :
    pollAfter (afterEvents s evs) evs' p = pollAfter s (evs ++ evs') p := by
  unfold pollAfter
  simp [readAfter, afterEvents]

theorem pollField_afterEvents (s : State) (evs : List BusEvent) (node : ClockId) (base : Word) (f : FieldDesc)
    (awaited : Bool) (c : Completion) :
    (afterEvents s evs).pollField node base f awaited c =
      pollAfter s evs
        { node := node, addr := busAddr base f.off, mask := f.mask, awaited := awaited, next := c } := by
  rw [pollField_eq, pollAfter_afterEvents, List.append_nil]

theorem finish_eq (s : State) (node : ClockId) (c : Completion) : s.finish node c = completed s node c := rfl

theorem pollOptional_afterEvents (s : State) (evs : List BusEvent) (node : ClockId) (base : Word)
    (ready : Option FieldDesc) (c : Completion) :
    (afterEvents s evs).pollOptional node base ready c = optionalPoll s evs node base ready c := by
  cases ready <;> simp [State.pollOptional, optionalPoll, pollField_afterEvents, finish_eq]

/-- `SelectThenConfigure` and the end of its command (R121). -/
theorem selectThenConfigure_eq (s : State) (node : ClockId) (p : SharedPort) (m x : Word) (c : Completion) :
    s.selectThenConfigure node p m x c = sharedOutcome s node p m x c := by
  have hsel : s.selectId p = afterEvents s [.write (busAddr p.base p.idsel.off) (p.idsel.place p.hwId)] := by
    simp [State.selectId, regWrite_eq]
  have hval : (s.selectId p).configureValue p m x =
      (readAfter s [.write (busAddr p.base p.idsel.off) (p.idsel.place p.hwId)] (busAddr p.base p.idsel.off) &&&
          ~~~ (m ||| p.strobe.mask)) ||| ((x ||| p.strobe.mask) &&& (m ||| p.strobe.mask)) := by
    rw [hsel]; rfl
  have hcfg : (s.selectId p).configure p m x = afterEvents s (selectConfigureEvents s [] p m x) := by
    rw [hsel, State.configure, regUpdate_eq, afterEvents_afterEvents]; rfl
  have htake : (selectConfigureEvents s [] p m x).take 1 =
      [.write (busAddr p.base p.idsel.off) (p.idsel.place p.hwId)] := rfl
  unfold sharedOutcome State.selectThenConfigure
  simp only [hval, hcfg, State.pollOptional, htake]
  cases p.ready with
  | none => simp [finish_eq]
  | some f => simp only [pollField_afterEvents, finish_eq]

/-! ## Registered nodes, runs -/

/-- The prologue on a registered node is the kind's projection (R242). -/
theorem prologue_of_registered {α : Type} {s : State} {node : ClockId} {flags : NodeFlags} {d : NodeData}
    (h : Registered s node flags d) (proj : NodeData → Option α) :
    s.prologue proj node = (proj d).map (fun n => (flags, n)) := by
  obtain ⟨hw, hl⟩ := h
  simp [State.prologue, hw, hl]

theorem dispatchKind_of_registered {s : State} {node : ClockId} {flags : NodeFlags} {d : NodeData}
    (h : Registered s node flags d) : s.dispatchKind node = some d.kind := by
  obtain ⟨hw, hl⟩ := h
  simp [State.dispatchKind, State.prologue, hw, hl]

/-- A run whose first step goes on. -/
theorem run_succ_of_step (M : Host.Core) (n : Nat) (s t : M.State) (h : M.step s = .next t) :
    M.run (n + 1) s = M.run n t := by
  simp [Host.Core.run, h]

end Sys2Proof.Laws
end

