-- ==== Sys2Proof/Laws/PerInstr.lean ====
section
/-! SUPPORT. The families of lemmas with one lemma per constructor of `Instr`. -/

namespace Sys2Proof.Laws

/-- The opcode of a command selects that command, and its `node` field comes back (R81, R83, R84). -/
def EncodingLaw.Statement (i : Instr) : Prop :=
  commandOf (opcodeOf i).toNat i.node = some i ∧ nodeField (encode i) = i.node ∧ opField (encode i) = opcodeOf i

theorem encodingLaw_of_command (i : Instr) (h : commandOf (opcodeOf i).toNat i.node = some i) :
    EncodingLaw.Statement i :=
  ⟨h, nodeField_packed _ _ _, opField_packed _ _ _⟩

theorem EncodingLaw.regRead (n : ClockId) : EncodingLaw.Statement (.regRead n) := encodingLaw_of_command _ rfl
theorem EncodingLaw.regWrite (n : ClockId) : EncodingLaw.Statement (.regWrite n) := encodingLaw_of_command _ rfl
theorem EncodingLaw.regUpdate (n : ClockId) : EncodingLaw.Statement (.regUpdate n) := encodingLaw_of_command _ rfl
theorem EncodingLaw.muxP2s (n : ClockId) : EncodingLaw.Statement (.muxP2s n) := encodingLaw_of_command _ rfl
theorem EncodingLaw.muxS2i (n : ClockId) : EncodingLaw.Statement (.muxS2i n) := encodingLaw_of_command _ rfl
theorem EncodingLaw.nodeRegister (n : ClockId) : EncodingLaw.Statement (.nodeRegister n) := encodingLaw_of_command _ rfl
theorem EncodingLaw.nodeResolve (n : ClockId) : EncodingLaw.Statement (.nodeResolve n) := encodingLaw_of_command _ rfl
theorem EncodingLaw.fpllEnable (n : ClockId) : EncodingLaw.Statement (.fpllEnable n) := encodingLaw_of_command _ rfl
theorem EncodingLaw.fpllDisable (n : ClockId) : EncodingLaw.Statement (.fpllDisable n) := encodingLaw_of_command _ rfl
theorem EncodingLaw.fpllGetRate (n : ClockId) : EncodingLaw.Statement (.fpllGetRate n) := encodingLaw_of_command _ rfl
theorem EncodingLaw.fpllSetRate (n : ClockId) : EncodingLaw.Statement (.fpllSetRate n) := encodingLaw_of_command _ rfl
theorem EncodingLaw.fpllSetParent (n : ClockId) : EncodingLaw.Statement (.fpllSetParent n) := encodingLaw_of_command _ rfl
theorem EncodingLaw.dpllEnable (n : ClockId) : EncodingLaw.Statement (.dpllEnable n) := encodingLaw_of_command _ rfl
theorem EncodingLaw.dpllDisable (n : ClockId) : EncodingLaw.Statement (.dpllDisable n) := encodingLaw_of_command _ rfl
theorem EncodingLaw.dpllGetRate (n : ClockId) : EncodingLaw.Statement (.dpllGetRate n) := encodingLaw_of_command _ rfl
theorem EncodingLaw.dpllSetRate (n : ClockId) : EncodingLaw.Statement (.dpllSetRate n) := encodingLaw_of_command _ rfl
theorem EncodingLaw.dpllSetParent (n : ClockId) : EncodingLaw.Statement (.dpllSetParent n) := encodingLaw_of_command _ rfl
theorem EncodingLaw.mckEnable (n : ClockId) : EncodingLaw.Statement (.mckEnable n) := encodingLaw_of_command _ rfl
theorem EncodingLaw.mckDisable (n : ClockId) : EncodingLaw.Statement (.mckDisable n) := encodingLaw_of_command _ rfl
theorem EncodingLaw.mckGetRate (n : ClockId) : EncodingLaw.Statement (.mckGetRate n) := encodingLaw_of_command _ rfl
theorem EncodingLaw.mckSetRate (n : ClockId) : EncodingLaw.Statement (.mckSetRate n) := encodingLaw_of_command _ rfl
theorem EncodingLaw.mckSetParent (n : ClockId) : EncodingLaw.Statement (.mckSetParent n) := encodingLaw_of_command _ rfl
theorem EncodingLaw.gckEnable (n : ClockId) : EncodingLaw.Statement (.gckEnable n) := encodingLaw_of_command _ rfl
theorem EncodingLaw.gckDisable (n : ClockId) : EncodingLaw.Statement (.gckDisable n) := encodingLaw_of_command _ rfl
theorem EncodingLaw.gckGetRate (n : ClockId) : EncodingLaw.Statement (.gckGetRate n) := encodingLaw_of_command _ rfl
theorem EncodingLaw.gckSetRate (n : ClockId) : EncodingLaw.Statement (.gckSetRate n) := encodingLaw_of_command _ rfl
theorem EncodingLaw.gckSetParent (n : ClockId) : EncodingLaw.Statement (.gckSetParent n) := encodingLaw_of_command _ rfl
theorem EncodingLaw.periEnable (n : ClockId) : EncodingLaw.Statement (.periEnable n) := encodingLaw_of_command _ rfl
theorem EncodingLaw.periDisable (n : ClockId) : EncodingLaw.Statement (.periDisable n) := encodingLaw_of_command _ rfl
theorem EncodingLaw.periGetRate (n : ClockId) : EncodingLaw.Statement (.periGetRate n) := encodingLaw_of_command _ rfl
theorem EncodingLaw.periSetRate (n : ClockId) : EncodingLaw.Statement (.periSetRate n) := encodingLaw_of_command _ rfl
theorem EncodingLaw.periSetParent (n : ClockId) : EncodingLaw.Statement (.periSetParent n) := encodingLaw_of_command _ rfl
theorem EncodingLaw.progEnable (n : ClockId) : EncodingLaw.Statement (.progEnable n) := encodingLaw_of_command _ rfl
theorem EncodingLaw.progDisable (n : ClockId) : EncodingLaw.Statement (.progDisable n) := encodingLaw_of_command _ rfl
theorem EncodingLaw.progGetRate (n : ClockId) : EncodingLaw.Statement (.progGetRate n) := encodingLaw_of_command _ rfl
theorem EncodingLaw.progSetRate (n : ClockId) : EncodingLaw.Statement (.progSetRate n) := encodingLaw_of_command _ rfl
theorem EncodingLaw.progSetParent (n : ClockId) : EncodingLaw.Statement (.progSetParent n) := encodingLaw_of_command _ rfl
theorem EncodingLaw.oscEnable (n : ClockId) : EncodingLaw.Statement (.oscEnable n) := encodingLaw_of_command _ rfl
theorem EncodingLaw.oscDisable (n : ClockId) : EncodingLaw.Statement (.oscDisable n) := encodingLaw_of_command _ rfl
theorem EncodingLaw.oscGetRate (n : ClockId) : EncodingLaw.Statement (.oscGetRate n) := encodingLaw_of_command _ rfl
theorem EncodingLaw.oscSetRate (n : ClockId) : EncodingLaw.Statement (.oscSetRate n) := encodingLaw_of_command _ rfl
theorem EncodingLaw.oscSetParent (n : ClockId) : EncodingLaw.Statement (.oscSetParent n) := encodingLaw_of_command _ rfl
theorem EncodingLaw.enable (n : ClockId) : EncodingLaw.Statement (.enable n) := encodingLaw_of_command _ rfl
theorem EncodingLaw.disable (n : ClockId) : EncodingLaw.Statement (.disable n) := encodingLaw_of_command _ rfl
theorem EncodingLaw.getRate (n : ClockId) : EncodingLaw.Statement (.getRate n) := encodingLaw_of_command _ rfl
theorem EncodingLaw.setRate (n : ClockId) : EncodingLaw.Statement (.setRate n) := encodingLaw_of_command _ rfl
theorem EncodingLaw.setParent (n : ClockId) : EncodingLaw.Statement (.setParent n) := encodingLaw_of_command _ rfl

end Sys2Proof.Laws
end

