-- ==== Sys2Proof/Laws/Storage.lean ====
section
/-! SUPPORT. The storage laws: reading after writing, and every memory operation keeps the canonical form. -/

namespace Sys2Proof.Laws

open Machine

/-! ## Sparse storage -/

theorem cellGet_cellPut {β : Type} (k j : Nat) (v : β) (l : List (Nat × β)) :
    cellGet j (cellPut k v l) = if j = k then some v else cellGet j l := by
  induction l with
  | nil =>
    by_cases h : j = k
    · simp [cellPut, cellGet, h]
    · simp [cellPut, cellGet, h, Ne.symm h]
  | cons c rest ih =>
    unfold cellPut
    split
    · by_cases h : j = k
      · simp [cellGet, h]
      · simp [cellGet, h, Ne.symm h]
    · split
      · rename_i h
        by_cases hj : j = k
        · simp [cellGet, hj]
        · have : ¬ c.1 = j := fun he => hj (he.symm.trans h.symm)
          simp [cellGet, hj, Ne.symm hj, this]
      · rename_i h
        by_cases hj : j = k
        · subst hj
          have : ¬ c.1 = j := fun he => h he.symm
          simp [cellGet, ih, this]
        · by_cases hc : c.1 = j <;> simp [cellGet, ih, hj, hc]

theorem cellPut_bound {β : Type} (b k : Nat) (v : β) (l : List (Nat × β)) (hb : b < k)
    (h : l.all (fun d => decide (b < d.1)) = true) :
    (cellPut k v l).all (fun d => decide (b < d.1)) = true := by
  induction l with
  | nil => simp [cellPut, hb]
  | cons c rest ih =>
    simp only [List.all_cons, Bool.and_eq_true, decide_eq_true_eq] at h
    unfold cellPut
    split
    · simp [hb, h.1, h.2]
    · split
      · simp [hb, h.2]
      · simp [h.1, ih h.2]

/-- Writing keeps the keys strictly rising. -/
theorem cellPut_wf {β : Type} (k : Nat) (v : β) (l : List (Nat × β)) (h : cellsWf l = true) :
    cellsWf (cellPut k v l) = true := by
  induction l with
  | nil => simp [cellPut, cellsWf]
  | cons c rest ih =>
    simp only [cellsWf, Bool.and_eq_true] at h
    unfold cellPut
    split
    · rename_i hk
      simp only [cellsWf, Bool.and_eq_true, List.all_cons, decide_eq_true_eq]
      refine ⟨⟨hk, ?_⟩, h.1, h.2⟩
      simp only [List.all_eq_true, decide_eq_true_eq] at h ⊢
      exact fun d hd => Nat.lt_trans hk (h.1 d hd)
    · split
      · rename_i hk
        subst hk
        simp [cellsWf, h.1, h.2]
      · rename_i h₁ h₂
        simp only [cellsWf, Bool.and_eq_true]
        exact ⟨cellPut_bound c.1 k v rest (by omega) h.1, ih h.2⟩

/-! ## Memory -/

theorem writeByte_wf (a : Nat) (v : Byte) (m : Memory) (h : m.wf = true) : (m.writeByte a v).wf = true :=
  cellPut_wf a v m h

/-- Writing a word keeps the canonical form of memory. -/
theorem writeWord_wf (a v : Word) (m : Memory) (h : m.wf = true) : (m.writeWord a v).wf = true := by
  unfold Memory.writeWord
  exact writeByte_wf _ _ _ (writeByte_wf _ _ _ (writeByte_wf _ _ _ (writeByte_wf _ _ _ h)))

theorem readByte_writeByte (a b : Nat) (v : Byte) (m : Memory) :
    (m.writeByte a v).readByte b = if b = a then v else m.readByte b := by
  unfold Memory.readByte Memory.writeByte
  rw [cellGet_cellPut]
  by_cases h : b = a <;> simp [h]

/-- A word written leaves every byte outside its four as it was. -/
theorem readByte_writeWord (a v : Word) (b : Nat) (m : Memory) (h : ¬ (a.toNat ≤ b ∧ b < a.toNat + 4)) :
    (m.writeWord a v).readByte b = m.readByte b := by
  unfold Memory.writeWord
  simp only [readByte_writeByte]
  rw [if_neg (by omega), if_neg (by omega), if_neg (by omega), if_neg (by omega)]

/-- A word written reads back. -/
theorem readWord_writeWord (a v : Word) (m : Memory) : (m.writeWord a v).readWord a = v := by
  unfold Memory.readWord Memory.writeWord
  simp only [readByte_writeByte]
  simp only [Nat.add_right_cancel_iff, Nat.left_eq_add, Nat.add_eq_left, Nat.reduceEqDiff, Nat.succ_ne_self, if_true,
    if_false]
  ext i hi
  simp only [BitVec.getElem_append, BitVec.getElem_extractLsb']
  split
  · simp [BitVec.getLsbD_eq_getElem (by omega : i < 32)]
  · split
    · rw [show 8 + (i - 8) = i by omega]
      simp [BitVec.getLsbD_eq_getElem (by omega : i < 32)]
    · split
      · rw [show 16 + (i - 8 - 8) = i by omega]
        simp [BitVec.getLsbD_eq_getElem (by omega : i < 32)]
      · rw [show 24 + (i - 8 - 8 - 8) = i by omega]
        simp [BitVec.getLsbD_eq_getElem (by omega : i < 32)]

/-- Words at addresses four or more apart do not touch. -/
theorem readWord_writeWord_ne (a b v : Word) (m : Memory)
    (h : a.toNat + 4 ≤ b.toNat ∨ b.toNat + 4 ≤ a.toNat) : (m.writeWord a v).readWord b = m.readWord b := by
  unfold Memory.readWord
  rw [readByte_writeWord, readByte_writeWord, readByte_writeWord, readByte_writeWord] <;> omega

theorem inUseByte_writeByte (a b : Nat) (v : Byte) (m : Memory) :
    (m.writeByte a v).inUseByte b = if b = a then v else m.inUseByte b := by
  unfold Memory.inUseByte Memory.writeByte
  rw [cellGet_cellPut]
  by_cases h : b = a <;> simp [h]

/-- A byte written reads the same as storage and as what is in use; only a byte never written may differ. -/
theorem inUseWord_writeWord (a v : Word) (m : Memory) : (m.writeWord a v).inUseWord a = v := by
  refine Eq.trans ?_ (readWord_writeWord a v m)
  unfold Memory.inUseWord Memory.readWord Memory.writeWord
  simp [inUseByte_writeByte, readByte_writeByte]

/-- Words in use at addresses four or more apart do not touch. -/
theorem inUseWord_writeWord_ne (a b v : Word) (m : Memory)
    (h : a.toNat + 4 ≤ b.toNat ∨ b.toNat + 4 ≤ a.toNat) : (m.writeWord a v).inUseWord b = m.inUseWord b := by
  unfold Memory.inUseWord Memory.writeWord
  simp only [inUseByte_writeByte]
  repeat rw [if_neg (by omega)]

/-! ## The target's storage -/

/-- Which registers a write takes into use (R34, R61): itself where the map says so, and what the strobes it sets
commit. -/
theorem mem_taken (r : RegSpec) (v c : Word) :
    c ∈ r.taken v ↔ r.direct = true ∧ c = r.addr ∨ ∃ st ∈ r.strobes, v &&& st.mask ≠ 0 ∧ c ∈ st.commits := by
  cases h : r.direct <;> simp [RegSpec.taken, h, and_assoc]

/-- The canonical form of the four kinds of storage. -/
def TargetWf (t : Target) : Prop :=
  t.mem.wf = true ∧ t.latched.wf = true ∧ cellsWf t.selected = true ∧ cellsWf t.applied = true

theorem afterRead_wf (t : Target) (h : TargetWf t) : TargetWf t.afterRead := h

theorem writeWords_wf (f : Word → Word) (cs : List Word) (m : Memory) (h : m.wf = true) :
    Memory.wf (cs.foldl (fun m c => m.writeWord c (f c)) m) = true := by
  induction cs generalizing m with
  | nil => exact h
  | cons c cs ih => exact ih _ (writeWord_wf c _ m h)

theorem latchedAfter_wf (t : Target) (a v : Word) (h : t.latched.wf = true) : (t.latchedAfter a v).wf = true := by
  unfold Target.latchedAfter
  split
  · exact h
  · exact writeWords_wf _ _ _ h

theorem afterWrite_wf (t : Target) (a v : Word) (h : TargetWf t) : TargetWf (t.afterWrite a v) := by
  obtain ⟨hm, hl, hs, ha⟩ := h
  unfold Target.afterWrite
  split
  · exact ⟨hm, hl, hs, ha⟩
  · exact ⟨writeWord_wf a v _ hm, latchedAfter_wf { t with mem := t.mem.writeWord a v } a v hl, hs, ha⟩
  · refine ⟨hm, hl, cellPut_wf _ _ _ hs, ?_⟩
    dsimp only
    split
    · exact cellPut_wf _ _ _ ha
    · exact ha

theorem replay_wf (t : Target) (evs : List BusEvent) (h : TargetWf t) : TargetWf (t.replay evs) := by
  induction evs generalizing t with
  | nil => exact h
  | cons e rest ih =>
    cases e with
    | read a v => exact ih _ (afterRead_wf t h)
    | write a v => exact ih _ (afterWrite_wf t a v h)
    | settle => exact ih _ h

theorem storageOk_iff (s : State) : s.storageOk = true ↔ TargetWf s.target := by
  simp [State.storageOk, TargetWf, and_assoc]

/-- The storage of the machine after reset has the canonical form. -/
theorem reset_storage_wf : State.reset.target.mem.wf = true := rfl

/-! ## What no access changes of the target -/

@[simp] theorem afterRead_map (t : Target) : t.afterRead.map = t.map := rfl

@[simp] theorem afterWrite_map (t : Target) (a v : Word) : (t.afterWrite a v).map = t.map := by
  unfold Target.afterWrite
  split <;> rfl

theorem replay_map (t : Target) (evs : List BusEvent) : (t.replay evs).map = t.map := by
  induction evs generalizing t with
  | nil => rfl
  | cons e rest ih => cases e <;> simp [ih]

end Sys2Proof.Laws
end

