-- ==== Sys2Proof/Tests/Slice0.lean ====
section
/-! SUPPORT. Tests. The fixture is section 5 of 95_test_vectors.md (the target's status bits are the listed draws);
expected results are that file's. After the tests stand the witnesses: states and operands that meet the hypotheses
of the statements. -/

namespace Sys2Proof.Tests

-- One evaluation at a time: many at once ask for more memory than the check allows.
set_option Elab.async false

open Machine

/-! ## The fixture (95_test_vectors.md section 5) -/

/-- A field descriptor `(off, [hi:lo])`. -/
def field (off : Word) (hi lo : Nat) : FieldDesc :=
  { off := off, mask := BitVec.ofNat 32 ((2 ^ (hi + 1 - lo) - 1) * 2 ^ lo), shift := lo }

/-- The registers of `REFPMC`, each with its storage bits, its commit strobe and what that commits; the registers without
a strobe are taken into use as they are written. -/
def refMap : List RegSpec :=
  [⟨0x1000, .plain 0xFFFFFFFF, [], false⟩, ⟨0x1004, .plain 0xFFFFFFFF, [], false⟩,
    ⟨0x1008, .plain 0, [⟨1, [0x1000, 0x1004]⟩], false⟩, ⟨0x100C, .plain 0, [], false⟩,
    ⟨0x1010, .plain 0x7FFFFFFF, [⟨0x80000000, [0x1010]⟩], false⟩, ⟨0x1014, .plain 0, [], false⟩,
    ⟨0x1018, .plain 0xFFFFFFFF, [], true⟩, ⟨0x1020, .shared 0x7F 0x1000 0x1FF00F00, [], false⟩,
    ⟨0x1024, .plain 0, [], false⟩, ⟨0x1030, .plain 0xFFFFFFFF, [], true⟩, ⟨0x1034, .plain 0xFFFFFFFF, [], true⟩]

/-- Storage with the given words. -/
def words (l : List (Word × Word)) : Memory := l.foldl (fun m p => m.writeWord p.1 p.2) []

/-- `REFPMC` with `0x1000` and `0x1010` holding the given words, and the given answers on its open bits. -/
def target (pll mck : Word) (draws : List Word) : Target :=
  { map := refMap
    mem := words
      [(0x1000, pll), (0x1004, 0), (0x1008, 0), (0x100C, 0), (0x1010, mck), (0x1014, 0), (0x1018, 0xF), (0x1024, 0),
        (0x1030, 0x41), (0x1034, 2)]
    latched := []
    selected := [(0x1020, 0)]
    applied := cellPut (appliedKey 0x1020 34) 0x00500300 [(appliedKey 0x1020 9, 0)]
    havoc := false, draws := draws ++ List.replicate 8 0, drawn := 0 }

/-- A shared-register layout. -/
def port (hwId : Nat) (ready : Option FieldDesc) : SharedPort :=
  { base := 0x1000, hwId := hwId, idsel := field 0x20 6 0, strobe := field 0x20 12 12, en := field 0x20 28 28
    ready := ready }

/-- `core:1`. -/
def fpll : FpllNode :=
  { base := 0x1000, range := ⟨600000000, 1200000000⟩, parent := 0, mul := field 0 31 24, frac := field 0 21 0
    en := field 4 0 0, ready := field 0xC 0 0, strobe := field 8 0 0, bias := some (field 4 18 18)
    bandgap := some (field 4 16 16), regulator := some (field 4 17 17), pll := .disabled }

/-- `core:3`. -/
def dpll : DpllNode :=
  { base := 0x1000, range := ⟨10000000, 800000000⟩, parent := 1, div := field 4 15 8, en := field 4 1 1
    ready := field 0xC 1 1, strobe := field 8 0 0, pll := .disabled }

/-- `core:8`. -/
def mck : MckNode :=
  { base := 0x1000, range := ⟨0, 0⟩, table := ⟨[0, 1, 2, 5], [0x400, 0, 3, 5]⟩, parent := 0, pres := field 0x10 6 4
    mdiv := field 0x10 9 8, mux := field 0x10 2 0, ready := field 0x14 0 0, strobe := some (field 0x10 31 31)
    sysen := some (field 0x18 3 3), divtab := [1, 2, 4, 3], pres3 := some 7, canDisable := true }

/-- `generic:34`. -/
def gck : GckNode :=
  { port := port 34 (some (field 0x24 0 0)), range := ⟨0, 200000000⟩
    table := ⟨[0, 1, 2, 3, 4, 9], [0x400, 0, 8, 3, 5, 6]⟩, extraParents := [6, 5], parent := 3
    div := field 0x20 27 20, mux := field 0x20 11 8 }

/-- `peripheral:9`. -/
def peri : PeriNode := { port := port 9 none, range := ⟨0, 0⟩, parent := 8 }

/-- `system:8`. -/
def prog : ProgNode :=
  { base := 0x1000, range := ⟨0, 0⟩, table := ⟨[0, 1, 2, 3, 4, 8, 9], [0x400, 0, 8, 3, 5, 1, 6]⟩, parent := 0
    mode := .direct, mux := field 0x30 2 0, ext := some (field 0x30 3 3), pres := field 0x30 11 4, ready := none }

/-- `system:9`. -/
def prog2 : ProgNode :=
  { base := 0x1000, range := ⟨0, 0⟩, table := ⟨[0, 1, 2], [0x400, 0, 7]⟩, parent := 7, mode := .pow2
    mux := field 0x34 2 0, ext := none, pres := field 0x34 6 4, ready := none }

/-- Flags, `critical` as given. -/
def flagged (critical : Bool) : NodeFlags := { neverCached := false, critical := critical }

/-- The oscillators that are no FPLL's parent. -/
def oscillators (f : NodeFlags) : NodeTable :=
  [⟨7, f, .osc ⟨12000000⟩⟩, ⟨6, f, .osc ⟨600000000⟩⟩, ⟨5, f, .osc ⟨480000000⟩⟩, ⟨0x400, f, .osc ⟨32768⟩⟩]

/-- The node table after P0, with the given flags on every node and the given rate of `core:0`. -/
def table (f : NodeFlags) (rate : Nat) : NodeTable :=
  [⟨0x109, f, .prog prog2⟩, ⟨0x108, f, .prog prog⟩, ⟨0x209, f, .peri peri⟩, ⟨0x322, f, .gck gck⟩, ⟨8, f, .mck mck⟩,
    ⟨3, f, .dpll dpll⟩, ⟨1, f, .fpll fpll⟩, ⟨0, f, .osc ⟨rate⟩⟩] ++ oscillators f

/-- The state after P0, with `A0` and answers. -/
def ready (a0 : Operand) (draws : List Word) : State :=
  { State.reset with a0 := a0, nt := table (flagged false) 24000000, target := target 0 0x111 draws }

/-- The state of the commands of 95_test_vectors.md section 3.3: `core:1` programmed to 799,999,998 Hz. -/
def programmed (a0 : Operand) : State := { ready a0 [] with target := target 0x21155555 0x111 [] }

/-- The next state of an outcome. -/
def nextOf : Outcome → Option State
  | .next t => some t
  | .fault _ => none
  | .refused _ => none

/-- The command ends with this `STATUS`, `R0`, `R1` and bus trace. -/
def ends (i : Instr) (s : State) (status : BitVec 4) (r0 r1 : Operand) (trace : List BusEvent) : Bool :=
  (nextOf (exec i s)).any
    (fun t => t.status == status && t.r0 == r0 && t.r1 == r1 && !t.busy && t.trace == trace)

/-- The command is left in its poll, with this bus trace. -/
def polls (i : Instr) (s : State) (trace : List BusEvent) : Bool :=
  (nextOf (exec i s)).any (fun t => t.busy && t.trace == trace)

/-! ## Well-formedness: the check refuses each ill-formed term -/

theorem test_regRead_with_node_ill_formed : (Instr.regRead 1).wellFormed = false := by decide
theorem test_regWrite_with_node_ill_formed : (Instr.regWrite 0x0100).wellFormed = false := by decide
theorem test_regUpdate_with_node_ill_formed : (Instr.regUpdate 0xFFFF).wellFormed = false := by decide
theorem test_nodeRegister_with_node_ill_formed : (Instr.nodeRegister 1).wellFormed = false := by decide
theorem test_malformed_id_is_well_formed_command : (Instr.fpllSetRate 0x0500).wellFormed = true := by decide

/-! ## Decoding: words written out from `(node << 8) | op` (R81, R84, R97) -/

/-- Node `0x0322` in bits 23 to 8, the opcode in bits 7 to 0, for every opcode of R84 that names a node. -/
theorem test_decode_words :
    [(0x00032210, Instr.muxP2s 0x322), (0x00032211, .muxS2i 0x322), (0x00032221, .nodeResolve 0x322),
      (0x00032230, .fpllEnable 0x322), (0x00032231, .fpllDisable 0x322), (0x00032232, .fpllGetRate 0x322),
      (0x00032233, .fpllSetRate 0x322), (0x00032234, .fpllSetParent 0x322), (0x00032240, .dpllEnable 0x322),
      (0x00032241, .dpllDisable 0x322), (0x00032242, .dpllGetRate 0x322), (0x00032243, .dpllSetRate 0x322),
      (0x00032244, .dpllSetParent 0x322), (0x00032250, .mckEnable 0x322), (0x00032251, .mckDisable 0x322),
      (0x00032252, .mckGetRate 0x322), (0x00032253, .mckSetRate 0x322), (0x00032254, .mckSetParent 0x322),
      (0x00032260, .gckEnable 0x322), (0x00032261, .gckDisable 0x322), (0x00032262, .gckGetRate 0x322),
      (0x00032263, .gckSetRate 0x322), (0x00032264, .gckSetParent 0x322), (0x00032270, .periEnable 0x322),
      (0x00032271, .periDisable 0x322), (0x00032272, .periGetRate 0x322), (0x00032273, .periSetRate 0x322),
      (0x00032274, .periSetParent 0x322)].all (fun x => (decode x.1).toOption == some x.2) = true := by decide +kernel

theorem test_decode_more_words :
    [(0x00032280, Instr.progEnable 0x322), (0x00032281, .progDisable 0x322), (0x00032282, .progGetRate 0x322),
      (0x00032283, .progSetRate 0x322), (0x00032284, .progSetParent 0x322), (0x00032290, .oscEnable 0x322),
      (0x00032291, .oscDisable 0x322), (0x00032292, .oscGetRate 0x322), (0x00032293, .oscSetRate 0x322),
      (0x00032294, .oscSetParent 0x322), (0x000322F0, .enable 0x322), (0x000322F1, .disable 0x322),
      (0x000322F2, .getRate 0x322), (0x000322F3, .setRate 0x322), (0x000322F4, .setParent 0x322),
      (0x00000001, .regRead 0), (0x00000002, .regWrite 0), (0x00000003, .regUpdate 0),
      (0x00000020, .nodeRegister 0)].all (fun x => (decode x.1).toOption == some x.2) = true := by decide +kernel

/-- The command words of 95_test_vectors.md section 2.7. -/
theorem test_decode_spec_words :
    decode 0x00000133 = .ok (.fpllSetRate 1) ∧ decode 0x00032263 = .ok (.gckSetRate 0x322) ∧
      decode 0x00020970 = .ok (.periEnable 0x209) ∧ decode 0x00010884 = .ok (.progSetParent 0x108) ∧
      decode 0x01000133 = .error .zeroFieldSet ∧ decode 0x00000135 = .error .unassignedOpcode ∧
      decode 0x00000101 = .error .nodeNotZero := by decide +kernel

theorem test_decodeTableWord_too_wide : decodeTableWord 32 (2 ^ 32 + 0x133) = none := by decide +kernel

/-! ## Arithmetic and operand forms (95_test_vectors.md section 2) -/

theorem test_round_and_clog2 :
    roundDiv 5 2 = 3 ∧ roundDiv 1 2 = 1 ∧ roundDiv 7 3 = 2 ∧ clog2 12000000 4000000 = 2 ∧ clog2 8 8 = 0 ∧
      clog2 9 8 = 1 ∧ rdiv .floor 800000000 3 = 266666666 ∧ rdiv .nearest 800000000 3 = 266666667 := by
  decide +kernel

theorem test_fpllCompute :
    fpllCompute 24000000 800000000 = ⟨33, 1398101, 799999998⟩ ∧
      fpllCompute 8388608 41943041 = ⟨5, 1, 41943042⟩ ∧ (fpllCompute 24000000 815999999).frac = 2 ^ 22 := by
  decide +kernel

theorem test_gckSearch :
    bestOf .floor 110000000 [(6, 600000000), (5, 480000000)] =
        some { pid := 6, div := 5, rate := 120000000, diff := 10000000 } ∧
      bestOf .floor 1000 [(6, 0), (5, 480000000)] = some { pid := 6, div := 1, rate := 0, diff := 1000 } := by
  decide +kernel

theorem test_progCompute :
    progCompute .direct 256000 1000 255 = some 255 ∧ progCompute .direct 257000 1000 255 = none ∧
      progCompute .pow2 100 25 7 = some 2 ∧ progCompute .pow2 101 25 7 = none := by decide +kernel

theorem test_fields :
    (field 0x20 6 0).place 34 = 0x22 ∧ (field 0x20 27 20).place 5 = 0x00500000 ∧
      (field 0x20 11 8).extract 0x10500922 = 9 ∧ wellFormedId 0x04FF = true ∧ wellFormedId 0x0500 = false := by
  decide +kernel

/-! ## One command each (95_test_vectors.md sections 3 and 4) -/

theorem test_regRead :
    ends (.regRead 0) { ready 0x1000 [0] with a1 := 0x0C } 0 0 0 [.read 0x100C 0] = true := by decide +kernel

theorem test_regRead_wraps :
    ends (.regRead 0) { ready 0xFFFFFFFC [] with a1 := 0x1008 } 0 0 0 [.read 0x1004 0] = true := by decide +kernel

theorem test_regWrite :
    ends (.regWrite 0) { ready 0x1000 [] with a1 := 0x18, a2 := 0xF } 0 0 0 [.write 0x1018 0xF] = true
        := by decide +kernel

theorem test_regUpdate_drops_bits_outside_mask :
    ends (.regUpdate 0) { ready 0x1000 [] with a1 := 0x18, a2 := 0xFF00, a3 := 0x1234 } 0 0 0 [.read 0x1018 0xF,
        .write 0x1018 0x120F] = true := by decide +kernel

theorem test_muxP2s : ends (.muxP2s 8) (ready 5 []) 0 5 0 [] = true := by decide +kernel
theorem test_muxS2i : ends (.muxS2i 8) (ready 5 []) 0 3 0 [] = true := by decide +kernel

theorem test_nodeResolve :
    ends (.nodeResolve 0x322) (ready 0 []) 0 6 0x10003 [] = true ∧
      ends (.nodeResolve 0) (ready 0 []) 0 9 0 [] = true := by decide +kernel

theorem test_fpllSetRate :
    ends (.fpllSetRate 1) (ready 800000000 []) 0 799999998 0 [.read 0x1000 0, .read 0x1004 0, .read 0x1000 0,
        .write 0x1000 0x21155555, .read 0x1008 0, .write 0x1008 1] = true := by decide +kernel

/-- The strobe takes the fields just written into use (R34). -/
theorem test_strobe_latches :
    ((nextOf (exec (.fpllSetRate 1) (ready 800000000 []))).any fun t =>
      t.target.latched.inUseWord 0x1000 == 0x21155555) = true := by decide +kernel

/-- A machine whose `core:1`, without a range, is asked for the largest rate there is; under an oscillator at
`(2^65 + 1) / 3` Hz the nearest it can make is `2^64 + 1` Hz. -/
def nearTop : State :=
  { ready 18446744073709551615 [] with
    nt :=
      ⟨1, flagged false, .fpll { fpll with range := ⟨0, 0⟩ }⟩ ::
        (table (flagged false) 12297829382473034411).drop 7 }

/-- D4, U19: a computed rate of `2^64` or more is `OutOfRange`, before any access. -/
theorem test_fpllSetRate_computed_rate_too_large : ends (.fpllSetRate 1) nearTop 4 0 0 [] = true := by decide +kernel

theorem test_fpllSetRate_below_range :
    ends (.fpllSetRate 1) (ready 599999999 []) 4 0 0 [] = true := by decide +kernel

theorem test_fpllEnable :
    ends (.fpllEnable 1) (ready 0 [0, 0, 0, 0, 0, 0, 1]) 0 0 0 [.read 0x100C 0, .read 0x1004 0,
        .write 0x1004 0x40000, .settle, .read 0x1004 0x40000, .write 0x1004 0x50000, .settle,
        .read 0x1004 0x50000, .write 0x1004 0x70000, .settle, .read 0x1004 0x70000, .write 0x1004 0x70001,
        .read 0x1008 0, .write 0x1008 1, .read 0x100C 1] = true := by decide +kernel

theorem test_fpllEnable_already_locked :
    ends (.fpllEnable 1) (ready 0 [3]) 0 0 0 [.read 0x100C 3] = true := by decide +kernel

theorem test_fpllDisable_polls :
    polls (.fpllDisable 1) (ready 0 [0, 0, 1]) [.read 0x1004 0, .write 0x1004 0, .read 0x1008 0, .write 0x1008 1,
        .read 0x100C 1] = true := by decide +kernel

theorem test_fpllGetRate :
    ends (.fpllGetRate 1) (programmed 0) 0 799999998 0 [.read 0x1000 0x21155555] = true := by decide +kernel

theorem test_fpllSetParent : ends (.fpllSetParent 1) (ready 0 []) 5 0 0 [] = true := by decide +kernel

theorem test_dpllSetRate :
    ends (.dpllSetRate 3) (programmed 320000000) 0 399999999 0 [.read 0x1000 0x21155555, .read 0x1004 0,
        .read 0x1004 0, .write 0x1004 0x100, .read 0x1008 0, .write 0x1008 1] = true := by decide +kernel

theorem test_dpllSetRate_below_range :
    ends (.dpllSetRate 3) (programmed 5000000) 4 0 0 [.read 0x1000 0x21155555] = true := by decide +kernel

theorem test_dpllEnable :
    ends (.dpllEnable 3) (ready 0 [0, 0, 2]) 0 0 0 [.read 0x1004 0, .write 0x1004 2, .read 0x1008 0,
        .write 0x1008 1, .read 0x100C 2] = true := by decide +kernel

theorem test_dpllDisable :
    ends (.dpllDisable 3) (ready 0 [0, 0, 0]) 0 0 0 [.read 0x1004 0, .write 0x1004 0, .read 0x1008 0,
        .write 0x1008 1, .read 0x100C 0] = true := by decide +kernel

theorem test_dpllGetRate :
    ends (.dpllGetRate 3) (programmed 0) 0 799999998 0 [.read 0x1000 0x21155555, .read 0x1004 0] = true
        := by decide +kernel

theorem test_dpllSetParent : ends (.dpllSetParent 3) (ready 0 []) 5 0 0 [] = true := by decide +kernel

theorem test_mckGetRate :
    ends (.mckGetRate 8) (ready 0 [0]) 0 6000000 0 [.read 0x1010 0x111] = true := by decide +kernel

theorem test_mckSetParent :
    polls (.mckSetParent 8) (ready 5 [0, 0, 0]) [.read 0x1010 0x111, .write 0x1010 0x115, .read 0x1010 0x115,
        .write 0x1010 0x80000115, .read 0x1014 0] = true := by decide +kernel

theorem test_mckSetParent_unknown_parent : ends (.mckSetParent 8) (ready 6 []) 2 0 0 [] = true := by decide +kernel

theorem test_mckDisable :
    ends (.mckDisable 8) (ready 0 []) 0 0 0 [.read 0x1018 0xF, .write 0x1018 7] = true := by decide +kernel

theorem test_mckEnable : ends (.mckEnable 8) (ready 0 []) 0 0 0 [] = true := by decide +kernel
theorem test_mckSetRate : ends (.mckSetRate 8) (ready 1 []) 5 0 0 [] = true := by decide +kernel

theorem test_gckGetRate :
    ends (.gckGetRate 0x322) (ready 0 []) 0 0 0 [.read 0x1000 0, .read 0x1004 0, .write 0x1020 0x22,
        .read 0x1020 0x00500322] = true := by decide +kernel

theorem test_gckSetRate :
    ends (.gckSetRate 0x322) (ready 105000000 []) 0 100000000 6 [.write 0x1020 0x22, .read 0x1020 0x00500322,
        .write 0x1020 0x00501922] = true := by decide +kernel

theorem test_gckEnable :
    ends (.gckEnable 0x322) (ready 0 [0, 1]) 0 0 0 [.write 0x1020 0x22, .read 0x1020 0x00500322,
        .write 0x1020 0x10501322, .read 0x1024 1] = true := by decide +kernel

theorem test_gckDisable :
    ends (.gckDisable 0x322) (ready 0 []) 0 0 0 [.write 0x1020 0x22, .read 0x1020 0x00500322,
        .write 0x1020 0x00501322] = true := by decide +kernel

theorem test_gckSetParent :
    ends (.gckSetParent 0x322) (ready 0 []) 0 0 0 [.write 0x1020 0x22, .read 0x1020 0x00500322,
        .write 0x1020 0x00501122] = true := by decide +kernel

theorem test_periEnable :
    ends (.periEnable 0x209) (ready 0 []) 0 0 0 [.write 0x1020 9, .read 0x1020 9, .write 0x1020 0x10001009] = true
        := by decide +kernel

theorem test_periDisable :
    ends (.periDisable 0x209) (ready 0 []) 0 0 0 [.write 0x1020 9, .read 0x1020 9, .write 0x1020 0x00001009] =
        true := by decide +kernel

theorem test_periGetRate :
    ends (.periGetRate 0x209) (ready 0 [0]) 0 6000000 0 [.read 0x1010 0x111] = true := by decide +kernel

theorem test_periSetRate : ends (.periSetRate 0x209) (ready 1 []) 5 0 0 [] = true := by decide +kernel
theorem test_periSetParent : ends (.periSetParent 0x209) (ready 0 []) 5 0 0 [] = true := by decide +kernel

theorem test_progGetRate :
    ends (.progGetRate 0x108) (ready 0 []) 0 4800000 0 [.read 0x1030 0x41] = true := by decide +kernel

theorem test_progSetParent_through_extension :
    ends (.progSetParent 0x108) (ready 6 []) 0 0 0 [.read 0x1030 0x41, .write 0x1030 0x49] = true
        := by decide +kernel

theorem test_progSetParent_clears_extension :
    ends (.progSetParent 0x108) (ready 5 []) 0 0 0 [.read 0x1030 0x41, .write 0x1030 0x44] = true
        := by decide +kernel

theorem test_progSetRate :
    ends (.progSetRate 0x109) (ready 1500000 []) 0 1500000 0 [.read 0x1034 2, .write 0x1034 0x32] = true
        := by decide +kernel

theorem test_progSetRate_inexact : ends (.progSetRate 0x109) (ready 4000000 []) 4 0 0 [] = true := by decide +kernel

theorem test_progEnable_progDisable :
    ends (.progEnable 0x108) (ready 0 []) 5 0 0 [] = true ∧
      ends (.progDisable 0x108) (ready 0 []) 5 0 0 [] = true := by decide +kernel

theorem test_oscGetRate : ends (.oscGetRate 0x400) (ready 0 []) 0 32768 0 [] = true := by decide +kernel

theorem test_osc_refuses :
    [Instr.oscEnable 0, .oscDisable 0, .oscSetRate 0, .oscSetParent 0].all (fun i => ends i (ready 1 []) 5 0 0 [])
        = true := by decide +kernel

theorem test_dispatch :
    ends (.getRate 8) (ready 0 [0]) 0 6000000 0 [.read 0x1010 0x111] = true ∧
      ends (.setRate 0x209) (ready 1 []) 5 0 0 [] = true ∧
      ends (.enable 2) (ready 0 []) 1 0 0 [] = true := by decide +kernel

theorem test_dispatch_disable_and_setParent :
    ends (.disable 8) (ready 0 []) 0 0 0 [.read 0x1018 0xF, .write 0x1018 7] = true ∧
      ends (.setParent 0x108) (ready 6 []) 0 0 0 [.read 0x1030 0x41, .write 0x1030 0x49] = true
        := by decide +kernel

/-! ## Steps -/

/-- The never-locking PLL of program P5: the poll stays, and an engine reset ends it with `0x1004` as it was. -/
theorem test_step_never_lock_and_reset :
    (nextOf (exec (.fpllEnable 1) (ready 0 []))).any (fun t =>
      t.busy && (t.nt.lookup 1).any (fun e => e.data.pll? == some .enabling) &&
        (nextOf (step { t with target.draws := [0], host := [.wait, .reset 0] })).any (fun u =>
          u.busy && u.trace == t.trace ++ [.read 0x100C 0] &&
            (nextOf (step u)).any (fun v =>
              !v.busy && v.nt == [] && v.target.mem.readWord 0x1004 == 0x70001))) = true := by decide +kernel

/-! ## Witnesses: the hypotheses of each statement that has any, met together -/

theorem exists_next {o : Outcome} {p : State → Bool} (h : (nextOf o).any p = true) :
    ∃ t, o = .next t ∧ p t = true := by
  cases o with
  | next t => exact ⟨t, rfl, h⟩
  | fault f => cases h
  | refused r => cases h

/-- A rate query that is answered. -/
def rated (s : State) (id : ClockId) : Option (State × Nat) :=
  match s.rate id with
  | (s₁, .ok r) => some (s₁, r)
  | (_, .error _) => none

theorem exists_rate {s : State} {id : ClockId} {p : State → Nat → Bool}
    (h : (rated s id).any (fun x => p x.1 x.2) = true) : ∃ s₁ r, s.rate id = (s₁, .ok r) ∧ p s₁ r = true := by
  unfold rated at h
  split at h
  · exact ⟨_, _, by assumption, h⟩
  · cases h

/-- A rate query that ends with an error. -/
def rateFails (s : State) (id : ClockId) : Option (State × CmdError) :=
  match s.rate id with
  | (s₁, .error (.raised e)) => some (s₁, e)
  | (_, .error (.stuck _)) => none
  | (_, .ok _) => none

theorem exists_rateFails {s : State} {id : ClockId} (h : (rateFails s id).isSome = true) :
    ∃ s₁ e, s.rate id = (s₁, .error (.raised e)) := by
  unfold rateFails at h
  split at h
  · exact ⟨_, _, by assumption⟩
  · cases h
  · cases h

theorem exists_ratesOf {ids : List ClockId} {s : State} {p : List (ClockId × Nat) → State → Bool}
    (h : (ratesOf ids s).any (fun x => p x.1 x.2) = true) :
    ∃ ps s₁, ratesOf ids s = some (ps, s₁) ∧ p ps s₁ = true := by
  cases hr : ratesOf ids s with
  | none => rw [hr] at h; cases h
  | some x => rw [hr] at h; exact ⟨x.1, x.2, rfl, h⟩

theorem registered {s : State} {node : ClockId} {flags : NodeFlags} {d : NodeData}
    (h : (wellFormedId node && s.nt.lookup node == some { id := node, flags := flags, data := d }) = true) :
    Registered s node flags d := by
  simpa [Registered] using h

/-- A state with the given host moves to come. -/
def withHost (s : State) (host : List HostMove) : State := { s with host := host }

/-- A command word accepted, about to run. -/
def started (w : Nat) : State := (ready 0 []).withFetchWord 32 w

/-- The poll of `FPLL.ENABLE core:1`. -/
def lockPoll : Poll :=
  { node := 1, addr := 0x100C, mask := 1, awaited := true, next := { pll := some .locked } }

/-- The machine in that poll, with answers and host moves to come. -/
def polling (draws : List Word) (host : List HostMove) : State :=
  { ready 0 draws with engine := .polling lockPoll, host := host }

/-- The fixture's nodes, each with its id. -/
def nodes : List (ClockId × NodeData) :=
  [(1, .fpll fpll), (3, .dpll dpll), (8, .mck mck), (0x322, .gck gck), (0x209, .peri peri), (0x108, .prog prog),
    (0x109, .prog prog2), (0, .osc ⟨24000000⟩)]

theorem nodes_registered (a0 : Operand) (draws : List Word) :
    ∀ x ∈ nodes, Registered (ready a0 draws) x.1 (flagged false) x.2 := by
  have h : (nodes.all fun x =>
      wellFormedId x.1 && (table (flagged false) 24000000).lookup x.1 == some ⟨x.1, flagged false, x.2⟩) = true := by
    decide +kernel
  intro x hx
  exact registered (List.all_eq_true.1 h x hx)

/-! ### Encoding, steps, the port -/

theorem witness_DecodeEncodeAgree :
    (Instr.regRead 0).WellFormed ∧ (Instr.setParent 0xFFFF).WellFormed ∧ decode 0x00000001 = .ok (.regRead 0) ∧
      decode 0x00FFFFF4 = .ok (.setParent 0xFFFF) := by decide +kernel

theorem witness_IllegalWordsExactly_step :
    (started 0x101).engine = .started ∧ (∀ after rest, (started 0x101).host ≠ .reset after :: rest) ∧
      ∃ why, decode (started 0x101).cmd = .error why :=
  ⟨rfl, by simp [started, State.withFetchWord], .nodeNotZero, by decide +kernel⟩

theorem witness_IllegalWordsExactly_refused :
    ((NodeData.fpll fpll).kind, Instr.fpllSetParent 1) ∈ refusedCommands 1 ∧
      Registered (ready 0 []) 1 (flagged false) (.fpll fpll) :=
  ⟨by decide, nodes_registered 0 [] (1, _) (by simp [nodes])⟩

theorem witness_StepRunsTheDecodedCommand :
    (started 0x133).engine = .started ∧ (∀ after rest, (started 0x133).host ≠ .reset after :: rest) ∧
      decode (started 0x133).cmd = .ok (.fpllSetRate 1) ∧ decodeTableWord 32 0x133 = some (.fpllSetRate 1) :=
  ⟨rfl, by simp [started, State.withFetchWord], by decide +kernel, by decide +kernel⟩

theorem witness_HostMovesReachPort :
    (∀ m ∈ [HostMove.writeCmd 0, .writeOperand 0 1, .writeOperand 1 1, .writeOperand 2 1, .writeOperand 3 1,
        .writeDesc {}, .wait],
      (withHost (ready 0 []) [m]).engine = .idle ∧ (withHost (ready 0 []) [m]).host = m :: []) ∧
      ((ready 0 []).engine = .idle ∧ (ready 0 []).host = []) ∧
      ∀ m ∈ [HostMove.writeCmd 0, .writeOperand 0 1, .writeDesc {}],
        (polling [] [m]).engine = .polling lockPoll ∧ (polling [] [m]).host = m :: [] :=
  ⟨fun _ _ => ⟨rfl, rfl⟩, ⟨rfl, rfl⟩, fun _ _ => ⟨rfl, rfl⟩⟩

theorem witness_ResetValues :
    (withHost (started 0x133) [.reset 0]).host = .reset 0 :: [] ∧
      ∃ t, step (withHost (started 0x133) [.reset 0]) = .next t :=
  ⟨rfl, let ⟨t, h, _⟩ := exists_next (p := fun _ => true) (by decide +kernel); ⟨t, h⟩⟩

/-- In a poll, and with an illegal word accepted. -/
theorem witness_ResetKeepsTarget_no_access :
    ((polling [] [.reset 0]).engine ≠ .started ∧ (polling [] [.reset 0]).host = .reset 0 :: []) ∧
      (∃ why, decode (withHost (started 0x101) [.reset 2]).cmd = .error why) ∧
      (withHost (started 0x101) [.reset 2]).host = .reset 2 :: [] :=
  ⟨⟨by simp [polling], rfl⟩, ⟨.nodeNotZero, by change decode 0x101 = _; decide +kernel⟩, rfl⟩

/-- The reset arrives before the command's first access, and after its second. -/
theorem witness_ResetKeepsTarget_abandoned :
    ∀ after ∈ [0, 2], (withHost (started 0x132) [.reset after]).engine = .started ∧
      (withHost (started 0x132) [.reset after]).host = .reset after :: [] ∧
      decode (withHost (started 0x132) [.reset after]).cmd = .ok (.fpllGetRate 1) ∧
      ∃ t evs, exec (.fpllGetRate 1) { withHost (started 0x132) [.reset after] with host := [] } = .next t ∧
        t.trace = (started 0x132).trace ++ evs :=
  fun _ _ => ⟨rfl, rfl, by change decode 0x132 = _; decide +kernel,
    let ⟨t, h, _⟩ := exists_next (o := exec (.fpllGetRate 1) { withHost (started 0x132) [.reset 0] with host := [] })
      (p := fun _ => true) (by decide +kernel)
    ⟨t, t.trace, h, rfl⟩⟩

theorem witness_PollReadsOnce :
    (polling [] []).engine = .polling lockPoll ∧ (polling [] []).host = [] ∧
      (polling [] [.wait]).engine = .polling lockPoll ∧ (polling [] [.wait]).host = .wait :: [] :=
  ⟨rfl, rfl, rfl, rfl⟩

theorem witness_UnansweredPollNeverReturns :
    (polling [] [.writeCmd 1, .wait]).engine = .polling lockPoll ∧
      (∀ m ∈ (polling [] [.writeCmd 1, .wait]).host, ∀ k, m ≠ .reset k) ∧
      ∀ k ≤ 3, ¬(((readsLater (polling [] [.writeCmd 1, .wait]).target k).answer lockPoll.addr &&& lockPoll.mask
        ≠ 0) ↔ lockPoll.awaited = true) := by
  refine ⟨rfl, by simp [polling], ?_⟩
  intro k hk
  interval_cases k <;> decide +kernel

theorem witness_AnsweredPollReturns :
    (polling [0, 0, 1] []).engine = .polling lockPoll ∧ (polling [0, 0, 1] []).host = [] ∧
      ∃ k < 3, ((readsLater (polling [0, 0, 1] []).target k).answer lockPoll.addr &&& lockPoll.mask ≠ 0) ↔
        lockPoll.awaited = true :=
  ⟨rfl, rfl, 2, by decide, by decide +kernel⟩

/-! ### Invariants and whole-machine rules -/

/-- The fixture meets the three invariants, before a command and in a poll, and the machine goes on from both. -/
theorem witness_invariants :
    [ready 0 [], started 0x132, polling [] []].all
      (fun s => s.nodesOk && s.storageOk && s.portOk && (nextOf (step s)).isSome) = true := by decide +kernel

/-- For `StepKeepsNodeTable`, `StepKeepsStorageCanonical`, `StepKeepsPort`, `StepNeverStops` and the step clauses of
`InputsAndParametersKept` and `ConfigurationImmutable`. -/
theorem witness_StepKeepsInvariants :
    (started 0x132).nodesOk = true ∧ (started 0x132).storageOk = true ∧ (started 0x132).portOk = true ∧
      ∃ t, step (started 0x132) = .next t :=
  ⟨by decide +kernel, by decide +kernel, by decide +kernel,
    let ⟨t, h, _⟩ := exists_next (p := fun _ => true) (by decide +kernel); ⟨t, h⟩⟩

/-- For `InputsAndParametersKept`, `CommandTraceExplainsTarget`, `ConfigurationImmutable`: a command that completes. -/
theorem witness_command_completes :
    ∃ t, exec (.fpllSetRate 1) (ready 800000000 []) = .next t ∧ (t.status == 0 && t.trace.length == 6) = true :=
  exists_next (by decide +kernel)

/-- The bytes next to the word that `REG.WRITE` writes, on both sides. -/
theorem witness_BytesChangeOnlyWhereWritten :
    ∃ t, exec (.regWrite 0) (ready 0x1000 []) = .next t ∧
      ([0xFFF, 0x1004].all fun b =>
        (t.trace.drop (ready 0x1000 []).trace.length).all fun e => !writesByte b e) = true :=
  exists_next (by decide +kernel)

/-- A failure of the checks, and one after an access. -/
theorem witness_FailedCommandChangesNothing :
    (∃ t, exec (.fpllSetRate 1) (ready 599999999 []) = .next t ∧ (!t.busy && t.status != 0) = true) ∧
      ∃ t, exec (.dpllSetRate 3) (programmed 5000000) = .next t ∧
        (!t.busy && t.status != 0 && t.trace.length == 1) = true :=
  ⟨exists_next (by decide +kernel), exists_next (by decide +kernel)⟩

/-! ### Commands that are turned away -/

theorem witness_PrologueRejects :
    Instr.fpllSetRate 0x0500 ∈ kindCommands .fpll 0x0500 ∧ wellFormedId 0x0500 = false ∧
      Instr.fpllSetRate 2 ∈ kindCommands .fpll 2 ∧ (ready 0 []).nt.lookup 2 = none ∧
      Instr.fpllSetRate 3 ∈ kindCommands .fpll 3 ∧
      ∃ e, (ready 0 []).nt.lookup 3 = some e ∧ e.data.kind ≠ .fpll :=
  ⟨by decide, by decide, by decide, by decide +kernel, by decide, ⟨3, flagged false, .dpll dpll⟩, by decide +kernel,
    by decide⟩

/-- Each of the eleven commands on the node of its kind. -/
theorem witness_RefusedCommands :
    ∀ x ∈ [(1, Instr.fpllSetParent 1), (3, .dpllSetParent 3), (8, .mckSetRate 8), (0x209, .periSetRate 0x209),
        (0x209, .periSetParent 0x209), (0x108, .progEnable 0x108), (0x108, .progDisable 0x108), (0, .oscEnable 0),
        (0, .oscDisable 0), (0, .oscSetRate 0), (0, .oscSetParent 0)],
      ∃ k d, (k, x.2) ∈ refusedCommands x.1 ∧ Registered (ready 0 []) x.1 (flagged false) d ∧ d.kind = k := by
  have reg := nodes_registered 0 []
  simp only [nodes, List.forall_mem_cons] at reg
  obtain ⟨r1, r3, r8, -, r9, r108, -, r0, -⟩ := reg
  simp only [List.forall_mem_cons, List.not_mem_nil, false_implies, implies_true, and_true]
  exact ⟨⟨_, _, by decide, r1, rfl⟩, ⟨_, _, by decide, r3, rfl⟩, ⟨_, _, by decide, r8, rfl⟩,
    ⟨_, _, by decide, r9, rfl⟩, ⟨_, _, by decide, r9, rfl⟩, ⟨_, _, by decide, r108, rfl⟩,
    ⟨_, _, by decide, r108, rfl⟩, ⟨_, _, by decide, r0, rfl⟩, ⟨_, _, by decide, r0, rfl⟩, ⟨_, _, by decide, r0, rfl⟩,
    ⟨_, _, by decide, r0, rfl⟩⟩

/-- The fixture with every node critical. -/
def critical : State := { ready 0 [] with nt := table (flagged true) 24000000 }

theorem witness_CriticalDisableDoesNothing :
    ∀ x ∈ [(1, NodeData.fpll fpll), (3, .dpll dpll), (8, .mck mck), (0x322, .gck gck), (0x209, .peri peri)],
      Registered critical x.1 (flagged true) x.2 ∧ (flagged true).critical = true ∧
        x.2.kind ∈ [NodeKind.fpll, .dpll, .mck, .gck, .peri] := by
  have h : ([(1, NodeData.fpll fpll), (3, .dpll dpll), (8, .mck mck), (0x322, .gck gck), (0x209, .peri peri)].all
      fun x => wellFormedId x.1 && critical.nt.lookup x.1 == some ⟨x.1, flagged true, x.2⟩) = true := by
    decide +kernel
  intro x hx
  refine ⟨registered (List.all_eq_true.1 h x hx), rfl, ?_⟩
  simp at hx
  rcases hx with rfl | rfl | rfl | rfl | rfl <;> decide

theorem witness_DispatchRunsKindsCommand :
    wellFormedId 0x0500 = false ∧ (ready 0 []).nt.lookup 2 = none ∧
      ∀ x ∈ nodes, Registered (ready 0 []) x.1 (flagged false) x.2 :=
  ⟨by decide, by decide +kernel, nodes_registered 0 []⟩

/-! ### Arithmetic, operand forms, the register target -/

/-- For `ArithmeticFunctions`, `FracPllQuantisation`, `DivPllErrorBound`, `GckSearchFindsNearest` and
`ProgComputeExact`: numbers that meet the conditions, the least ones among them. -/
theorem witness_arithmetic :
    0 < 1 ∧ (fpllCompute (2 ^ 22 - 1) 8388607).achieved = 8388607 ∧ 0 < roundDiv 1 2 ∧
      (bestOf .floor 1 [((6 : ClockId), 600000000), (5, 480000000)]).isSome = true ∧
      progCompute .direct 256000 1000 255 = some 255 ∧ progCompute .pow2 100 25 7 = some 2 := by decide +kernel

theorem witness_MuxRoundTrip :
    mck.table.sel.length = mck.table.pid.length ∧ mck.table.sel.Nodup ∧ mck.table.pid.Nodup ∧
      mck.table.pid[3]? = some 5 ∧ mck.table.sel[0]? = some 0 := by decide

/-- A field that is the whole word, and one that is its highest bit, each at its largest value. -/
theorem witness_FieldReadsBack :
    (field 0 31 0).ok = true ∧ 2 ^ 32 - 1 ≤ (field 0 31 0).fmax ∧ (field 4 31 31).ok = true ∧
      1 ≤ (field 4 31 31).fmax := by decide +kernel

theorem witness_FieldsGroupedByRegister :
    fpll.mul ∈ [fpll.mul, fpll.frac, fpll.en] ∧
      (maskAt 0 [(fpll.mul, 33), (fpll.frac, 1398101)]).getLsbD 24 = true := by decide +kernel

theorem witness_PlainRegisterReadsBack :
    (ready 0 []).target.havoc = false ∧ (0x1000 : Word).toNat % 4 = 0 ∧
      (ready 0 []).target.regAt 0x1000 = some (.plain 0xFFFFFFFF) ∧
      (ready 0 []).target.regAt 0x1004 = some (.plain 0xFFFFFFFF) ∧ (0x1004 : Word) ≠ 0x1000 ∧
      (ready 0 []).target.regAt 0x2000 = none ∧
      (ready 0 []).target.specAt 0x1010 =
        some ⟨0x1010, .plain 0x7FFFFFFF, [⟨0x80000000, [0x1010]⟩], false⟩ ∧
      (0x1010 : Word).toNat % 4 = 0 ∧ (0x111 : Word) &&& 0x80000000 = 0 ∧
      (0x80000111 : Word) &&& 0x80000000 ≠ 0 ∧
      (ready 0 []).target.specAt 0x1018 = some ⟨0x1018, .plain 0xFFFFFFFF, [], true⟩ := by
  decide +kernel

theorem witness_SharedRegisterSelects :
    (ready 0 []).target.regAt 0x1020 = some (.shared 0x7F 0x1000 0x1FF00F00) ∧
      (0x7F : Word) &&& 0x1FF00F00 = 0 ∧ (0x22 : Word) &&& 0x1000 = 0 ∧ (0x10501922 : Word) &&& 0x1000 ≠ 0 ∧
      (0x22 : Word) &&& 0x7F = 0x10501922 &&& 0x7F ∧ (0x09 : Word) &&& 0x7F ≠ 0x10501922 &&& 0x7F := by decide +kernel

/-! ### Rates -/

theorem witness_RateFollowsTheTable :
    (ready 0 []).nt.ok = true ∧ (∃ e, (ready 0 []).nt.lookup 0 = some e ∧ e.data.parent? = none) ∧
      ∃ e, (ready 0 []).nt.lookup 0x209 = some e ∧ e.data.parent? = some 8 :=
  ⟨by decide +kernel, ⟨⟨0, flagged false, .osc ⟨24000000⟩⟩, by decide +kernel, rfl⟩,
    ⟨⟨0x209, flagged false, .peri peri⟩, by decide +kernel, rfl⟩⟩

/-- A machine whose `core:1` runs beyond `2^64` Hz, with a second FPLL, a DPLL, a programmable clock and a generic
clock that ask for its rate. -/
def tooFast : State :=
  { ready 700000000 [] with
    a0 := 1000
    nt :=
      [⟨0x322, flagged false, .gck { gck with extraParents := [5, 1, 6] }⟩,
        ⟨0x108, flagged false, .prog { prog with parent := 1 }⟩, ⟨3, flagged false, .dpll dpll⟩,
        ⟨2, flagged false, .fpll { fpll with parent := 1, range := ⟨0, 0⟩ }⟩] ++
        (table (flagged false) (2 ^ 64 - 1)).drop 6
    target := target 0x02000000 0x111 [] }

/-- For `RateAlwaysAnswers`: a number, and the error. -/
theorem witness_RateAlwaysAnswers :
    (∃ s₁ r, (ready 0 []).rate 8 = (s₁, .ok r) ∧ (r == 6000000) = true) ∧
      (∃ s₁ e, tooFast.rate 1 = (s₁, .error (.raised e))) ∧ ∃ e, tooFast.nt.lookup 1 = some e :=
  ⟨exists_rate (by decide +kernel), exists_rateFails (by decide +kernel), ⟨1, flagged false, .fpll fpll⟩,
    by decide +kernel⟩

/-- For the last clause of `RateFollowsTheTable`: a well-formed table and a rate beyond `2^64`. -/
theorem witness_RateFollowsTheTable_error :
    ({ ready 0 [] with nt := table (flagged false) (2 ^ 64 - 1), target := target 0x02000000 0x111 [] } : State).nt.ok =
        true ∧
      ∃ s₁ e,
        ({ ready 0 [] with nt := table (flagged false) (2 ^ 64 - 1), target := target 0x02000000 0x111 [] } :
          State).rate 1 = (s₁, .error (.raised e)) :=
  ⟨by decide +kernel, exists_rateFails (by decide +kernel)⟩

theorem witness_RateErrorEndsCommand :
    (∃ s₁ e, tooFast.rate 1 = (s₁, .error (.raised e))) ∧ tooFast.a0 ≠ 0 ∧
      Registered tooFast 3 (flagged false) (.dpll dpll) ∧
      Registered tooFast 2 (flagged false) (.fpll { fpll with parent := 1, range := ⟨0, 0⟩ }) ∧
      inRange ⟨0, 0⟩ tooFast.a0.toNat = true ∧
      Registered tooFast 0x108 (flagged false) (.prog { prog with parent := 1 }) ∧
      Registered tooFast 0x322 (flagged false) (.gck { gck with extraParents := [5, 1, 6] }) ∧
      inRange gck.range tooFast.a0.toNat = true ∧
      ∃ ps s₀, ratesOf [5] tooFast = some (ps, s₀) ∧ (rateFails s₀ 1).isSome = true :=
  ⟨exists_rateFails (by decide +kernel), by decide, registered (by decide +kernel), registered (by decide +kernel),
    by decide, registered (by decide +kernel), registered (by decide +kernel), by decide,
    exists_ratesOf (p := fun _ s₀ => (rateFails s₀ 1).isSome) (by decide +kernel)⟩

/-- For `PllGetRate` and `ClockGetRate`: each node's parent answers. -/
theorem witness_GetRate :
    ∀ x ∈ nodes, Registered (ready 0 []) x.1 (flagged false) x.2 ∧
      ∀ p, x.2.parent? = some p → ∃ s₁ r, (ready 0 []).rate p = (s₁, .ok r) ∧ true = true := by
  refine fun x hx => ⟨nodes_registered 0 [] x hx, ?_⟩
  simp only [nodes, List.mem_cons, List.not_mem_nil, or_false] at hx
  rcases hx with rfl | rfl | rfl | rfl | rfl | rfl | rfl | rfl <;> intro p hp <;> cases hp <;>
    exact exists_rate (p := fun _ _ => true) (by decide +kernel)

/-- The `mdiv` code that `MCK.GET_RATE` reads has a divisor: 2, for the fixture's code 1. -/
theorem witness_ClockGetRate_divisor :
    mck.divtab[fieldIn (readEvents (ready 0 []) [] mck.base (distinctOffs [mck.pres, mck.mdiv])) mck.base mck.mdiv]? =
      some 2 := by decide +kernel

/-! ### Register access, mux, node table -/

/-- The bytes next to the word written, on both sides. -/
theorem witness_RegWriteResult :
    (∃ t, exec (.regWrite 0) (ready 0x1000 []) = .next t ∧ (t.status == 0) = true) ∧
      ∀ b ∈ [0xFFF, 0x1004], ¬(((0x1000 : Operand).setWidth 32 + (0 : Operand).setWidth 32 : Word).toNat ≤ b ∧
        b < ((0x1000 : Operand).setWidth 32 + (0 : Operand).setWidth 32 : Word).toNat + 4) :=
  ⟨exists_next (by decide +kernel), by decide⟩

theorem witness_RegUpdateResult :
    ∃ t, exec (.regUpdate 0) (ready 0x1000 []) = .next t ∧ (t.status == 0) = true := exists_next (by decide +kernel)

/-- The first and the last entry of a table, a miss in each direction, and the rejected operands. -/
theorem witness_MuxCommands :
    Registered (ready 5 []) 8 (flagged false) (.mck mck) ∧ (NodeData.mck mck).table? = some mck.table ∧
      (ready 5 []).a0 = (5 : ClockId).setWidth 64 ∧ wellFormedId 5 = true ∧ mck.table.pid[3]? = some 5 ∧
      (∀ j < 3, mck.table.pid[j]? ≠ some 5) ∧ mck.table.sel[3]? = some 5 ∧ mck.table.sel[0]? = some 0 ∧
      (6 : ClockId) ∉ mck.table.pid ∧ (5 : Nat) < 2 ^ 32 ∧ (∀ j < 3, mck.table.sel[j]? ≠ some 5) ∧
      3 ∉ mck.table.sel ∧ (∃ e, (ready 0 []).nt.lookup 0 = some e ∧ e.data.table? = none) ∧
      (0x10000 : Operand).toNat ≥ 2 ^ 16 ∧ wellFormedId ((0x0500 : Operand).setWidth 16) = false ∧
      (0x100000000 : Operand).toNat ≥ 2 ^ 32 :=
  ⟨nodes_registered 5 [] (8, _) (by simp [nodes]), rfl, rfl, by decide, by decide, by decide, by decide, by decide,
    by decide, by decide, by decide, by decide,
    ⟨⟨0, flagged false, .osc ⟨24000000⟩⟩, by decide +kernel, rfl⟩, by decide,
    by decide, by decide⟩

theorem witness_NodeResolveResult :
    wellFormedId 0x0500 = false ∧ (ready 0 []).nt.lookup 2 = none ∧
      Registered (ready 0 []) 0 (flagged false) (.osc ⟨24000000⟩) ∧
      Registered (ready 0 []) 0x322 (flagged false) (.gck gck) :=
  ⟨by decide, by decide +kernel, nodes_registered 0 [] (0, _) (by simp [nodes]),
    nodes_registered 0 [] (0x322, _) (by simp [nodes])⟩

/-- The layout of a shared command register. -/
def sharedLayout (ready : Option FieldDesc) : LayoutDesc :=
  { idsel := some (field 0x20 6 0), mux := some (field 0x20 11 8), strobe := some (field 0x20 12 12)
    div := some (field 0x20 27 20), en := some (field 0x20 28 28), ready := ready }

/-- The descriptions of 95_test_vectors.md section 5.2, one of each kind and form, each with how many of the
fixture's entries, the latest first, come after its own. -/
def descriptions : List (Nat × NodeDesc) :=
  [(8, { id := 0, kindCode := 9, fixedRate := 24000000 }),
    (7, { id := 1, kindCode := 3, base := 0x1000, parent := some 0, range := ⟨600000000, 1200000000⟩
          layout := { mul := some (field 0 31 24), frac := some (field 0 21 0), en := some (field 4 0 0)
                      ready := some (field 0xC 0 0), strobe := some (field 8 0 0), bias := some (field 4 18 18)
                      bandgap := some (field 4 16 16), regulator := some (field 4 17 17) } }),
    (6, { id := 3, kindCode := 4, base := 0x1000, parent := some 1, range := ⟨10000000, 800000000⟩
          layout := { div := some (field 4 15 8), en := some (field 4 1 1), ready := some (field 0xC 1 1)
                      strobe := some (field 8 0 0) } }),
    (5, { id := 8, kindCode := 5, base := 0x1000, table := some mck.table, divtab := [1, 2, 4, 3], pres3 := some 7
          canDisable := true
          layout := { mux := some (field 0x10 2 0), pres := some (field 0x10 6 4), mdiv := some (field 0x10 9 8)
                      strobe := some (field 0x10 31 31), ready := some (field 0x14 0 0)
                      sysen := some (field 0x18 3 3) } }),
    (4, { id := 0x322, kindCode := 6, base := 0x1000, hwId := 34, table := some gck.table, extraParents := [6, 5]
          range := ⟨0, 200000000⟩, layout := sharedLayout (some (field 0x24 0 0)) }),
    (3, { id := 0x209, kindCode := 7, base := 0x1000, hwId := 9, parent := some 8, layout := sharedLayout none }),
    (2, { id := 0x108, kindCode := 8, base := 0x1000, mode := some .direct, table := some prog.table
          layout := { mux := some (field 0x30 2 0), ext := some (field 0x30 3 3), pres := some (field 0x30 11 4) } }),
    (1, { id := 0x109, kindCode := 8, base := 0x1000, mode := some .pow2, table := some prog2.table
          layout := { mux := some (field 0x34 2 0), pres := some (field 0x34 6 4) } })]

/-- The machine about to register the description at an index, with the words that `0x1000` and `0x1010` hold. -/
def registering (k : Nat) (mckWord : Word) : State :=
  match descriptions[k]? with
  | none => State.reset
  | some (n, d) =>
    { ready 0 [] with
      desc := d, nt := (table (flagged false) 24000000).drop n, target := target 0 mckWord [] }

/-- Every description is admitted, and its registration finds the parent that program P0 finds. -/
theorem test_nodeRegister_adds_fixture_entries :
    ((List.range 8).all fun k =>
      (nextOf (exec (.nodeRegister 0) (registering k 0x111))).any fun t =>
        t.status == 0 && some t.nt == ((descriptions[k]?).map fun x =>
          (table (flagged false) 24000000).drop (x.1 - 1))) = true := by decide +kernel

/-- The node that each description stands for. -/
def described : List NodeData :=
  [.osc ⟨24000000⟩, .fpll fpll, .dpll dpll, .mck mck, .gck gck, .peri peri, .prog prog, .prog prog2]

theorem forall_list {α : Type} {l : List α} {P : α → Prop} {p : α → Bool} (hp : ∀ a, p a = true → P a)
    (h : l.all p = true) : ∀ a ∈ l, P a := fun a ha => hp a (List.all_eq_true.1 h a ha)

theorem forall_option {α : Type} {o : Option α} {P : α → Prop} {p : α → Bool} (hp : ∀ a, p a = true → P a)
    (h : o.all p = true) : ∀ a ∈ o, P a := by
  intro a ha
  cases ha
  exact hp a h

/-- The checks that no kind has of its own, on the eight descriptions. -/
theorem descriptions_meet_common_checks (k : Nat) (hk : k < 8) (d : NodeData) (hd : described[k]? = some d)
    (h : KindChecks (registering k 0x111).desc (registering k 0x111).nt d) : StaticChecks (registering k 0x111) d := by
  have all : ((List.range 8).all fun k =>
      let s := registering k 0x111
      s.desc.idsOk && (s.nt.lookup s.desc.id).isNone && decide (s.nt.length < s.params.nodeMax) &&
        s.desc.layout.present.all FieldDesc.ok &&
        (described[k]?).all fun d => d.base?.all (fun b => b.toNat % 4 == 0) && d.oneBitFields.all FieldDesc.oneBit) =
      true := by decide +kernel
  have := List.all_eq_true.1 all k (List.mem_range.2 hk)
  rw [hd] at this
  simp only [NodeDesc.idsOk, Bool.and_eq_true, Option.isNone_iff_eq_none, decide_eq_true_eq, Option.all_some] at this
  obtain ⟨⟨⟨⟨⟨⟨⟨hid, hp⟩, he⟩, ht⟩, hn⟩, hm⟩, hl⟩, hb, ho⟩ := this
  refine ⟨hid, forall_option (fun _ h => h) hp, forall_list (fun _ h => h) he,
    forall_option (fun _ h => forall_list (fun _ h => h) h) ht, hn, hm, forall_list (fun f hf => ?_) hl,
    forall_option (fun _ h => by simpa using h) hb, forall_list (fun _ h => by simpa [FieldDesc.oneBit] using h) ho, h⟩
  simpa [FieldDesc.ok, and_assoc] using hf

theorem tableChecks {nt : NodeTable} {t : MuxTable} (h : t.ok nt = true) : TableChecks nt t := by
  simp only [MuxTable.ok, Bool.and_eq_true, decide_eq_true_eq, beq_iff_eq] at h
  obtain ⟨⟨⟨⟨⟨h1, h2⟩, h3⟩, h4⟩, h5⟩, h6⟩ := h
  exact ⟨h1, h2, h3, h4, h5, forall_list
    (fun _ h => by simpa [NodeTable.has, Option.isSome_iff_ne_none] using h) h6⟩

/-- The node that carries a description and meets the static checks, for each of the eight. -/
theorem descriptions_meet_checks (k : Nat) (hk : k < 8) :
    ∃ d, described[k]? = some d ∧ Carries (registering k 0x111).desc d ∧ StaticChecks (registering k 0x111) d := by
  interval_cases k <;>
    refine ⟨_, rfl, by simp only [Carries]; decide +kernel, descriptions_meet_common_checks _ (by decide) _ rfl ?_⟩
  · exact ⟨by decide, rfl, rfl⟩
  · exact ⟨by decide +kernel, by decide, by decide +kernel, rfl⟩
  · exact ⟨by decide, by decide +kernel, rfl⟩
  · exact ⟨tableChecks (by decide +kernel), by decide +kernel, by decide +kernel, by decide, by decide +kernel, by decide⟩
  · exact ⟨tableChecks (by decide +kernel), by decide +kernel, by decide +kernel, by decide +kernel, rfl, rfl, rfl, rfl,
      by decide, forall_list (p := fun p => gck.table.pid.contains p) (fun _ h => by simpa using h) (by decide +kernel)⟩
  · exact ⟨by decide +kernel, rfl, rfl, by decide, by decide +kernel, rfl⟩
  · exact ⟨tableChecks (by decide +kernel), by decide +kernel⟩
  · exact ⟨tableChecks (by decide +kernel), by decide +kernel⟩

/-- One admitted description of each kind; the mux codes the hardware holds have a parent in the tables. -/
theorem witness_NodeRegisterAddsEntry :
    (∀ k < 8, ∃ d, described[k]? = some d ∧ Carries (registering k 0x111).desc d ∧
        StaticChecks (registering k 0x111) d) ∧
      (mck.table.s2i
          (fieldIn (readEvents (registering 3 0x111) [] mck.base [mck.mux.off]) mck.base mck.mux) = some 1 ∧
        mck.table.pid[1]? = some 0) ∧
      (gck.table.s2i (gck.mux.extract
          (readAfter (registering 4 0x111) [.write 0x1020 (gck.port.idsel.place 34)] 0x1020)) = some 3 ∧
        gck.table.pid[3]? = some 3) ∧
      (prog.table.s2i 1 = some 1 ∧ prog.table.pid[1]? = some 0) ∧
      prog2.table.s2i
          (fieldIn (readEvents (registering 7 0x111) [] prog2.base (distinctOffs [prog2.mux])) prog2.base prog2.mux) =
        some 2 :=
  ⟨fun k hk => descriptions_meet_checks k hk, by decide +kernel, by decide +kernel, by decide +kernel,
    by decide +kernel⟩

/-- A target whose mux fields hold select codes that no table of the fixture lists. -/
def oddSelects : Target :=
  { target 0 0x114 [] with
    mem := words [(0x1010, 0x114), (0x1030, 0xE), (0x1034, 7)]
    applied := [(appliedKey 0x1020 34, 0x00500500)] }

/-- The registrations of the four nodes with a mux table on it. -/
def oddRegistering (k : Nat) : State := { registering k 0x111 with target := oddSelects }

/-- The registration of the master clock's description with a malformed ClockId in a field that its kind does not
use. -/
def strayId : State := { registering 3 0x111 with desc := { (registering 3 0x111).desc with parent := some 0x0500 } }

/-- R88: a malformed ClockId anywhere in a description, in a field its kind does not use too. -/
theorem test_nodeRegister_malformed_id :
    ends (.nodeRegister 0) strayId 1 0 0 [] = true ∧
      ends (.nodeRegister 0)
        { registering 7 0x111 with desc := { (registering 7 0x111).desc with extraParents := [0x0500] } } 1 0 0 [] =
          true := by decide +kernel

/-- A description the checks turn away, the four they accept, and the select codes the hardware holds for those, none of
them in the table. -/
theorem witness_NodeRegisterChecks :
    (∀ d, Carries strayId.desc d → ¬StaticChecks strayId d) ∧
      (∀ k ∈ [3, 4, 6, 7], ∃ d, Carries (oddRegistering k).desc d ∧ StaticChecks (oddRegistering k) d) ∧
      (∃ d, (registering 3 0x111).desc.accept (registering 3 0x111).params (registering 3 0x111).nt = some d) ∧
      fieldIn (readEvents (oddRegistering 3) [] mck.base [mck.mux.off]) mck.base mck.mux ∉ mck.table.sel ∧
      gck.mux.extract (readAfter (oddRegistering 4) [.write 0x1020 (gck.port.idsel.place 34)] 0x1020) ∉
        gck.table.sel ∧
      (fieldIn (readEvents (oddRegistering 6) [] prog.base (distinctOffs [prog.mux, field 0x30 3 3])) prog.base
          prog.mux |||
        (fieldIn (readEvents (oddRegistering 6) [] prog.base (distinctOffs [prog.mux, field 0x30 3 3])) prog.base
          (field 0x30 3 3) <<< prog.mux.width)) ∉ prog.table.sel ∧
      fieldIn (readEvents (oddRegistering 7) [] prog2.base (distinctOffs [prog2.mux])) prog2.base prog2.mux ∉
        prog2.table.sel := by
  refine ⟨fun d _ hs => absurd (hs.2.1 0x0500 rfl) (by decide), ?_, Option.isSome_iff_exists.1 (by decide +kernel),
    by decide +kernel, by decide +kernel, by decide +kernel, by decide +kernel⟩
  intro k hk
  have hk8 : k < 8 := by
    simp only [List.mem_cons, List.not_mem_nil, or_false] at hk
    omega
  obtain ⟨d, -, h⟩ := descriptions_meet_checks k hk8
  exact ⟨d, h⟩

/-- Each of the four ends with `UnknownSelect` (95_test_vectors.md section 3.5). -/
theorem test_nodeRegister_unknown_select :
    ([3, 4, 6, 7].all fun k =>
      (nextOf (exec (.nodeRegister 0) (oddRegistering k))).any fun t =>
        t.status == 3 && t.nt == (oddRegistering k).nt) = true := by decide +kernel

/-! ### Commands on nodes -/

/-- For `PllEnableSequence`, `PllDisableSequence` and `SharedRegisterCommands`. -/
theorem witness_commands_on_nodes :
    (flagged false).critical = false ∧ Registered (ready 0 []) 1 (flagged false) (.fpll fpll) ∧
      Registered (ready 0 []) 3 (flagged false) (.dpll dpll) ∧
      Registered (ready 0 []) 0x322 (flagged false) (.gck gck) ∧
      Registered (ready 0 []) 0x209 (flagged false) (.peri peri) ∧ (ready 0 []).a0 = (0 : ClockId).setWidth 64 ∧
      wellFormedId 0 = true ∧ gck.table.p2s 0 = some 1 :=
  ⟨rfl, nodes_registered 0 [] (1, _) (by simp [nodes]), nodes_registered 0 [] (3, _) (by simp [nodes]),
    nodes_registered 0 [] (0x322, _) (by simp [nodes]), nodes_registered 0 [] (0x209, _) (by simp [nodes]), rfl,
    by decide, by decide⟩

theorem witness_FpllSetRateResult :
    Registered (ready 800000000 []) 1 (flagged false) (.fpll fpll) ∧ (ready 800000000 []).a0 ≠ 0 ∧
      inRange fpll.range (ready 800000000 []).a0.toNat = true ∧
      ∃ s₁ r, (ready 800000000 []).rate fpll.parent = (s₁, .ok r) ∧
        (r != 0 && decide ((fpllCompute r 800000000).frac ≤ fpll.frac.fmax) &&
          decide ((fpllCompute r 800000000).mul ≤ fpll.mul.fmax) &&
          decide ((fpllCompute r 800000000).achieved < 2 ^ 64)) = true :=
  ⟨nodes_registered _ _ (1, _) (by simp [nodes]), by decide, by decide, exists_rate (by decide +kernel)⟩

theorem witness_DpllSetRateResult :
    Registered (programmed 320000000) 3 (flagged false) (.dpll dpll) ∧ (programmed 320000000).a0 ≠ 0 ∧
      ∃ s₁ r, (programmed 320000000).rate dpll.parent = (s₁, .ok r) ∧
        (roundDiv r 320000000 != 0 && decide (roundDiv r 320000000 - 1 ≤ dpll.div.fmax) &&
          inRange dpll.range (rdiv s₁.params.rdiv r (roundDiv r 320000000))) = true :=
  ⟨registered (by decide +kernel), by decide, exists_rate (by decide +kernel)⟩

/-- A zero target on each kind, and for each kind the rejections of a target that is not zero. -/
theorem witness_ArgumentRejections :
    ((ready 0 []).a0 = 0 ∧ ∀ x ∈ nodes, Registered (ready 0 []) x.1 (flagged false) x.2) ∧
      (Registered (ready 599999999 []) 1 (flagged false) (.fpll fpll) ∧ inRange fpll.range 599999999 = false) ∧
      (inRange fpll.range 815999999 = true ∧ (fpllCompute 24000000 815999999).frac > fpll.frac.fmax) ∧
      (∃ s₁ r, (programmed 5000000).rate dpll.parent = (s₁, .ok r) ∧
        !inRange dpll.range (rdiv s₁.params.rdiv r (roundDiv r 5000000)) = true) ∧
      (roundDiv 800000000 1600000001 = 0 ∧ roundDiv 800000000 3118908 - 1 > dpll.div.fmax) ∧
      inRange gck.range 200000001 = false ∧
      (inRange prog2.range 4000000 = true ∧ progCompute prog2.mode 12000000 4000000 prog2.pres.fmax = none) ∧
      (NodeData.mck mck).table? = some mck.table ∧ (0x10000 : Operand).toNat ≥ 2 ^ 16 ∧
      wellFormedId ((0x0500 : Operand).setWidth 16) = false :=
  ⟨⟨rfl, nodes_registered 0 []⟩, ⟨nodes_registered _ _ (1, _) (by simp [nodes]), by decide⟩, by decide +kernel,
    exists_rate (by decide +kernel), by decide +kernel, by decide, by decide +kernel, rfl, by decide, by decide⟩

/-- A machine with an oscillator at 0 Hz, a generic clock without additional parents, and programmable clocks with a
range and without the extension bit. -/
def rare (a0 : Operand) : State :=
  { ready a0 [] with
    nt :=
      [⟨0x322, flagged false, .gck { gck with extraParents := [] }⟩,
        ⟨0x108, flagged false, .prog { prog with range := ⟨10, 20⟩, ext := none }⟩] ++
        (table (flagged false) 0).drop 4 }

theorem witness_ArgumentRejections_rare :
    (Registered nearTop 1 (flagged false) (.fpll { fpll with range := ⟨0, 0⟩ }) ∧
      ∃ s₁ r, nearTop.rate fpll.parent = (s₁, .ok r) ∧ (r != 0 &&
        decide ((fpllCompute r nearTop.a0.toNat).achieved ≥ 2 ^ 64)) = true) ∧
    Registered (rare 600000000) 1 (flagged false) (.fpll fpll) ∧ inRange fpll.range 600000000 = true ∧
      (∃ s₁ r, (rare 600000000).rate fpll.parent = (s₁, .ok r) ∧ (r == 0) = true) ∧
      Registered (rare 1) 0x322 (flagged false) (.gck { gck with extraParents := [] }) ∧
      inRange gck.range 1 = true ∧
      Registered (rare 21) 0x108 (flagged false) (.prog { prog with range := ⟨10, 20⟩, ext := none }) ∧
      inRange ⟨10, 20⟩ 21 = false ∧ inRange ⟨10, 20⟩ 9 = false :=
  ⟨⟨registered (by decide +kernel), exists_rate (by decide +kernel)⟩, registered (by decide +kernel), by decide, exists_rate (by decide +kernel), registered (by decide +kernel),
    by decide, registered (by decide +kernel), by decide, by decide⟩

/-- The first command completes and the second finds what it left; a read of the status register and a select write of
the shared command register lie between them. -/
theorem witness_PllSetRateTwiceWritesOnce_fpll :
    ∃ s₁ t u u₁ : State, (ready 800000000 []).nt.ok = true ∧ s₁.target.havoc = false ∧
      u.a0 = (ready 800000000 []).a0 ∧ u.params = (ready 800000000 []).params ∧
      u₁.target = t.target.replay [.read 0x100C 0, .write 0x1020 0x22] ∧
      s₁.target.regAt 0x1020 = some (.shared 0x7F 0x1000 0x1FF00F00) ∧ (t.busy = true ∨ t.status = 0) ∧
      Registered (ready 800000000 []) 1 (flagged false) (.fpll fpll) ∧
      (ready 800000000 []).rate fpll.parent = (s₁, .ok 24000000) ∧
      s₁.target.regAt (busAddr fpll.base fpll.mul.off) = some (.plain 0xFFFFFFFF) ∧
      fpll.mul.mask &&& 0xFFFFFFFF = fpll.mul.mask ∧
      s₁.target.regAt (busAddr fpll.base fpll.frac.off) = some (.plain 0xFFFFFFFF) ∧
      fpll.frac.mask &&& 0xFFFFFFFF = fpll.frac.mask ∧
      s₁.target.regAt (busAddr fpll.base fpll.strobe.off) = some (.plain 0) ∧
      fpll.mul.mask &&& fpll.frac.mask = 0 ∧ fpll.mul.off ≠ fpll.strobe.off ∧ fpll.frac.off ≠ fpll.strobe.off ∧
      exec (.fpllSetRate 1) (ready 800000000 []) = .next t ∧
      Registered u 1 (flagged false) (.fpll { fpll with pll := .disabled }) ∧
      u.rate fpll.parent = (u₁, .ok 24000000) := by
  obtain ⟨t, ht, h0⟩ := exists_next (o := exec (.fpllSetRate 1) (ready 800000000 []))
    (p := fun t => t.status == 0) (by decide +kernel)
  have r1 := nodes_registered 800000000 [] (1, .fpll fpll) (by simp [nodes])
  exact ⟨ready 800000000 [], t,
    { ready 800000000 [] with target := t.target.replay [.read 0x100C 0, .write 0x1020 0x22] },
    { ready 800000000 [] with target := t.target.replay [.read 0x100C 0, .write 0x1020 0x22] },
    by decide +kernel, rfl, rfl, rfl, rfl, by decide +kernel, .inr (by simpa using h0), r1, rfl, by decide +kernel,
    by decide, by decide +kernel, by decide, by decide +kernel, by decide, by decide, by decide, ht, r1, rfl⟩

/-- The divider PLL; nothing but the second command's rate query, one read, comes between the two. -/
theorem witness_PllSetRateTwiceWritesOnce_dpll :
    ∃ s₁ t u₁ : State, (programmed 400000000).nt.ok = true ∧ s₁.target.havoc = false ∧
      u₁.target = t.target.replay [.read 0x1000 0x21155555] ∧ (t.busy = true ∨ t.status = 0) ∧
      Registered (programmed 400000000) 3 (flagged false) (.dpll dpll) ∧
      (programmed 400000000).rate dpll.parent = (s₁, .ok 799999998) ∧
      s₁.target.regAt (busAddr dpll.base dpll.div.off) = some (.plain 0xFFFFFFFF) ∧
      dpll.div.mask &&& 0xFFFFFFFF = dpll.div.mask ∧
      s₁.target.regAt (busAddr dpll.base dpll.strobe.off) = some (.plain 0) ∧ dpll.div.off ≠ dpll.strobe.off ∧
      exec (.dpllSetRate 3) (programmed 400000000) = .next t ∧
      ({ programmed 400000000 with target := t.target } : State).rate dpll.parent = (u₁, .ok 799999998) := by
  obtain ⟨s₁, r, hr, h1⟩ := exists_rate (s := programmed 400000000) (id := dpll.parent)
    (p := fun s₁ r => r == 799999998 && !s₁.target.havoc &&
      s₁.target.regAt (busAddr dpll.base dpll.div.off) == some (.plain 0xFFFFFFFF) &&
      s₁.target.regAt (busAddr dpll.base dpll.strobe.off) == some (.plain 0)) (by decide +kernel)
  obtain ⟨t, ht, h0⟩ := exists_next (o := exec (.dpllSetRate 3) (programmed 400000000))
    (p := fun t => t.status == 0 && (rated { programmed 400000000 with target := t.target } dpll.parent).any
      (fun x => x.2 == 799999998 && x.1.target == t.target.replay [.read 0x1000 0x21155555])) (by decide +kernel)
  simp only [Bool.and_eq_true, beq_iff_eq, Bool.not_eq_true'] at h1
  obtain ⟨⟨⟨rfl, hh⟩, hd⟩, hs⟩ := h1
  have h0 := (Bool.and_eq_true _ _).mp h0
  obtain ⟨u₁, r', hu, h2⟩ := exists_rate
    (p := fun u₁ r => r == 799999998 && u₁.target == t.target.replay [.read 0x1000 0x21155555]) h0.2
  have h2 := (Bool.and_eq_true _ _).mp h2
  exact ⟨s₁, t, u₁, by decide +kernel, hh, eq_of_beq h2.2, .inr (eq_of_beq h0.1), registered (by decide +kernel), hr,
    hd, by decide, hs, by decide, ht, eq_of_beq h2.1 ▸ hu⟩

theorem witness_MckCommands :
    Registered (ready 5 []) 8 (flagged false) (.mck mck) ∧ Registered critical 8 (flagged true) (.mck mck) ∧
      (flagged true).critical = true ∧ (flagged false).critical = false ∧ mck.canDisable = true ∧
      mck.sysen = some (field 0x18 3 3) ∧ (ready 5 []).a0 = (5 : ClockId).setWidth 64 ∧ wellFormedId 5 = true ∧
      mck.table.p2s 5 = some 5 :=
  ⟨nodes_registered 5 [] (8, _) (by simp [nodes]), registered (by decide +kernel), rfl, rfl, rfl, rfl, rfl, by decide,
    by decide⟩

/-- The machine whose `core:8` cannot be disabled. -/
theorem witness_MckCommands_cannot_disable :
    Registered { ready 0 [] with nt := [⟨8, flagged false, .mck { mck with canDisable := false }⟩] } 8 (flagged false)
        (.mck { mck with canDisable := false }) ∧ ({ mck with canDisable := false } : MckNode).canDisable = false :=
  ⟨registered (by decide +kernel), rfl⟩

/-- Example 3 of the source (E3 of 95_test_vectors.md). -/
theorem witness_GckSetRateResult :
    Registered (ready 105000000 []) 0x322 (flagged false) (.gck gck) ∧ (ready 105000000 []).a0 ≠ 0 ∧
      inRange gck.range (ready 105000000 []).a0.toNat = true ∧ gck.extraParents ≠ [] ∧
      ∃ ps s₁, ratesOf gck.extraParents (ready 105000000 []) = some (ps, s₁) ∧
        ((bestOf .floor 105000000 ps).any fun b =>
          b.pid == 6 && b.div == 6 && gck.table.p2s b.pid == some 9) = true :=
  ⟨nodes_registered _ _ (0x322, _) (by simp [nodes]), by decide, by decide, by decide,
    exists_ratesOf (by decide +kernel)⟩

/-- Codes 4 and 9 of `system:8`, within its base field and beyond it; a code beyond the field of a programmable clock
without the extension bit. -/
theorem witness_ProgSetParentResult :
    Registered (ready 5 []) 0x108 (flagged false) (.prog prog) ∧ (ready 5 []).a0 = (5 : ClockId).setWidth 64 ∧
      wellFormedId 5 = true ∧ prog.table.p2s 5 = some 4 ∧ prog.ext = some (field 0x30 3 3) ∧
      prog.table.p2s 6 = some 9 ∧ 9 > prog.mux.fmax ∧
      Registered (ready 7 []) 0x109 (flagged false) (.prog prog2) ∧ prog2.table.p2s 7 = some 2 ∧ prog2.ext = none ∧
      2 ≤ prog2.mux.fmax ∧
      Registered (rare 6) 0x108 (flagged false) (.prog { prog with range := ⟨10, 20⟩, ext := none }) ∧
      (rare 6).a0 = (6 : ClockId).setWidth 64 :=
  ⟨nodes_registered _ _ (0x108, _) (by simp [nodes]), rfl, by decide, by decide, rfl, by decide, by decide +kernel,
    nodes_registered _ _ (0x109, _) (by simp [nodes]), by decide, rfl, by decide +kernel,
    registered (by decide +kernel), rfl⟩

theorem witness_ProgSetRateResult :
    Registered (ready 93750 []) 0x109 (flagged false) (.prog prog2) ∧ (ready 93750 []).a0 ≠ 0 ∧
      inRange prog2.range (ready 93750 []).a0.toNat = true ∧
      ∃ s₁ r, (ready 93750 []).rate prog2.parent = (s₁, .ok r) ∧
        (progCompute prog2.mode r 93750 prog2.pres.fmax == some 7) = true :=
  ⟨nodes_registered _ _ (0x109, _) (by simp [nodes]), by decide, by decide, exists_rate (by decide +kernel)⟩

/-- Example 4 of the source (E4 of 95_test_vectors.md). -/
theorem witness_SetParentMissIsAtomic :
    Registered (ready 6 []) 8 (flagged false) (.mck mck) ∧ (NodeData.mck mck).table? = some mck.table ∧
      (ready 6 []).a0 = (6 : ClockId).setWidth 64 ∧ wellFormedId 6 = true ∧ (6 : ClockId) ∉ mck.table.pid :=
  ⟨nodes_registered 6 [] (8, _) (by simp [nodes]), rfl, rfl, by decide, by decide⟩

end Sys2Proof.Tests
end

