-- ==== Sys2Proof/Proofs/Arithmetic.lean ====
section
/-! PROOFS. The arithmetic of 00_scope.md R8, R10 and R11, and the programmable clock's exact division (R217). -/

namespace Sys2Proof.Proofs

open Machine

/-! ## `round` -/

/-- `round(a / b)` is at most half a unit above `a / b`. -/
theorem roundDiv_mul_le (a b : Nat) : 2 * (roundDiv a b * b) ≤ 2 * a + b := by
  calc 2 * (roundDiv a b * b) = (2 * a + b) / (2 * b) * (2 * b) := by rw [roundDiv]; ring
    _ ≤ 2 * a + b := Nat.div_mul_le_self _ _

/-- `round(a / b)` is less than half a unit below `a / b`: a tie goes up. -/
theorem lt_roundDiv_mul (a b : Nat) (hb : 0 < b) : 2 * a < 2 * (roundDiv a b * b) + b := by
  have hlt : 2 * a + b < (2 * a + b) / (2 * b) * (2 * b) + 2 * b := Nat.lt_div_mul_add (by omega)
  have heq : (2 * a + b) / (2 * b) * (2 * b) = 2 * (roundDiv a b * b) := by rw [roundDiv]; ring
  omega

/-! ## `clog2` -/

/-- The search finds an exponent that is large enough, when one lies within its fuel. -/
theorem le_two_pow_clog2From (fuel s a b : Nat) (h : a ≤ b * 2 ^ (s + fuel)) :
    a ≤ b * 2 ^ clog2From fuel s a b := by
  induction fuel generalizing s with
  | zero => exact h
  | succ fuel ih =>
    unfold clog2From
    split
    next hs => exact hs
    next => exact ih (s + 1) (by rwa [Nat.add_right_comm, Nat.add_assoc])

/-- The search goes up one exponent at a time, so it passes none that is large enough. -/
theorem clog2From_le_of_le (fuel s m a b : Nat) (hsm : s ≤ m) (hm : a ≤ b * 2 ^ m) :
    clog2From fuel s a b ≤ m := by
  induction fuel generalizing s with
  | zero => exact hsm
  | succ fuel ih =>
    unfold clog2From
    split
    next => exact hsm
    next hs =>
      have hne : s ≠ m := fun h => hs (h ▸ hm)
      exact ih (s + 1) (by omega)

/-- For a positive `b` the fuel of `clog2` suffices. -/
theorem le_two_pow_clog2 (a b : Nat) (hb : 0 < b) : a ≤ b * 2 ^ clog2 a b := by
  refine le_two_pow_clog2From _ 0 a b ?_
  calc a ≤ 2 ^ (Nat.log2 a + 1) := Nat.lt_log2_self.le
    _ ≤ b * 2 ^ (0 + (Nat.log2 a + 1)) := by
      rw [Nat.zero_add]
      exact Nat.le_mul_of_pos_left _ hb

theorem clog2_le_of_le (a b m : Nat) (hm : a ≤ b * 2 ^ m) : clog2 a b ≤ m :=
  clog2From_le_of_le _ 0 m a b (Nat.zero_le m) hm

/-- `clog2` inverts an exact multiplication by a power of two. -/
theorem clog2_mul_two_pow (t v : Nat) (ht : 0 < t) : clog2 (t * 2 ^ v) t = v := by
  have hle : clog2 (t * 2 ^ v) t ≤ v := clog2_le_of_le _ t v le_rfl
  have hpow : 2 ^ v ≤ 2 ^ clog2 (t * 2 ^ v) t :=
    Nat.le_of_mul_le_mul_left (le_two_pow_clog2 (t * 2 ^ v) t ht) ht
  exact le_antisymm hle ((Nat.pow_le_pow_iff_right Nat.one_lt_two).1 hpow)

/-! ## The arithmetic functions and the range test -/

/-- Settles O26: the bounds of `round` from the floor division it is, `clog2` from its upward search. -/
theorem arithmeticFunctions : Obligations.ArithmeticFunctions := by
  intro a b hb
  have hzero (hab : a ≤ b) : clog2 a b = 0 := Nat.le_zero.1 (clog2_le_of_le a b 0 (by simpa using hab))
  exact ⟨rfl, roundDiv_mul_le a b, lt_roundDiv_mul a b hb, le_two_pow_clog2 a b hb, clog2_le_of_le a b,
    hzero, rfl, rfl, rfl⟩

/-- Settles O27: each of the two bounds is a test of its own. -/
theorem rangeTest : Obligations.RangeTest := by
  intro r v
  have hmin : (r.min == 0 || decide (r.min ≤ v)) = true ↔ r.min = 0 ∨ v ≥ r.min := by simp
  have hmax : (r.max == 0 || decide (v ≤ r.max)) = true ↔ r.max = 0 ∨ v ≤ r.max := by simp
  rw [inRange, Bool.and_eq_true, hmin, hmax]

/-! ## The programmable clock's code -/

/-- The direct mode: the divider is the quotient, and the product test says that the division is exact (R217). -/
theorem progCompute_direct_eq_some (p t pmax v : Nat) (ht : 0 < t) :
    progCompute .direct p t pmax = some v ↔ p = (v + 1) * t ∧ v + 1 ≤ 256 ∧ v ≤ pmax := by
  have hcap : Config.progDivMax = 256 := rfl
  simp only [progCompute, Option.ite_none_left_eq_some, Option.some.injEq, not_not]
  constructor
  · rintro ⟨hrange, hexact, hmax, hcode⟩
    have hdiv : p / t = v + 1 := by omega
    exact ⟨by rw [← hdiv, hexact], by omega, by omega⟩
  · rintro ⟨rfl, hrange, hmax⟩
    have hdiv : (v + 1) * t / t = v + 1 := Nat.mul_div_cancel _ ht
    rw [hdiv]
    exact ⟨by omega, rfl, by omega, rfl⟩

/-- The shift test fails unless the shifted rate was a multiple: `clog2` rounds up, the shift rounds down. -/
theorem shiftRight_clog2_eq_iff (p t : Nat) (ht : 0 < t) :
    p >>> clog2 p t = t ↔ p = t * 2 ^ clog2 p t := by
  rw [Nat.shiftRight_eq_div_pow]
  constructor
  · intro h
    refine le_antisymm (le_two_pow_clog2 p t ht) ?_
    calc t * 2 ^ clog2 p t = p / 2 ^ clog2 p t * 2 ^ clog2 p t := by rw [h]
      _ ≤ p := Nat.div_mul_le_self _ _
  · intro h
    exact Nat.div_eq_of_eq_mul_left (Nat.two_pow_pos _) h

/-- The power-of-two mode: the code is `clog2` of the ratio, tested to be exact (R217). -/
theorem progCompute_pow2_eq_some (p t pmax v : Nat) (ht : 0 < t) :
    progCompute .pow2 p t pmax = some v ↔ p = t * 2 ^ v ∧ v ≤ pmax := by
  simp only [progCompute, Option.ite_none_left_eq_some, Option.some.injEq, not_not, shiftRight_clog2_eq_iff p t ht]
  constructor
  · rintro ⟨-, hexact, hmax, rfl⟩
    exact ⟨hexact, Nat.not_lt.1 hmax⟩
  · rintro ⟨rfl, hmax⟩
    have hle : t ≤ t * 2 ^ v := Nat.le_mul_of_pos_right t (Nat.two_pow_pos v)
    rw [clog2_mul_two_pow t v ht]
    exact ⟨Nat.not_lt.2 hle, rfl, Nat.not_lt.2 hmax, rfl⟩

/-- Settles O31, a mode at a time. -/
theorem progComputeExact : Obligations.ProgComputeExact := fun p t pmax v ht =>
  ⟨progCompute_direct_eq_some p t pmax v ht, progCompute_pow2_eq_some p t pmax v ht⟩

end Sys2Proof.Proofs
end

