-- ==== Sys2Proof/Proofs/CommandFrame.lean ====
section
/-! PROOFS. The frame of a command: bus accesses, each read answered by the target, and new values of `R0`, `R1`,
`STATUS`, the engine's position and `NT`; everything else stays (R7, R20, R21, R35, R65). -/

namespace Sys2Proof.Proofs

open Machine Laws

/-! ## What a command may change -/

/-- The second state is the first after some bus events, each read among them answered by the target, but for
`R0`, `R1`, `STATUS`, the engine's position and `NT`. -/
def ByCommand (s t : State) : Prop :=
  ∃ evs, Explained s.target evs ∧
    t = { afterEvents s evs with r0 := t.r0, r1 := t.r1, status := t.status, engine := t.engine, nt := t.nt }

theorem byCommand_of_traced {s t : State} (h : Traced s t) : ByCommand s t := by
  obtain ⟨evs, rfl, hevs⟩ := h
  exact ⟨evs, hevs, rfl⟩

/-- A change of the five fields without a bus access. -/
theorem byCommand_of_eq {s t : State}
    (h : t = { s with r0 := t.r0, r1 := t.r1, status := t.status, engine := t.engine, nt := t.nt }) :
    ByCommand s t :=
  ⟨[], trivial, by simpa using h⟩

theorem byCommand_trans {s t u : State} (hst : ByCommand s t) (htu : ByCommand t u) : ByCommand s u := by
  obtain ⟨evs, hevs, ht⟩ := hst
  obtain ⟨evs', hevs', hu⟩ := htu
  have htarget : t.target = s.target.replay evs := by rw [ht]; rfl
  refine ⟨evs ++ evs', (explained_append _ _ _).2 ⟨hevs, htarget ▸ hevs'⟩, ?_⟩
  rw [hu, ht, ← afterEvents_afterEvents]
  rfl

/-- After some bus accesses, whatever a command may do. -/
theorem byCommand_after {s t u : State} (hst : Traced s t) (htu : ByCommand t u) : ByCommand s u :=
  byCommand_trans (byCommand_of_traced hst) htu

/-- The frame: what no command changes. -/
theorem byCommand_frame {s t : State} (h : ByCommand s t) :
    t.cmd = s.cmd ∧ t.a0 = s.a0 ∧ t.a1 = s.a1 ∧ t.a2 = s.a2 ∧ t.a3 = s.a3 ∧ t.desc = s.desc ∧
      t.params = s.params ∧ t.host = s.host := by
  obtain ⟨evs, -, ht⟩ := h
  rw [ht]
  exact ⟨rfl, rfl, rfl, rfl, rfl, rfl, rfl, rfl⟩

theorem byCommand_map {s t : State} (h : ByCommand s t) : t.target.map = s.target.map := by
  obtain ⟨evs, -, ht⟩ := h
  rw [ht]
  exact replay_map s.target evs

/-! ## Ends of commands, polls and the node's state -/

theorem raise_byCommand (s : State) (e : CmdError) : ByCommand s (s.raise e) := byCommand_of_eq rfl

theorem result_byCommand (s : State) (r0 r1 : Operand) : ByCommand s (s.result r0 r1) := byCommand_of_eq rfl

theorem finish_byCommand (s : State) (node : ClockId) (c : Completion) : ByCommand s (s.finish node c) :=
  byCommand_of_eq rfl

theorem setPll_byCommand (s : State) (id : ClockId) (st : PllState) : ByCommand s (s.setPll id st) :=
  byCommand_of_eq rfl

theorem addNode_byCommand (s : State) (id : ClockId) (flags : NodeFlags) (d : NodeData) :
    ByCommand s (s.addNode id flags d) :=
  byCommand_of_eq rfl

theorem poll_byCommand (s : State) (p : Poll) : ByCommand s (s.poll p) := by
  rcases poll_cases s p with ⟨-, hp⟩ | ⟨-, hp⟩
  · rw [hp]
    exact byCommand_after (memRead_traced s p.addr) (finish_byCommand _ _ _)
  · rw [hp]
    exact byCommand_after (memRead_traced s p.addr) (byCommand_of_eq rfl)

theorem pollField_byCommand (s : State) (node : ClockId) (base : Word) (f : FieldDesc) (awaited : Bool)
    (c : Completion) : ByCommand s (s.pollField node base f awaited c) :=
  poll_byCommand s _

theorem pollOptional_byCommand (s : State) (node : ClockId) (base : Word) (f : Option FieldDesc)
    (c : Completion) : ByCommand s (s.pollOptional node base f c) := by
  cases f with
  | none => exact finish_byCommand s node c
  | some f => exact pollField_byCommand s node base f true c

theorem selectThenConfigure_byCommand (s : State) (node : ClockId) (p : SharedPort) (m x : Word)
    (c : Completion) : ByCommand s (s.selectThenConfigure node p m x c) := by
  have hacc : Traced s ((s.selectId p).configure p m x) :=
    traced_trans (selectId_traced s p) (configure_traced _ p m x)
  rcases selectThenConfigure_cases s node p m x c with ⟨ready, -, -, h⟩ | ⟨-, h⟩
  · rw [h]
    exact byCommand_after hacc (pollField_byCommand _ _ _ _ _ _)
  · rw [h]
    exact byCommand_after hacc (finish_byCommand _ _ _)

/-! ## Outcomes -/

/-- An outcome that is a next state only by what a command may change. -/
def OutcomeByCommand (s : State) (o : Outcome) : Prop := ∀ t, o = .next t → ByCommand s t

theorem outcome_next {s t : State} (h : ByCommand s t) : OutcomeByCommand s (.next t) := by
  rintro _ ⟨⟩
  exact h

theorem outcome_raise (s : State) (e : CmdError) : OutcomeByCommand s (.next (s.raise e)) :=
  outcome_next (raise_byCommand s e)

theorem outcome_result (s : State) (r0 r1 : Operand) : OutcomeByCommand s (.next (s.result r0 r1)) :=
  outcome_next (result_byCommand s r0 r1)

theorem outcome_of_traced {s t : State} {o : Outcome} (hst : Traced s t) (h : OutcomeByCommand t o) :
    OutcomeByCommand s o :=
  fun u hu => byCommand_after hst (h u hu)

theorem outcome_stop (s : State) (x : Stop) : OutcomeByCommand s (s.stop x) := by
  cases x with
  | raised e => exact outcome_raise s e
  | stuck f => exact fun t ht => nomatch ht

/-- A command that needs its parent's rate: the rate query is bus accesses alone (R240, R266). -/
theorem outcome_withRate (s : State) (id : ClockId) (k : Nat → State → Outcome)
    (hk : ∀ r s₁, OutcomeByCommand s₁ (k r s₁)) : OutcomeByCommand s (s.withRate id k) := by
  have hrate := rate_traced s id
  rcases withRate_cases s id k with ⟨s₁, x, hs, h⟩ | ⟨s₁, r, hs, h⟩ <;> rw [h] <;> rw [hs] at hrate
  · exact outcome_of_traced hrate (outcome_stop s₁ x)
  · exact outcome_of_traced hrate (hk r s₁)

theorem outcome_rateResult {s : State} (r : State × Except Stop Nat) (h : Traced s r.1) :
    OutcomeByCommand s (State.rateResult r) := by
  obtain ⟨s₁, x | rate⟩ := r
  · exact outcome_of_traced h (outcome_stop s₁ x)
  · exact outcome_of_traced h (outcome_result s₁ _ _)

/-- The end of every `GET_RATE` of a node with a parent: the node's own readback (R240). -/
theorem outcome_readback (d : NodeData) (r : Nat) (s : State) :
    OutcomeByCommand s (State.rateResult (readback d r s)) :=
  outcome_rateResult _ (readback_traced d r s)

/-! ## Register access, mux translator and node table commands -/

theorem regRead_outcome (node : ClockId) (s : State) : OutcomeByCommand s (execRegRead node s) := by
  unfold execRegRead
  split
  · exact outcome_raise s _
  split
  · split
    · exact outcome_raise s _
    · exact outcome_of_traced (regRead_traced s _ _) (outcome_result _ _ _)
  · exact outcome_raise s _

theorem regWrite_outcome (node : ClockId) (s : State) : OutcomeByCommand s (execRegWrite node s) := by
  unfold execRegWrite
  split
  · exact outcome_raise s _
  split
  · split
    · exact outcome_raise s _
    · exact outcome_of_traced (regWrite_traced s _ _ _) (outcome_result _ _ _)
  · exact outcome_raise s _

theorem regUpdate_outcome (node : ClockId) (s : State) : OutcomeByCommand s (execRegUpdate node s) := by
  unfold execRegUpdate
  split
  · exact outcome_raise s _
  split
  · split
    · exact outcome_raise s _
    · exact outcome_of_traced (regUpdate_traced s _ _ _ _) (outcome_result _ _ _)
  · exact outcome_raise s _

theorem muxP2s_outcome (node : ClockId) (s : State) : OutcomeByCommand s (execMuxP2s node s) := by
  unfold execMuxP2s
  split
  · split
    · exact outcome_raise s _
    · exact outcome_result s _ _
  · exact outcome_raise s _

theorem muxS2i_outcome (node : ClockId) (s : State) : OutcomeByCommand s (execMuxS2i node s) := by
  unfold execMuxS2i
  split
  · split
    · exact outcome_raise s _
    · exact outcome_result s _ _
  · exact outcome_raise s _

theorem nodeRegister_outcome (node : ClockId) (s : State) : OutcomeByCommand s (execNodeRegister node s) := by
  unfold execNodeRegister
  split
  · exact outcome_raise s _
  split
  · exact outcome_raise s _
  next d _ =>
    split
    · exact outcome_of_traced (discover_traced s d) (outcome_raise _ _)
    · exact outcome_of_traced (discover_traced s d)
        (outcome_next (byCommand_trans (addNode_byCommand _ _ _ _) (result_byCommand _ _ _)))

theorem nodeResolve_outcome (node : ClockId) (s : State) : OutcomeByCommand s (execNodeResolve node s) := by
  unfold execNodeResolve
  split
  · exact outcome_raise s _
  · exact outcome_result s _ _

/-! ## The two PLLs -/

theorem fpllProgram_byCommand (node : ClockId) (n : FpllNode) (c : FpllSetting) (s : State) :
    ByCommand s (fpllProgram node n c s) := by
  have hread := fieldsGet_traced s n.base [n.mul, n.frac, n.en]
  have hset := traced_trans hread (traced_trans
    (fieldsSet_traced _ n.base [(n.mul, c.mul), (n.frac, c.frac)]) (strobe_traced _ n.base n.strobe))
  unfold fpllProgram
  dsimp only
  split
  · exact byCommand_after hread (result_byCommand _ _ _)
  split
  · exact byCommand_after hset (pollField_byCommand _ _ _ _ _ _)
  · exact byCommand_after hset (result_byCommand _ _ _)

theorem dpllProgram_byCommand (node : ClockId) (n : DpllNode) (div achieved : Nat) (s : State) :
    ByCommand s (dpllProgram node n div achieved s) := by
  have hread := fieldsGet_traced s n.base [n.div, n.en]
  have hset := traced_trans hread (traced_trans
    (fieldSet_traced _ n.base n.div div) (strobe_traced _ n.base n.strobe))
  unfold dpllProgram
  dsimp only
  split
  · exact byCommand_after hread (result_byCommand _ _ _)
  split
  · exact byCommand_after hset (pollField_byCommand _ _ _ _ _ _)
  · exact byCommand_after hset (result_byCommand _ _ _)

/-- A PLL switched on or off (R144, R146, R164, R165): its state, accesses, the enable bit with its strobe, a poll. -/
theorem pllSwitch_byCommand {s t : State} (hst : ByCommand s t) (node : ClockId) (base : Word)
    (en strobe ready : FieldDesc) (v : Nat) (awaited : Bool) (c : Completion) :
    ByCommand s (((t.fieldSet base en v).strobe base strobe).pollField node base ready awaited c) :=
  have hacc := traced_trans (fieldSet_traced t base en v) (strobe_traced _ base strobe)
  byCommand_trans hst (byCommand_after hacc (pollField_byCommand _ _ _ _ _ _))

theorem fpllEnable_outcome (node : ClockId) (s : State) : OutcomeByCommand s (execFpllEnable node s) := by
  unfold execFpllEnable
  split
  · exact outcome_raise s _
  next n _ =>
    have hread := regRead_traced s n.base n.ready.off
    dsimp only
    split
    · exact outcome_of_traced hread (outcome_next (finish_byCommand _ _ _))
    · refine outcome_of_traced hread (outcome_next (pllSwitch_byCommand ?_ _ _ _ _ _ _ _ _))
      have hanalog := traced_trans (analogEnable_traced ((s.regRead n.base n.ready.off).setPll node .enabling)
        n.base n.bias) (traced_trans (analogEnable_traced _ n.base n.bandgap)
          (analogEnable_traced _ n.base n.regulator))
      exact byCommand_trans (setPll_byCommand _ _ _) (byCommand_of_traced hanalog)

theorem dpllEnable_outcome (node : ClockId) (s : State) : OutcomeByCommand s (execDpllEnable node s) := by
  unfold execDpllEnable
  split
  · exact outcome_raise s _
  · exact outcome_next (pllSwitch_byCommand (setPll_byCommand s _ _) _ _ _ _ _ _ _ _)

theorem fpllDisable_outcome (node : ClockId) (s : State) : OutcomeByCommand s (execFpllDisable node s) := by
  unfold execFpllDisable
  split
  · exact outcome_raise s _
  split
  · exact outcome_result s _ _
  · exact outcome_next (pllSwitch_byCommand (setPll_byCommand s _ _) _ _ _ _ _ _ _ _)

theorem dpllDisable_outcome (node : ClockId) (s : State) : OutcomeByCommand s (execDpllDisable node s) := by
  unfold execDpllDisable
  split
  · exact outcome_raise s _
  split
  · exact outcome_result s _ _
  · exact outcome_next (pllSwitch_byCommand (setPll_byCommand s _ _) _ _ _ _ _ _ _ _)

theorem fpllSetRate_outcome (node : ClockId) (s : State) : OutcomeByCommand s (execFpllSetRate node s) := by
  unfold execFpllSetRate
  split
  · exact outcome_raise s _
  dsimp only
  split
  · exact outcome_raise s _
  split
  · exact outcome_raise s _
  refine outcome_withRate s _ _ fun r s₁ => ?_
  split
  · exact outcome_raise s₁ _
  split
  · exact outcome_next (fpllProgram_byCommand _ _ _ s₁)
  · exact outcome_raise s₁ _

theorem dpllSetRate_outcome (node : ClockId) (s : State) : OutcomeByCommand s (execDpllSetRate node s) := by
  unfold execDpllSetRate
  split
  · exact outcome_raise s _
  dsimp only
  split
  · exact outcome_raise s _
  refine outcome_withRate s _ _ fun r s₁ => ?_
  split
  · exact outcome_raise s₁ _
  split
  · exact outcome_raise s₁ _
  · exact outcome_next (dpllProgram_byCommand _ _ _ _ s₁)

/-! ## Rate queries -/

theorem fpllGetRate_outcome (node : ClockId) (s : State) : OutcomeByCommand s (execFpllGetRate node s) := by
  unfold execFpllGetRate
  split
  · exact outcome_raise s _
  next n _ => exact outcome_withRate s _ _ (outcome_readback (.fpll n))

theorem dpllGetRate_outcome (node : ClockId) (s : State) : OutcomeByCommand s (execDpllGetRate node s) := by
  unfold execDpllGetRate
  split
  · exact outcome_raise s _
  next n _ => exact outcome_withRate s _ _ (outcome_readback (.dpll n))

theorem mckGetRate_outcome (node : ClockId) (s : State) : OutcomeByCommand s (execMckGetRate node s) := by
  unfold execMckGetRate
  split
  · exact outcome_raise s _
  next n _ => exact outcome_withRate s _ _ (outcome_readback (.mck n))

theorem gckGetRate_outcome (node : ClockId) (s : State) : OutcomeByCommand s (execGckGetRate node s) := by
  unfold execGckGetRate
  split
  · exact outcome_raise s _
  next n _ => exact outcome_withRate s _ _ (outcome_readback (.gck n))

theorem progGetRate_outcome (node : ClockId) (s : State) : OutcomeByCommand s (execProgGetRate node s) := by
  unfold execProgGetRate
  split
  · exact outcome_raise s _
  next n _ => exact outcome_withRate s _ _ (outcome_readback (.prog n))

theorem periGetRate_outcome (node : ClockId) (s : State) : OutcomeByCommand s (execPeriGetRate node s) := by
  unfold execPeriGetRate
  split
  · exact outcome_raise s _
  next n _ => exact outcome_rateResult _ (rate_traced s n.parent)

theorem oscGetRate_outcome (node : ClockId) (s : State) : OutcomeByCommand s (execOscGetRate node s) := by
  unfold execOscGetRate
  split
  · exact outcome_raise s _
  · exact outcome_result s _ _

/-! ## Master clock, shared command register and programmable clock -/

theorem mckEnable_outcome (node : ClockId) (s : State) : OutcomeByCommand s (execMckEnable node s) := by
  unfold execMckEnable
  split
  · exact outcome_raise s _
  · exact outcome_result s _ _

theorem mckDisable_outcome (node : ClockId) (s : State) : OutcomeByCommand s (execMckDisable node s) := by
  unfold execMckDisable
  split
  · exact outcome_raise s _
  split
  · exact outcome_result s _ _
  split
  · exact outcome_of_traced (clearSysen_traced s _) (outcome_result _ _ _)
  · exact outcome_result s _ _

theorem mckSetParent_outcome (node : ClockId) (s : State) : OutcomeByCommand s (execMckSetParent node s) := by
  unfold execMckSetParent
  split
  · exact outcome_raise s _
  split
  · exact outcome_raise s _
  split
  · exact outcome_raise s _
  · exact outcome_of_traced (traced_trans (fieldSet_traced s _ _ _) (strobeOptional_traced _ _ _))
      (outcome_next (pollField_byCommand _ _ _ _ _ _))

theorem gckEnable_outcome (node : ClockId) (s : State) : OutcomeByCommand s (execGckEnable node s) := by
  unfold execGckEnable
  split
  · exact outcome_raise s _
  · exact outcome_next (selectThenConfigure_byCommand s _ _ _ _ _)

theorem gckDisable_outcome (node : ClockId) (s : State) : OutcomeByCommand s (execGckDisable node s) := by
  unfold execGckDisable
  split
  · exact outcome_raise s _
  split
  · exact outcome_result s _ _
  · exact outcome_next (selectThenConfigure_byCommand s _ _ _ _ _)

theorem gckSetRate_outcome (node : ClockId) (s : State) : OutcomeByCommand s (execGckSetRate node s) := by
  unfold execGckSetRate
  split
  · exact outcome_raise s _
  next n _ =>
    dsimp only
    split
    · exact outcome_raise s _
    split
    · exact outcome_raise s _
    split
    · exact outcome_raise s _
    have hsearch := gckSearch_traced s.a0.toNat n.extraParents none s
    refine outcome_of_traced hsearch ?_
    rcases gckSearch s.a0.toNat n.extraParents none s with ⟨s₁, x | _ | best⟩
    · exact outcome_stop s₁ x
    · exact outcome_raise s₁ _
    · dsimp only
      split
      · exact outcome_raise s₁ _
      · exact outcome_next (selectThenConfigure_byCommand s₁ _ _ _ _ _)

theorem gckSetParent_outcome (node : ClockId) (s : State) : OutcomeByCommand s (execGckSetParent node s) := by
  unfold execGckSetParent
  split
  · exact outcome_raise s _
  split
  · exact outcome_raise s _
  split
  · exact outcome_raise s _
  · exact outcome_next (selectThenConfigure_byCommand s _ _ _ _ _)

theorem periEnable_outcome (node : ClockId) (s : State) : OutcomeByCommand s (execPeriEnable node s) := by
  unfold execPeriEnable
  split
  · exact outcome_raise s _
  · exact outcome_next (selectThenConfigure_byCommand s _ _ _ _ _)

theorem periDisable_outcome (node : ClockId) (s : State) : OutcomeByCommand s (execPeriDisable node s) := by
  unfold execPeriDisable
  split
  · exact outcome_raise s _
  split
  · exact outcome_result s _ _
  · exact outcome_next (selectThenConfigure_byCommand s _ _ _ _ _)

theorem progSetRate_outcome (node : ClockId) (s : State) : OutcomeByCommand s (execProgSetRate node s) := by
  unfold execProgSetRate
  split
  · exact outcome_raise s _
  dsimp only
  split
  · exact outcome_raise s _
  split
  · exact outcome_raise s _
  refine outcome_withRate s _ _ fun r s₁ => ?_
  split
  · exact outcome_raise s₁ _
  · exact outcome_of_traced (fieldSet_traced s₁ _ _ _) (outcome_next (pollOptional_byCommand _ _ _ _ _))

theorem progSetParent_outcome (node : ClockId) (s : State) : OutcomeByCommand s (execProgSetParent node s) := by
  unfold execProgSetParent
  split
  · exact outcome_raise s _
  split
  · exact outcome_raise s _
  split
  · exact outcome_raise s _
  split
  · exact outcome_raise s _
  · exact outcome_of_traced (writeSelect_traced s _ _ _) (outcome_next (pollOptional_byCommand _ _ _ _ _))

/-! ## The eleven refused commands (R244): the prologue's error or `UnsupportedOnVariant` -/

theorem fpllSetParent_outcome (node : ClockId) (s : State) : OutcomeByCommand s (execFpllSetParent node s) := by
  unfold execFpllSetParent
  split <;> exact outcome_raise s _

theorem dpllSetParent_outcome (node : ClockId) (s : State) : OutcomeByCommand s (execDpllSetParent node s) := by
  unfold execDpllSetParent
  split <;> exact outcome_raise s _

theorem mckSetRate_outcome (node : ClockId) (s : State) : OutcomeByCommand s (execMckSetRate node s) := by
  unfold execMckSetRate
  split <;> exact outcome_raise s _

theorem periSetRate_outcome (node : ClockId) (s : State) : OutcomeByCommand s (execPeriSetRate node s) := by
  unfold execPeriSetRate
  split <;> exact outcome_raise s _

theorem periSetParent_outcome (node : ClockId) (s : State) : OutcomeByCommand s (execPeriSetParent node s) := by
  unfold execPeriSetParent
  split <;> exact outcome_raise s _

theorem progEnable_outcome (node : ClockId) (s : State) : OutcomeByCommand s (execProgEnable node s) := by
  unfold execProgEnable
  split <;> exact outcome_raise s _

theorem progDisable_outcome (node : ClockId) (s : State) : OutcomeByCommand s (execProgDisable node s) := by
  unfold execProgDisable
  split <;> exact outcome_raise s _

theorem oscEnable_outcome (node : ClockId) (s : State) : OutcomeByCommand s (execOscEnable node s) := by
  unfold execOscEnable
  split <;> exact outcome_raise s _

theorem oscDisable_outcome (node : ClockId) (s : State) : OutcomeByCommand s (execOscDisable node s) := by
  unfold execOscDisable
  split <;> exact outcome_raise s _

theorem oscSetRate_outcome (node : ClockId) (s : State) : OutcomeByCommand s (execOscSetRate node s) := by
  unfold execOscSetRate
  split <;> exact outcome_raise s _

theorem oscSetParent_outcome (node : ClockId) (s : State) : OutcomeByCommand s (execOscSetParent node s) := by
  unfold execOscSetParent
  split <;> exact outcome_raise s _

/-! ## Every command -/

theorem enable_outcome (node : ClockId) (s : State) : OutcomeByCommand s (execEnable node s) := by
  unfold execEnable
  split
  · exact outcome_raise s _
  · exact fpllEnable_outcome node s
  · exact dpllEnable_outcome node s
  · exact mckEnable_outcome node s
  · exact gckEnable_outcome node s
  · exact periEnable_outcome node s
  · exact progEnable_outcome node s
  · exact oscEnable_outcome node s

theorem disable_outcome (node : ClockId) (s : State) : OutcomeByCommand s (execDisable node s) := by
  unfold execDisable
  split
  · exact outcome_raise s _
  · exact fpllDisable_outcome node s
  · exact dpllDisable_outcome node s
  · exact mckDisable_outcome node s
  · exact gckDisable_outcome node s
  · exact periDisable_outcome node s
  · exact progDisable_outcome node s
  · exact oscDisable_outcome node s

theorem getRate_outcome (node : ClockId) (s : State) : OutcomeByCommand s (execGetRate node s) := by
  unfold execGetRate
  split
  · exact outcome_raise s _
  · exact fpllGetRate_outcome node s
  · exact dpllGetRate_outcome node s
  · exact mckGetRate_outcome node s
  · exact gckGetRate_outcome node s
  · exact periGetRate_outcome node s
  · exact progGetRate_outcome node s
  · exact oscGetRate_outcome node s

theorem setRate_outcome (node : ClockId) (s : State) : OutcomeByCommand s (execSetRate node s) := by
  unfold execSetRate
  split
  · exact outcome_raise s _
  · exact fpllSetRate_outcome node s
  · exact dpllSetRate_outcome node s
  · exact mckSetRate_outcome node s
  · exact gckSetRate_outcome node s
  · exact periSetRate_outcome node s
  · exact progSetRate_outcome node s
  · exact oscSetRate_outcome node s

theorem setParent_outcome (node : ClockId) (s : State) : OutcomeByCommand s (execSetParent node s) := by
  unfold execSetParent
  split
  · exact outcome_raise s _
  · exact fpllSetParent_outcome node s
  · exact dpllSetParent_outcome node s
  · exact mckSetParent_outcome node s
  · exact gckSetParent_outcome node s
  · exact periSetParent_outcome node s
  · exact progSetParent_outcome node s
  · exact oscSetParent_outcome node s

/-- What a command can do: bus accesses, its results, `STATUS`, the engine's position and `NT`. -/
theorem exec_outcome (i : Instr) (s : State) : OutcomeByCommand s (exec i s) := by
  cases i with
  | regRead node => exact regRead_outcome node s
  | regWrite node => exact regWrite_outcome node s
  | regUpdate node => exact regUpdate_outcome node s
  | muxP2s node => exact muxP2s_outcome node s
  | muxS2i node => exact muxS2i_outcome node s
  | nodeRegister node => exact nodeRegister_outcome node s
  | nodeResolve node => exact nodeResolve_outcome node s
  | fpllEnable node => exact fpllEnable_outcome node s
  | fpllDisable node => exact fpllDisable_outcome node s
  | fpllGetRate node => exact fpllGetRate_outcome node s
  | fpllSetRate node => exact fpllSetRate_outcome node s
  | fpllSetParent node => exact fpllSetParent_outcome node s
  | dpllEnable node => exact dpllEnable_outcome node s
  | dpllDisable node => exact dpllDisable_outcome node s
  | dpllGetRate node => exact dpllGetRate_outcome node s
  | dpllSetRate node => exact dpllSetRate_outcome node s
  | dpllSetParent node => exact dpllSetParent_outcome node s
  | mckEnable node => exact mckEnable_outcome node s
  | mckDisable node => exact mckDisable_outcome node s
  | mckGetRate node => exact mckGetRate_outcome node s
  | mckSetRate node => exact mckSetRate_outcome node s
  | mckSetParent node => exact mckSetParent_outcome node s
  | gckEnable node => exact gckEnable_outcome node s
  | gckDisable node => exact gckDisable_outcome node s
  | gckGetRate node => exact gckGetRate_outcome node s
  | gckSetRate node => exact gckSetRate_outcome node s
  | gckSetParent node => exact gckSetParent_outcome node s
  | periEnable node => exact periEnable_outcome node s
  | periDisable node => exact periDisable_outcome node s
  | periGetRate node => exact periGetRate_outcome node s
  | periSetRate node => exact periSetRate_outcome node s
  | periSetParent node => exact periSetParent_outcome node s
  | progEnable node => exact progEnable_outcome node s
  | progDisable node => exact progDisable_outcome node s
  | progGetRate node => exact progGetRate_outcome node s
  | progSetRate node => exact progSetRate_outcome node s
  | progSetParent node => exact progSetParent_outcome node s
  | oscEnable node => exact oscEnable_outcome node s
  | oscDisable node => exact oscDisable_outcome node s
  | oscGetRate node => exact oscGetRate_outcome node s
  | oscSetRate node => exact oscSetRate_outcome node s
  | oscSetParent node => exact oscSetParent_outcome node s
  | enable node => exact enable_outcome node s
  | disable node => exact disable_outcome node s
  | getRate node => exact getRate_outcome node s
  | setRate node => exact setRate_outcome node s
  | setParent node => exact setParent_outcome node s

theorem exec_byCommand {i : Instr} {s t : State} (h : exec i s = .next t) : ByCommand s t := exec_outcome i s t h

end Sys2Proof.Proofs
end

