-- ==== Sys2Proof/Proofs/StepFrame.lean ====
section
/-! PROOFS. The frame of a step: no step changes a parameter or the register map (R7, R35). -/

namespace Sys2Proof.Proofs

open Machine Laws

/-- What every step keeps. -/
def SameParamsAndMap (s t : State) : Prop := t.params = s.params ∧ t.target.map = s.target.map

theorem sameParamsAndMap_of_byCommand {s t : State} (h : ByCommand s t) : SameParamsAndMap s t := by
  obtain ⟨-, -, -, -, -, -, hparams, -⟩ := byCommand_frame h
  exact ⟨hparams, byCommand_map h⟩

/-- The command in `CMD`, legal or not. -/
theorem runCommand_byCommand {s t : State} (h : runCommand s = .next t) : ByCommand s t := by
  unfold runCommand at h
  split at h
  · exact outcome_raise s _ t h
  · exact exec_byCommand h

theorem engineReset_sameParamsAndMap (s : State) : SameParamsAndMap s s.engineReset := ⟨rfl, rfl⟩

/-- A command cut short by a reset: the events it has issued are replayed on the target. -/
theorem abandon_sameParamsAndMap (s t : State) (after : Nat) : SameParamsAndMap s (s.abandon t after) :=
  ⟨rfl, replay_map s.target _⟩

theorem runAbandoned_sameParamsAndMap {s t : State} {after : Nat} (h : runAbandoned after s = .next t) :
    SameParamsAndMap s t := by
  unfold runAbandoned at h
  split at h
  next u _ =>
    cases h
    exact abandon_sameParamsAndMap s u after
  next => cases h
  next => cases h

theorem setOperand_sameParamsAndMap (s : State) (k : Fin 4) (v : Operand) :
    SameParamsAndMap s (s.setOperand k v) := by
  unfold State.setOperand
  split <;> exact ⟨rfl, rfl⟩

theorem hostMove_sameParamsAndMap (s : State) (m : HostMove) : SameParamsAndMap s (s.hostMove m) := by
  cases m with
  | writeCmd w => exact ⟨rfl, rfl⟩
  | writeOperand k v => exact setOperand_sameParamsAndMap s k v
  | writeDesc d => exact ⟨rfl, rfl⟩
  | reset after => exact engineReset_sameParamsAndMap s
  | wait => exact ⟨rfl, rfl⟩

theorem hostMoveInPoll_sameParamsAndMap (s : State) (p : Poll) (m : HostMove) :
    SameParamsAndMap s (s.hostMoveInPoll p m) := by
  cases m with
  | writeCmd w => exact ⟨rfl, rfl⟩
  | writeOperand k v => exact ⟨rfl, rfl⟩
  | writeDesc d => exact ⟨rfl, rfl⟩
  | reset after => exact engineReset_sameParamsAndMap s
  | wait => exact sameParamsAndMap_of_byCommand (poll_byCommand s p)

theorem step_sameParamsAndMap {s t : State} (h : step s = .next t) : SameParamsAndMap s t := by
  unfold step at h
  split at h
  next =>
    cases h
    exact ⟨rfl, rfl⟩
  next m rest _ _ =>
    cases h
    exact hostMove_sameParamsAndMap { s with host := rest } m
  next after rest _ _ => exact runAbandoned_sameParamsAndMap (s := { s with host := rest }) h
  next => exact sameParamsAndMap_of_byCommand (runCommand_byCommand h)
  next p _ _ =>
    cases h
    exact sameParamsAndMap_of_byCommand (poll_byCommand s p)
  next p m rest _ _ =>
    cases h
    exact hostMoveInPoll_sameParamsAndMap { s with host := rest } p m

/-- Settles O17: the frame of a step, and the frame of a command. -/
theorem inputsAndParametersKept : Obligations.InputsAndParametersKept :=
  ⟨fun _ _ => step_sameParamsAndMap, fun _ _ _ h => byCommand_frame (exec_byCommand h)⟩

end Sys2Proof.Proofs
end

