-- ==== Sys2Proof/Proofs/NodeConfig.lean ====
section
/-! PROOFS. The node table under the changes a command makes to it (R20, R35): an entry's checks (R232) rest on what no
command changes, so they stand as long as that does and every parent is one its mux table lists. -/

namespace Sys2Proof.Proofs

open Machine Laws

/-! ## What no command changes of a node -/

@[simp] theorem fixedPart_kind (d : NodeData) : (fixedPart d).kind = d.kind := by cases d <;> rfl

@[simp] theorem fixedPart_table? (d : NodeData) : (fixedPart d).table? = d.table? := by cases d <;> rfl

@[simp] theorem fixedPart_ok (nt : NodeTable) (d : NodeData) : (fixedPart d).ok nt = d.ok nt := by cases d <;> rfl

@[simp] theorem fixedPart_withParent (p : ClockId) (d : NodeData) : fixedPart (d.withParent p) = fixedPart d := by
  cases d <;> rfl

@[simp] theorem fixedPart_withPll (st : PllState) (d : NodeData) : fixedPart (d.withPll st) = fixedPart d := by
  cases d <;> rfl

/-- The end of a command changes the parent and the `pll_state` alone. -/
@[simp] theorem fixedPart_apply (c : Completion) (d : NodeData) : fixedPart (c.apply d) = fixedPart d := by
  unfold Completion.apply
  cases c.parent <;> cases c.pll <;> simp

@[simp] theorem fixedEntry_id (e : NodeEntry) : (fixedEntry e).id = e.id := rfl

@[simp] theorem fixedEntry_data (e : NodeEntry) : (fixedEntry e).data = fixedPart e.data := rfl

/-! ## The current parent -/

theorem parentListed_iff (d : NodeData) :
    d.parentListed = true ↔ ∀ t, d.table? = some t → ∀ p, d.parent? = some p → p ∈ t.pid := by
  unfold NodeData.parentListed
  cases d.table? <;> cases d.parent? <;> simp

theorem parentListed_withParent (d : NodeData) (p : ClockId) (h : ∀ t, d.table? = some t → p ∈ t.pid) :
    (d.withParent p).parentListed = true := by
  cases d <;> simp_all [parentListed_iff, NodeData.withParent, NodeData.table?, NodeData.parent?]

@[simp] theorem parentListed_withPll (d : NodeData) (st : PllState) :
    (d.withPll st).parentListed = d.parentListed := by
  cases d <;> rfl

/-- The node at the end of a command has a listed parent: its old one, or a new one that its table lists. -/
theorem parentListed_apply {c : Completion} {d : NodeData} (hd : d.parentListed = true)
    (hc : ∀ p, c.parent = some p → ∀ t, d.table? = some t → p ∈ t.pid) : (c.apply d).parentListed = true := by
  have hparent (p : ClockId) (hp : c.parent = some p) : (d.withParent p).parentListed = true :=
    parentListed_withParent d p (hc p hp)
  unfold Completion.apply
  cases hp : c.parent <;> cases c.pll <;> simp [hd, hparent, hp]

theorem p2s_mem {t : MuxTable} {pid : ClockId} {sel : Nat} (h : t.p2s pid = some sel) : pid ∈ t.pid := by
  unfold MuxTable.p2s at h
  cases hi : t.pid.idxOf? pid with
  | none => simp [hi] at h
  | some i =>
    by_contra hmem
    simp [List.idxOf?_eq_none_iff.2 hmem] at hi

theorem parentOf_mem {t : MuxTable} {code : Nat} {p : ClockId} (h : t.parentOf code = some p) : p ∈ t.pid := by
  unfold MuxTable.parentOf at h
  cases hi : t.s2i code with
  | none => simp [hi] at h
  | some i => exact List.mem_of_getElem? (by simpa [hi] using h)

/-- A discovered node is the described one with a parent and a `pll_state` (R232 (g), (h)). -/
theorem fixedPart_discovered {d d' : NodeData} {s : State} (h : d.discovered s = some d') :
    fixedPart d' = fixedPart d := by
  cases d <;> simp only [NodeData.discovered, Option.map_eq_some_iff, Option.some.injEq] at h
  case mck | gck | prog => obtain ⟨p, -, rfl⟩ := h; rfl
  all_goals subst h; rfl

/-- The discovered parent is one of the mux table's (R134). -/
theorem parentListed_discovered {d d' : NodeData} {s : State} (h : d.discovered s = some d') :
    d'.parentListed = true := by
  cases d <;> simp only [NodeData.discovered, Option.map_eq_some_iff, Option.some.injEq] at h
  case mck | gck | prog =>
    obtain ⟨p, hp, rfl⟩ := h
    simpa [parentListed_iff, NodeData.table?, NodeData.parent?] using parentOf_mem hp
  all_goals subst h; rfl

/-! ## Lookup -/

@[simp] theorem lookup_cons (e : NodeEntry) (nt : NodeTable) (id : ClockId) :
    NodeTable.lookup (e :: nt) id = if e.id = id then some e else nt.lookup id := by
  by_cases h : e.id = id <;> simp [NodeTable.lookup, h]

theorem has_eq_kindOf_isSome (nt : NodeTable) (id : ClockId) : nt.has id = (nt.kindOf id).isSome := by
  simp [NodeTable.has, NodeTable.kindOf]

theorem has_of_kindOf {nt : NodeTable} {id : ClockId} {k : NodeKind} (h : nt.kindOf id = some k) :
    nt.has id = true := by
  simp [has_eq_kindOf_isSome, h]

theorem has_cons_of_has (e : NodeEntry) {nt : NodeTable} {id : ClockId} (h : nt.has id = true) :
    NodeTable.has (e :: nt) id = true := by
  by_cases he : e.id = id <;> simp_all [NodeTable.has]

theorem lookup_id {nt : NodeTable} {id : ClockId} {e : NodeEntry} (h : nt.lookup id = some e) : e.id = id := by
  simpa using List.find?_some h

theorem lookup_mem {nt : NodeTable} {id : ClockId} {e : NodeEntry} (h : nt.lookup id = some e) : e ∈ nt :=
  List.mem_of_find?_eq_some h

/-! ## The checks, one by one -/

theorem dataOk_iff (nt : NodeTable) (d : NodeData) :
    d.ok nt = true ↔
      (∀ f ∈ d.fields, f.ok = true) ∧ (∀ f ∈ d.oneBitFields, f.oneBit = true) ∧
        (∀ b, d.base? = some b → b.toNat % 4 = 0) ∧ d.kindOk nt = true := by
  simp [NodeData.ok, Option.all_eq_true, and_assoc]

theorem entryOk_iff (older : NodeTable) (e : NodeEntry) :
    e.ok older = true ↔
      wellFormedId e.id = true ∧ older.has e.id = false ∧ e.data.ok older = true ∧ e.data.parentListed = true := by
  simp [NodeEntry.ok, and_assoc]

theorem tableOk_cons (e : NodeEntry) (older : NodeTable) :
    NodeTable.ok (e :: older) = true ↔ e.ok older = true ∧ older.ok = true := by
  simp [NodeTable.ok]

/-! ## Tables of the same configuration -/

/-- Two tables agree in all but parents and `pll_state`s. -/
def SameConfig (nt nt' : NodeTable) : Prop := nt'.map fixedEntry = nt.map fixedEntry

theorem sameConfig_refl (nt : NodeTable) : SameConfig nt nt := rfl

theorem sameConfig_trans {nt nt' nt'' : NodeTable} (h : SameConfig nt nt') (h' : SameConfig nt' nt'') :
    SameConfig nt nt'' :=
  Eq.trans h' h

theorem kindOf_map_fixedEntry (nt : NodeTable) (id : ClockId) :
    NodeTable.kindOf (nt.map fixedEntry) id = nt.kindOf id := by
  induction nt with
  | nil => rfl
  | cons e older ih =>
    rw [NodeTable.kindOf] at ih ⊢
    rw [List.map_cons, lookup_cons, NodeTable.kindOf, lookup_cons]
    by_cases he : e.id = id
    · simp [he]
    · simpa [he, NodeTable.kindOf] using ih

theorem sameConfig_kindOf {nt nt' : NodeTable} (h : SameConfig nt nt') (id : ClockId) :
    nt'.kindOf id = nt.kindOf id := by
  rw [← kindOf_map_fixedEntry nt', h, kindOf_map_fixedEntry]

theorem sameConfig_has {nt nt' : NodeTable} (h : SameConfig nt nt') (id : ClockId) : nt'.has id = nt.has id := by
  rw [has_eq_kindOf_isSome, has_eq_kindOf_isSome, sameConfig_kindOf h]

/-- The checks of R232 (c) to (f) ask of the other entries only which ids are registered, with which kind. -/
theorem sameConfig_dataOk {nt nt' : NodeTable} (h : SameConfig nt nt') (d : NodeData) : d.ok nt' = d.ok nt := by
  have hhas := sameConfig_has h
  have hkind := sameConfig_kindOf h
  cases d <;> simp [NodeData.ok, NodeData.kindOk, MuxTable.ok, hhas, hkind]

/-- An entry's checks stand while its configuration and that of the entries before it do. -/
theorem sameConfig_entryOk {nt nt' : NodeTable} {e e' : NodeEntry} (h : SameConfig nt nt')
    (he : fixedEntry e' = fixedEntry e) (hok : e.ok nt = true) (hl : e'.data.parentListed = true) :
    e'.ok nt' = true := by
  have hid : e'.id = e.id := by simpa using congrArg NodeEntry.id he
  have hpart : fixedPart e'.data = fixedPart e.data := by simpa using congrArg NodeEntry.data he
  have hdata : e'.data.ok nt' = e.data.ok nt := by
    rw [sameConfig_dataOk h, ← fixedPart_ok, hpart, fixedPart_ok]
  simp_all [entryOk_iff, sameConfig_has h]

/-- A table stays as registration made it (R232) while its configuration stands and every parent is listed. -/
theorem sameConfig_ok {nt nt' : NodeTable} (h : SameConfig nt nt') (hok : nt.ok = true)
    (hl : ∀ e ∈ nt', e.data.parentListed = true) : nt'.ok = true := by
  induction nt generalizing nt' with
  | nil => simp [List.map_eq_nil_iff.1 h, NodeTable.ok]
  | cons e older ih =>
    obtain ⟨e', older', rfl, he, holder⟩ := List.map_eq_cons_iff.1 h
    obtain ⟨heok, hok⟩ := (tableOk_cons e older).1 hok
    have hok' := ih holder hok fun e he => hl e (by simp [he])
    exact (tableOk_cons e' older').2 ⟨sameConfig_entryOk holder he heok (hl e' (by simp)), hok'⟩

/-! ## Tables that registration made -/

theorem ok_parentListed {nt : NodeTable} (h : nt.ok = true) : ∀ e ∈ nt, e.data.parentListed = true := by
  induction nt with
  | nil => simp
  | cons e older ih => simp_all [tableOk_cons, entryOk_iff]

theorem not_has {nt : NodeTable} {id : ClockId} (h : nt.has id = false) : ∀ e ∈ nt, e.id ≠ id := by
  simpa [NodeTable.has, NodeTable.lookup] using h

/-- An id is registered once (R232 (a)). -/
theorem ok_lookup {nt : NodeTable} (h : nt.ok = true) {e : NodeEntry} (he : e ∈ nt) : nt.lookup e.id = some e := by
  induction nt with
  | nil => simp at he
  | cons e' older ih =>
    obtain ⟨he', hok⟩ := (tableOk_cons e' older).1 h
    obtain ⟨-, hnew, -, -⟩ := (entryOk_iff older e').1 he'
    rcases List.mem_cons.1 he with rfl | he
    · simp
    · simp [ih hok he, (not_has hnew e he).symm]

/-! ## The change of one entry -/

/-- The new parent, if any, is one that the node's own mux table lists. -/
def Lists (nt : NodeTable) (node : ClockId) (parent : Option ClockId) : Prop :=
  ∀ p, parent = some p → ∀ e ∈ nt, e.id = node → ∀ t, e.data.table? = some t → p ∈ t.pid

theorem lists_none (nt : NodeTable) (node : ClockId) : Lists nt node none := by simp [Lists]

/-- The poll's invariant is that its completion will set a listed parent. -/
theorem pollOk_iff (s : State) (p : Poll) : s.pollOk p = true ↔ Lists s.nt p.node p.next.parent := by
  unfold State.pollOk Lists
  cases p.next.parent with
  | none => simp
  | some pid =>
    simp only [List.all_eq_true, Bool.or_eq_true, bne_iff_ne, Option.some.injEq, forall_eq']
    refine forall₂_congr fun e _ => ?_
    by_cases hid : e.id = p.node <;> cases e.data.table? <;> simp [hid]

/-- Of a table that registration made, the entry that lookup finds is the node's only one. -/
theorem lists_of_lookup {nt : NodeTable} (h : nt.ok = true) {node : ClockId} {e : NodeEntry} {t : MuxTable}
    (he : nt.lookup node = some e) (ht : e.data.table? = some t) {p : ClockId} (hp : p ∈ t.pid) :
    Lists nt node (some p) := by
  rintro _ ⟨⟩ e' he' rfl t' ht'
  obtain rfl : e' = e := by simpa [ok_lookup h he'] using he
  obtain rfl : t' = t := by simpa [ht'] using ht
  exact hp

theorem sameConfig_modify (nt : NodeTable) (node : ClockId) (c : Completion) :
    SameConfig nt (nt.modify node c.apply) := by
  unfold SameConfig NodeTable.modify
  rw [List.map_map]
  refine List.map_congr_left fun e _ => ?_
  by_cases h : e.id = node <;> simp [h, fixedEntry]

theorem modify_parentListed {nt : NodeTable} {node : ClockId} {c : Completion}
    (hnt : ∀ e ∈ nt, e.data.parentListed = true) (hc : Lists nt node c.parent) :
    ∀ e ∈ nt.modify node c.apply, e.data.parentListed = true := by
  intro e' he'
  obtain ⟨e, he, rfl⟩ := List.mem_map.1 he'
  by_cases h : e.id = node
  · simpa [h] using parentListed_apply (hnt e he) fun p hp => hc p hp e he h
  · simpa [h] using hnt e he

/-- The end of a command keeps the table as registration made it. -/
theorem modify_ok {nt : NodeTable} (h : nt.ok = true) {node : ClockId} {c : Completion}
    (hc : Lists nt node c.parent) : (nt.modify node c.apply).ok = true :=
  sameConfig_ok (sameConfig_modify nt node c) h (modify_parentListed (ok_parentListed h) hc)

theorem lookup_modify_of_ne (nt : NodeTable) {node id : ClockId} (f : NodeData → NodeData) (h : id ≠ node) :
    (nt.modify node f).lookup id = nt.lookup id := by
  induction nt with
  | nil => rfl
  | cons e older ih =>
    rw [NodeTable.modify] at ih ⊢
    rw [List.map_cons, lookup_cons, lookup_cons, ih]
    by_cases hid : e.id = node
    · simp [hid, h.symm]
    · simp [hid]

end Sys2Proof.Proofs
end

