-- ==== Sys2Proof/Proofs/RateAnswers.lean ====
section
/-! PROOFS. On a table that registration made a rate query ends with a rate or an error, never with a fault (R240,
R176). -/

namespace Sys2Proof.Proofs

open Machine Laws

/-! ## Fields -/

theorem fieldDesc_ok_iff (f : FieldDesc) :
    f.ok = true ↔
      f.off.toNat % 4 = 0 ∧ f.shift ≤ 31 ∧ 1 ≤ f.width ∧ f.mask.toNat = (2 ^ f.width - 1) * 2 ^ f.shift := by
  simp [FieldDesc.ok, and_assoc]

theorem fmax_eq_of_ok {f : FieldDesc} (h : f.ok = true) : f.fmax = 2 ^ f.width - 1 := by
  obtain ⟨-, -, -, hmask⟩ := (fieldDesc_ok_iff f).1 h
  rw [FieldDesc.fmax, BitVec.toNat_ushiftRight, Nat.shiftRight_eq_div_pow, hmask,
    Nat.mul_div_cancel _ (Nat.two_pow_pos _)]

theorem extract_le_fmax (f : FieldDesc) (r : Word) : f.extract r ≤ f.fmax := by
  simp only [FieldDesc.extract, FieldDesc.fmax, BitVec.toNat_ushiftRight, BitVec.toNat_and,
    Nat.shiftRight_eq_div_pow]
  exact Nat.div_le_div_right Nat.and_le_right

theorem extract_lt {f : FieldDesc} (h : f.ok = true) (r : Word) : f.extract r < 2 ^ f.width := by
  have hle := extract_le_fmax f r
  have hpos := Nat.two_pow_pos f.width
  rw [fmax_eq_of_ok h] at hle
  omega

theorem getFrom_lt {f : FieldDesc} (h : f.ok = true) (snap : Snapshot) : f.getFrom snap < 2 ^ f.width :=
  extract_lt h _

/-! ## The nodes a node names -/

theorem table_registered {nt : NodeTable} {d : NodeData} {t : MuxTable} (h : d.ok nt = true)
    (ht : d.table? = some t) {p : ClockId} (hp : p ∈ t.pid) : nt.has p = true := by
  obtain ⟨-, -, -, hkind⟩ := (dataOk_iff nt d).1 h
  have htable : t.ok nt = true := by
    cases d <;> simp_all [NodeData.table?, NodeData.kindOk]
  simp only [MuxTable.ok, Bool.and_eq_true, List.all_eq_true] at htable
  obtain ⟨-, hpids⟩ := htable
  exact (hpids p hp).2

theorem extraParents_registered {nt : NodeTable} {n : GckNode} (h : (NodeData.gck n).ok nt = true) {p : ClockId}
    (hp : p ∈ n.extraParents) : nt.has p = true := by
  obtain ⟨-, -, -, hkind⟩ := (dataOk_iff nt _).1 h
  simp only [NodeData.kindOk, Bool.and_eq_true, List.all_eq_true, decide_eq_true_eq] at hkind
  obtain ⟨-, hlisted⟩ := hkind
  exact table_registered h rfl (hlisted p hp)

/-- A node's checks ask that its parent is registered (R232 (e), (f)). -/
theorem parent_has {nt : NodeTable} {d : NodeData} {p : ClockId} (h : d.ok nt = true)
    (hlisted : d.parentListed = true) (hp : d.parent? = some p) : nt.has p = true := by
  obtain ⟨-, -, -, hkind⟩ := (dataOk_iff nt d).1 h
  cases d with
  | fpll n =>
    cases hp
    simp only [NodeData.kindOk, Bool.and_eq_true] at hkind
    exact hkind.2
  | dpll n | peri n =>
    cases hp
    simp only [NodeData.kindOk, Bool.and_eq_true, beq_iff_eq] at hkind
    exact has_of_kindOf hkind.2
  | mck n | gck n | prog n => exact table_registered h rfl ((parentListed_iff _).1 hlisted _ rfl p hp)
  | osc n => cases hp

/-- A parent is registered before its child (R240). -/
theorem parent_registered {older : NodeTable} {e : NodeEntry} {p : ClockId} (h : e.ok older = true)
    (hp : e.data.parent? = some p) : older.has p = true := by
  obtain ⟨-, -, hdata, hlisted⟩ := (entryOk_iff older e).1 h
  exact parent_has hdata hlisted hp

/-- Every entry met its checks against the entries before it, which are in the table still. -/
theorem ok_of_mem {nt : NodeTable} (h : nt.ok = true) {e : NodeEntry} (he : e ∈ nt) :
    ∃ older, e.ok older = true ∧ ∀ id, older.has id = true → nt.has id = true := by
  induction nt with
  | nil => simp at he
  | cons e' older ih =>
    obtain ⟨he', hok⟩ := (tableOk_cons e' older).1 h
    rcases List.mem_cons.1 he with rfl | he
    · exact ⟨older, he', fun id hid => has_cons_of_has e hid⟩
    · obtain ⟨older', he, hsub⟩ := ih hok he
      exact ⟨older', he, fun id hid => has_cons_of_has e' (hsub id hid)⟩

theorem entryOk_data {older : NodeTable} {e : NodeEntry} (h : e.ok older = true) : e.data.ok older = true := by
  obtain ⟨-, -, hdata, -⟩ := (entryOk_iff older e).1 h
  exact hdata

/-! ## Rates -/

/-- A computation inside a command has a value or raises an error of the command. -/
def Answers {α : Type} (r : State × Except Stop α) : Prop := ∀ f, r.2 ≠ .error (.stuck f)

/-- The `mdiv` code of a registered master clock always indexes its table (R176). -/
theorem mckDivisor_isSome {nt : NodeTable} {n : MckNode} (h : (NodeData.mck n).ok nt = true) {m : Nat}
    (hm : m < 2 ^ n.mdiv.width) : ∃ d, mckDivisor n m = some d := by
  obtain ⟨-, -, -, hkind⟩ := (dataOk_iff nt _).1 h
  simp only [NodeData.kindOk, Bool.and_eq_true, beq_iff_eq, List.all_eq_true, decide_eq_true_eq] at hkind
  obtain ⟨⟨⟨⟨-, hlen⟩, hpos⟩, -⟩, -⟩ := hkind
  have hlt : m < n.divtab.length := hlen ▸ hm
  exact ⟨n.divtab[m], by simp [mckDivisor, hlt, hpos]⟩

theorem readback_answers {nt : NodeTable} {d : NodeData} (h : d.ok nt = true) (r : Nat) (s : State) :
    Answers (readback d r s) := by
  intro f
  cases d with
  | fpll n =>
    simp only [readback, fpllReadback]
    split <;> simp
  | mck n =>
    obtain ⟨hfields, -, -, -⟩ := (dataOk_iff nt _).1 h
    have hmdiv : n.mdiv.ok = true := hfields n.mdiv (by simp [NodeData.fields])
    obtain ⟨d, hd⟩ := mckDivisor_isSome h (getFrom_lt hmdiv (s.fieldsValue n.base [n.pres, n.mdiv]))
    simp [readback, mckReadback, hd]
  | dpll n | gck n | peri n | prog n | osc n => simp [readback, dpllReadback, gckReadback, progReadback]

theorem rateIn_answers {nt : NodeTable} (h : nt.ok = true) {id : ClockId} (hid : nt.has id = true) (s : State) :
    Answers (rateIn nt id s) := by
  induction nt generalizing id s with
  | nil => simp [NodeTable.has, NodeTable.lookup] at hid
  | cons e older ih =>
    obtain ⟨he, hok⟩ := (tableOk_cons e older).1 h
    rw [rateIn]
    split
    · split
      · exact readback_answers (entryOk_data he) 0 s
      next p hp =>
        have hparent := ih hok (parent_registered he hp) s
        split
        next x hx => simpa [Answers, hx] using hparent
        next r _ => exact readback_answers (entryOk_data he) r _
    next hne => exact ih hok (by simpa [NodeTable.has, hne] using hid) s

theorem rate_answers {s : State} (h : s.nt.ok = true) {id : ClockId} (hid : s.nt.has id = true) :
    Answers (s.rate id) :=
  rateIn_answers h hid s

theorem gckSearch_answers {s : State} (h : s.nt.ok = true) (target : Nat) (pids : List ClockId)
    (best : Option Candidate) (hpids : ∀ p ∈ pids, s.nt.has p = true) :
    Answers (gckSearch target pids best s) := by
  induction pids generalizing best s with
  | nil => simp [gckSearch, Answers]
  | cons pid rest ih =>
    have hrate := rate_answers h (hpids pid (by simp))
    have htraced := rate_traced s pid
    rw [gckSearch]
    split
    next s₁ x hx => simpa [Answers, hx] using hrate
    next s₁ r hr =>
      have hnt : s₁.nt = s.nt := traced_nt (by simpa [hr] using htraced)
      exact ih (hnt ▸ h) _ fun p hp => hnt ▸ hpids p (by simp [hp])

end Sys2Proof.Proofs
end

