-- ==== Sys2Proof/Proofs/CommandEnds.lean ====
section
/-! PROOFS. How a command ends, said once for all 47: its bus accesses, then an error, a result, a change of its own
node's entry, or a poll that will make one (R9, R20, R252, R262); it stops only on a table that no registration made. -/

namespace Sys2Proof.Proofs

open Machine Laws

/-! ## The ends of a command -/

/-- What comes before the end of a command on a node: bus accesses, among them perhaps a new `pll_state`. -/
inductive Running (node : ClockId) (s : State) : State → Prop
  | accesses {u : State} (h : Traced s u) : Running node s u
  | pll {u v : State} (st : PllState) (h : Traced s u) (h' : Traced (u.setPll node st) v) : Running node s v

/-- How a command on a node ends, other than `NODE.REGISTER` with a description that it admits. -/
inductive Ends (node : ClockId) (s : State) : Outcome → Prop
  | raised {u : State} (h : Traced s u) (e : CmdError) : Ends node s (.next (u.raise e))
  | returned {u : State} (h : Traced s u) (r0 r1 : Operand) : Ends node s (.next (u.result r0 r1))
  | finished {u : State} (h : Running node s u) (c : Completion)
      (hc : s.nt.ok = true → Lists s.nt node c.parent) : Ends node s (.next (u.finish node c))
  | polling {u : State} (h : Running node s u) (p : Poll) (hp : p.node = node)
      (hc : s.nt.ok = true → Lists s.nt node p.next.parent) : Ends node s (.next { u with engine := .polling p })
  | stopped (f : Fault) (h : s.nt.ok ≠ true) : Ends node s (.fault f)

theorem running_trans {node : ClockId} {s u v : State} (h : Running node s u) (h' : Traced u v) :
    Running node s v := by
  cases h with
  | accesses h => exact .accesses (traced_trans h h')
  | pll st h h₁ => exact .pll st h (traced_trans h₁ h')

theorem running_of_traced {node : ClockId} {s u v : State} (h : Traced s u) (h' : Running node u v) :
    Running node s v := by
  cases h' with
  | accesses h₁ => exact .accesses (traced_trans h h₁)
  | pll st h₁ h₂ => exact .pll st (traced_trans h h₁) h₂

theorem running_setPll (node : ClockId) (s : State) (st : PllState) : Running node s (s.setPll node st) :=
  .pll st (traced_refl s) (traced_refl _)

variable {node : ClockId} {s : State}

theorem ends_raise (e : CmdError) : Ends node s (.next (s.raise e)) := .raised (traced_refl s) e

theorem ends_result (r0 r1 : Operand) : Ends node s (.next (s.result r0 r1)) := .returned (traced_refl s) r0 r1

theorem ends_of_traced {t : State} {o : Outcome} (h : Traced s t) (ho : Ends node t o) : Ends node s o := by
  have hnt : t.nt = s.nt := traced_nt h
  cases ho with
  | raised hu e => exact .raised (traced_trans h hu) e
  | returned hu r0 r1 => exact .returned (traced_trans h hu) r0 r1
  | finished hu c hc => exact .finished (running_of_traced h hu) c (hnt ▸ hc)
  | polling hu p hp hc => exact .polling (running_of_traced h hu) p hp (hnt ▸ hc)
  | stopped f hf => exact .stopped f (hnt ▸ hf)

/-- One read of the status register: the command completes or is in its poll (R117, R118). -/
theorem ends_poll {u : State} (h : Running node s u) (p : Poll) (hp : p.node = node)
    (hc : s.nt.ok = true → Lists s.nt node p.next.parent) : Ends node s (.next (u.poll p)) := by
  have hread : Running node s (u.memRead p.addr) := running_trans h (memRead_traced u _)
  rcases poll_cases u p with ⟨-, hpoll⟩ | ⟨-, hpoll⟩ <;> rw [hpoll]
  · subst hp
    exact .finished hread p.next hc
  · exact .polling hread p hp hc

theorem ends_pollField {u : State} (h : Running node s u) (base : Word) (f : FieldDesc) (awaited : Bool)
    (c : Completion) (hc : s.nt.ok = true → Lists s.nt node c.parent) :
    Ends node s (.next (u.pollField node base f awaited c)) :=
  ends_poll h _ rfl hc

theorem ends_pollOptional {u : State} (h : Running node s u) (base : Word) (f : Option FieldDesc)
    (c : Completion) (hc : s.nt.ok = true → Lists s.nt node c.parent) :
    Ends node s (.next (u.pollOptional node base f c)) := by
  cases f with
  | none => exact .finished h c hc
  | some f => exact ends_pollField h base f true c hc

theorem ends_selectThenConfigure (p : SharedPort) (m x : Word) (c : Completion)
    (hc : s.nt.ok = true → Lists s.nt node c.parent) :
    Ends node s (.next (s.selectThenConfigure node p m x c)) := by
  have hacc : Running node s ((s.selectId p).configure p m x) :=
    .accesses (traced_trans (selectId_traced s p) (configure_traced _ p m x))
  rcases selectThenConfigure_cases s node p m x c with ⟨ready, -, -, h⟩ | ⟨-, h⟩ <;> rw [h]
  · exact ends_pollField hacc p.base ready true c hc
  · exact .finished hacc c hc

/-- A PLL's enable bit, its strobe, and the poll that reports the new `pll_state` (R144, R146, R164, R165). -/
theorem ends_pllSwitch {u : State} (h : Running node s u) (base : Word) (en strobe ready : FieldDesc) (v : Nat)
    (awaited : Bool) (st : PllState) :
    Ends node s
      (.next (((u.fieldSet base en v).strobe base strobe).pollField node base ready awaited { pll := some st })) :=
  ends_pollField (running_trans h (traced_trans (fieldSet_traced u base en v) (strobe_traced _ base strobe)))
    base ready awaited _ fun _ => lists_none _ _

theorem ends_stop (x : Stop) (hx : s.nt.ok = true → ∀ f, x ≠ .stuck f) : Ends node s (s.stop x) := by
  cases x with
  | raised e => exact ends_raise e
  | stuck f => exact .stopped f fun hok => hx hok f rfl

theorem ends_stop_of_answers {α : Type} {r : State × Except Stop α} {s₁ : State} {x : Stop}
    (hr : r = (s₁, .error x)) (h : Traced s r.1) (ha : s.nt.ok = true → Answers r) : Ends node s (s₁.stop x) := by
  subst hr
  refine ends_of_traced h (ends_stop x fun hok f hx => ?_)
  exact ha (traced_nt h ▸ hok) f (by rw [hx])

/-- A command that needs a registered node's rate (R240, R266). -/
theorem ends_withRate (id : ClockId) (k : Nat → State → Outcome) (hid : s.nt.ok = true → s.nt.has id = true)
    (hk : ∀ r s₁, s₁.nt = s.nt → Ends node s₁ (k r s₁)) : Ends node s (s.withRate id k) := by
  have hrate := rate_traced s id
  rcases withRate_cases s id k with ⟨s₁, x, hs, h⟩ | ⟨s₁, r, hs, h⟩ <;> rw [h]
  · exact ends_stop_of_answers hs hrate fun hok => rate_answers hok (hid hok)
  · rw [hs] at hrate
    exact ends_of_traced hrate (hk r s₁ (traced_nt hrate))

theorem ends_rateResult {r : State × Except Stop Nat} (h : Traced s r.1) (ha : s.nt.ok = true → Answers r) :
    Ends node s (State.rateResult r) := by
  rcases hr : r with ⟨s₁, x | rate⟩
  · exact ends_stop_of_answers hr h ha
  · exact .returned (by simpa [hr] using h) _ _

/-! ## The node of a command -/

theorem registered_of_prologue {α : Type} {proj : NodeData → Option α} {fl : NodeFlags} {n : α} {d : NodeData}
    (hproj : ∀ d', proj d' = some n → d' = d) (h : s.prologue proj node = some (fl, n)) :
    Registered s node fl d := by
  obtain ⟨hw, e, hl, hn, rfl⟩ := (prologue_eq_some s proj node fl n).1 h
  obtain rfl := lookup_id hl
  obtain rfl := hproj _ hn
  exact ⟨hw, hl⟩

theorem fpll_registered {fl : NodeFlags} {n : FpllNode} (h : s.prologue NodeData.fpll? node = some (fl, n)) :
    Registered s node fl (.fpll n) :=
  registered_of_prologue (fun d => by cases d <;> simp [NodeData.fpll?]) h

theorem dpll_registered {fl : NodeFlags} {n : DpllNode} (h : s.prologue NodeData.dpll? node = some (fl, n)) :
    Registered s node fl (.dpll n) :=
  registered_of_prologue (fun d => by cases d <;> simp [NodeData.dpll?]) h

theorem mck_registered {fl : NodeFlags} {n : MckNode} (h : s.prologue NodeData.mck? node = some (fl, n)) :
    Registered s node fl (.mck n) :=
  registered_of_prologue (fun d => by cases d <;> simp [NodeData.mck?]) h

theorem gck_registered {fl : NodeFlags} {n : GckNode} (h : s.prologue NodeData.gck? node = some (fl, n)) :
    Registered s node fl (.gck n) :=
  registered_of_prologue (fun d => by cases d <;> simp [NodeData.gck?]) h

theorem peri_registered {fl : NodeFlags} {n : PeriNode} (h : s.prologue NodeData.peri? node = some (fl, n)) :
    Registered s node fl (.peri n) :=
  registered_of_prologue (fun d => by cases d <;> simp [NodeData.peri?]) h

theorem prog_registered {fl : NodeFlags} {n : ProgNode} (h : s.prologue NodeData.prog? node = some (fl, n)) :
    Registered s node fl (.prog n) :=
  registered_of_prologue (fun d => by cases d <;> simp [NodeData.prog?]) h

section
variable {fl : NodeFlags} {d : NodeData} (h : Registered s node fl d)
include h

theorem registered_lists {t : MuxTable} {p : ClockId} (ht : d.table? = some t) (hp : p ∈ t.pid)
    (hok : s.nt.ok = true) : Lists s.nt node (some p) :=
  lists_of_lookup hok h.2 ht hp

theorem registered_ok (hok : s.nt.ok = true) :
    ∃ older, NodeEntry.ok older { id := node, flags := fl, data := d } = true ∧
      ∀ id, older.has id = true → s.nt.has id = true :=
  ok_of_mem hok (lookup_mem h.2)

theorem registered_parent_has {p : ClockId} (hp : d.parent? = some p) (hok : s.nt.ok = true) :
    s.nt.has p = true := by
  obtain ⟨older, he, hsub⟩ := registered_ok h hok
  exact hsub p (parent_registered he hp)

theorem registered_readback_answers (hok : s.nt.ok = true) (r : Nat) (s₁ : State) : Answers (readback d r s₁) := by
  obtain ⟨older, he, -⟩ := registered_ok h hok
  exact readback_answers (entryOk_data he) r s₁

/-- `GET_RATE` of a node with a parent: the parent's rate, then the node's own readback (R240). -/
theorem ends_getRate {p : ClockId} (hp : d.parent? = some p) :
    Ends node s (s.withRate p fun r s₁ => State.rateResult (readback d r s₁)) := by
  refine ends_withRate p _ (registered_parent_has h hp) fun r s₁ hnt => ?_
  exact ends_rateResult (readback_traced d r s₁) fun hok => registered_readback_answers h (hnt ▸ hok) r s₁

end

theorem registered_extraParents_has {fl : NodeFlags} {n : GckNode} (h : Registered s node fl (.gck n))
    (hok : s.nt.ok = true) : ∀ p ∈ n.extraParents, s.nt.has p = true := by
  obtain ⟨older, he, hsub⟩ := registered_ok h hok
  exact fun p hp => hsub p (extraParents_registered (entryOk_data he) hp)

/-! ## Register access, mux translator and lookup commands -/

theorem regRead_ends (node : ClockId) (s : State) : Ends node s (execRegRead node s) := by
  unfold execRegRead
  split
  · exact ends_raise _
  split
  · split
    · exact ends_raise _
    · exact .returned (regRead_traced s _ _) _ _
  · exact ends_raise _

theorem regWrite_ends (node : ClockId) (s : State) : Ends node s (execRegWrite node s) := by
  unfold execRegWrite
  split
  · exact ends_raise _
  split
  · split
    · exact ends_raise _
    · exact .returned (regWrite_traced s _ _ _) _ _
  · exact ends_raise _

theorem regUpdate_ends (node : ClockId) (s : State) : Ends node s (execRegUpdate node s) := by
  unfold execRegUpdate
  split
  · exact ends_raise _
  split
  · split
    · exact ends_raise _
    · exact .returned (regUpdate_traced s _ _ _ _) _ _
  · exact ends_raise _

theorem muxP2s_ends (node : ClockId) (s : State) : Ends node s (execMuxP2s node s) := by
  unfold execMuxP2s
  split
  · split
    · exact ends_raise _
    · exact ends_result _ _
  · exact ends_raise _

theorem muxS2i_ends (node : ClockId) (s : State) : Ends node s (execMuxS2i node s) := by
  unfold execMuxS2i
  split
  · split
    · exact ends_raise _
    · exact ends_result _ _
  · exact ends_raise _

theorem nodeResolve_ends (node : ClockId) (s : State) : Ends node s (execNodeResolve node s) := by
  unfold execNodeResolve
  split
  · exact ends_raise _
  · exact ends_result _ _

/-! ## The two PLLs -/

theorem fpllEnable_ends (node : ClockId) (s : State) : Ends node s (execFpllEnable node s) := by
  unfold execFpllEnable
  split
  · exact ends_raise _
  next n _ =>
    have hread := regRead_traced s n.base n.ready.off
    dsimp only
    split
    · exact .finished (.accesses hread) _ fun _ => lists_none _ _
    · refine ends_of_traced hread (ends_pllSwitch ?_ _ _ _ _ _ _ _)
      exact running_trans (running_setPll node _ .enabling) (traced_trans (analogEnable_traced _ n.base n.bias)
        (traced_trans (analogEnable_traced _ n.base n.bandgap) (analogEnable_traced _ n.base n.regulator)))

theorem dpllEnable_ends (node : ClockId) (s : State) : Ends node s (execDpllEnable node s) := by
  unfold execDpllEnable
  split
  · exact ends_raise _
  · exact ends_pllSwitch (running_setPll node s .enabling) _ _ _ _ _ _ _

theorem fpllDisable_ends (node : ClockId) (s : State) : Ends node s (execFpllDisable node s) := by
  unfold execFpllDisable
  split
  · exact ends_raise _
  split
  · exact ends_result _ _
  · exact ends_pllSwitch (running_setPll node s .disabling) _ _ _ _ _ _ _

theorem dpllDisable_ends (node : ClockId) (s : State) : Ends node s (execDpllDisable node s) := by
  unfold execDpllDisable
  split
  · exact ends_raise _
  split
  · exact ends_result _ _
  · exact ends_pllSwitch (running_setPll node s .disabling) _ _ _ _ _ _ _

theorem fpllProgram_ends (node : ClockId) (n : FpllNode) (c : FpllSetting) (s : State) :
    Ends node s (.next (fpllProgram node n c s)) := by
  have hread := fieldsGet_traced s n.base [n.mul, n.frac, n.en]
  have hset := traced_trans hread (traced_trans
    (fieldsSet_traced _ n.base [(n.mul, c.mul), (n.frac, c.frac)]) (strobe_traced _ n.base n.strobe))
  unfold fpllProgram
  dsimp only
  split
  · exact .returned hread _ _
  split
  · exact ends_pollField (.accesses hset) _ _ _ _ fun _ => lists_none _ _
  · exact .returned hset _ _

theorem dpllProgram_ends (node : ClockId) (n : DpllNode) (div achieved : Nat) (s : State) :
    Ends node s (.next (dpllProgram node n div achieved s)) := by
  have hread := fieldsGet_traced s n.base [n.div, n.en]
  have hset := traced_trans hread (traced_trans
    (fieldSet_traced _ n.base n.div div) (strobe_traced _ n.base n.strobe))
  unfold dpllProgram
  dsimp only
  split
  · exact .returned hread _ _
  split
  · exact ends_pollField (.accesses hset) _ _ _ _ fun _ => lists_none _ _
  · exact .returned hset _ _

theorem fpllSetRate_ends (node : ClockId) (s : State) : Ends node s (execFpllSetRate node s) := by
  unfold execFpllSetRate
  split
  · exact ends_raise _
  next n hn =>
    dsimp only
    split
    · exact ends_raise _
    split
    · exact ends_raise _
    refine ends_withRate _ _ (registered_parent_has (fpll_registered hn) rfl) fun r s₁ _ => ?_
    split
    · exact ends_raise _
    split
    · exact fpllProgram_ends node n _ s₁
    · exact ends_raise _

theorem dpllSetRate_ends (node : ClockId) (s : State) : Ends node s (execDpllSetRate node s) := by
  unfold execDpllSetRate
  split
  · exact ends_raise _
  next n hn =>
    dsimp only
    split
    · exact ends_raise _
    refine ends_withRate _ _ (registered_parent_has (dpll_registered hn) rfl) fun r s₁ _ => ?_
    split
    · exact ends_raise _
    split
    · exact ends_raise _
    · exact dpllProgram_ends node n _ _ s₁

/-! ## Rate queries -/

theorem fpllGetRate_ends (node : ClockId) (s : State) : Ends node s (execFpllGetRate node s) := by
  unfold execFpllGetRate
  split
  · exact ends_raise _
  next hn => exact ends_getRate (fpll_registered hn) rfl

theorem dpllGetRate_ends (node : ClockId) (s : State) : Ends node s (execDpllGetRate node s) := by
  unfold execDpllGetRate
  split
  · exact ends_raise _
  next hn => exact ends_getRate (dpll_registered hn) rfl

theorem mckGetRate_ends (node : ClockId) (s : State) : Ends node s (execMckGetRate node s) := by
  unfold execMckGetRate
  split
  · exact ends_raise _
  next hn => exact ends_getRate (mck_registered hn) rfl

theorem gckGetRate_ends (node : ClockId) (s : State) : Ends node s (execGckGetRate node s) := by
  unfold execGckGetRate
  split
  · exact ends_raise _
  next hn => exact ends_getRate (gck_registered hn) rfl

theorem progGetRate_ends (node : ClockId) (s : State) : Ends node s (execProgGetRate node s) := by
  unfold execProgGetRate
  split
  · exact ends_raise _
  next hn => exact ends_getRate (prog_registered hn) rfl

theorem periGetRate_ends (node : ClockId) (s : State) : Ends node s (execPeriGetRate node s) := by
  unfold execPeriGetRate
  split
  · exact ends_raise _
  next n hn =>
    exact ends_rateResult (rate_traced s n.parent) fun hok =>
      rate_answers hok (registered_parent_has (peri_registered hn) rfl hok)

theorem oscGetRate_ends (node : ClockId) (s : State) : Ends node s (execOscGetRate node s) := by
  unfold execOscGetRate
  split
  · exact ends_raise _
  · exact ends_result _ _

/-! ## Master clock, shared command register and programmable clock -/

theorem mckEnable_ends (node : ClockId) (s : State) : Ends node s (execMckEnable node s) := by
  unfold execMckEnable
  split
  · exact ends_raise _
  · exact ends_result _ _

theorem mckDisable_ends (node : ClockId) (s : State) : Ends node s (execMckDisable node s) := by
  unfold execMckDisable
  split
  · exact ends_raise _
  split
  · exact ends_result _ _
  split
  · exact .returned (clearSysen_traced s _) _ _
  · exact ends_result _ _

theorem mckSetParent_ends (node : ClockId) (s : State) : Ends node s (execMckSetParent node s) := by
  unfold execMckSetParent
  split
  · exact ends_raise _
  next hn =>
    split
    · exact ends_raise _
    split
    · exact ends_raise _
    next hsel =>
      exact ends_pollField (.accesses (traced_trans (fieldSet_traced s _ _ _) (strobeOptional_traced _ _ _))) _ _ _ _
        (registered_lists (mck_registered hn) rfl (p2s_mem hsel))

theorem gckEnable_ends (node : ClockId) (s : State) : Ends node s (execGckEnable node s) := by
  unfold execGckEnable
  split
  · exact ends_raise _
  · exact ends_selectThenConfigure _ _ _ _ fun _ => lists_none _ _

theorem gckDisable_ends (node : ClockId) (s : State) : Ends node s (execGckDisable node s) := by
  unfold execGckDisable
  split
  · exact ends_raise _
  split
  · exact ends_result _ _
  · exact ends_selectThenConfigure _ _ _ _ fun _ => lists_none _ _

theorem gckSetRate_ends (node : ClockId) (s : State) : Ends node s (execGckSetRate node s) := by
  unfold execGckSetRate
  split
  · exact ends_raise _
  next n hn =>
    dsimp only
    split
    · exact ends_raise _
    split
    · exact ends_raise _
    split
    · exact ends_raise _
    have hsearch := gckSearch_traced s.a0.toNat n.extraParents none s
    split
    next hr =>
      exact ends_stop_of_answers hr hsearch fun hok =>
        gckSearch_answers hok _ _ _ (registered_extraParents_has (gck_registered hn) hok)
    next hr => exact .raised (by simpa [hr] using hsearch) _
    next s₁ best hr =>
      have htraced : Traced s s₁ := by simpa [hr] using hsearch
      refine ends_of_traced htraced ?_
      split
      · exact ends_raise _
      next hsel =>
        exact ends_selectThenConfigure _ _ _ _
          (traced_nt htraced ▸ registered_lists (gck_registered hn) rfl (p2s_mem hsel))

theorem gckSetParent_ends (node : ClockId) (s : State) : Ends node s (execGckSetParent node s) := by
  unfold execGckSetParent
  split
  · exact ends_raise _
  next hn =>
    split
    · exact ends_raise _
    split
    · exact ends_raise _
    next hsel =>
      exact ends_selectThenConfigure _ _ _ _ (registered_lists (gck_registered hn) rfl (p2s_mem hsel))

theorem periEnable_ends (node : ClockId) (s : State) : Ends node s (execPeriEnable node s) := by
  unfold execPeriEnable
  split
  · exact ends_raise _
  · exact ends_selectThenConfigure _ _ _ _ fun _ => lists_none _ _

theorem periDisable_ends (node : ClockId) (s : State) : Ends node s (execPeriDisable node s) := by
  unfold execPeriDisable
  split
  · exact ends_raise _
  split
  · exact ends_result _ _
  · exact ends_selectThenConfigure _ _ _ _ fun _ => lists_none _ _

theorem progSetRate_ends (node : ClockId) (s : State) : Ends node s (execProgSetRate node s) := by
  unfold execProgSetRate
  split
  · exact ends_raise _
  next hn =>
    dsimp only
    split
    · exact ends_raise _
    split
    · exact ends_raise _
    refine ends_withRate _ _ (registered_parent_has (prog_registered hn) rfl) fun r s₁ _ => ?_
    split
    · exact ends_raise _
    · exact ends_pollOptional (.accesses (fieldSet_traced s₁ _ _ _)) _ _ _ fun _ => lists_none _ _

theorem progSetParent_ends (node : ClockId) (s : State) : Ends node s (execProgSetParent node s) := by
  unfold execProgSetParent
  split
  · exact ends_raise _
  next hn =>
    split
    · exact ends_raise _
    split
    · exact ends_raise _
    next hsel =>
      split
      · exact ends_raise _
      · exact ends_pollOptional (.accesses (writeSelect_traced s _ _ _)) _ _ _
          (registered_lists (prog_registered hn) rfl (p2s_mem hsel))

/-! ## The eleven refused commands (R244): the prologue's error or `UnsupportedOnVariant` -/

theorem fpllSetParent_ends (node : ClockId) (s : State) : Ends node s (execFpllSetParent node s) := by
  unfold execFpllSetParent
  split <;> exact ends_raise _

theorem dpllSetParent_ends (node : ClockId) (s : State) : Ends node s (execDpllSetParent node s) := by
  unfold execDpllSetParent
  split <;> exact ends_raise _

theorem mckSetRate_ends (node : ClockId) (s : State) : Ends node s (execMckSetRate node s) := by
  unfold execMckSetRate
  split <;> exact ends_raise _

theorem periSetRate_ends (node : ClockId) (s : State) : Ends node s (execPeriSetRate node s) := by
  unfold execPeriSetRate
  split <;> exact ends_raise _

theorem periSetParent_ends (node : ClockId) (s : State) : Ends node s (execPeriSetParent node s) := by
  unfold execPeriSetParent
  split <;> exact ends_raise _

theorem progEnable_ends (node : ClockId) (s : State) : Ends node s (execProgEnable node s) := by
  unfold execProgEnable
  split <;> exact ends_raise _

theorem progDisable_ends (node : ClockId) (s : State) : Ends node s (execProgDisable node s) := by
  unfold execProgDisable
  split <;> exact ends_raise _

theorem oscEnable_ends (node : ClockId) (s : State) : Ends node s (execOscEnable node s) := by
  unfold execOscEnable
  split <;> exact ends_raise _

theorem oscDisable_ends (node : ClockId) (s : State) : Ends node s (execOscDisable node s) := by
  unfold execOscDisable
  split <;> exact ends_raise _

theorem oscSetRate_ends (node : ClockId) (s : State) : Ends node s (execOscSetRate node s) := by
  unfold execOscSetRate
  split <;> exact ends_raise _

theorem oscSetParent_ends (node : ClockId) (s : State) : Ends node s (execOscSetParent node s) := by
  unfold execOscSetParent
  split <;> exact ends_raise _

/-! ## The five functions, of every kind and dispatched (R241) -/

theorem enableOf_ends (k : NodeKind) (node : ClockId) (s : State) : Ends node s (exec (enableOf k node) s) := by
  cases k with
  | fpll => exact fpllEnable_ends node s
  | dpll => exact dpllEnable_ends node s
  | mck => exact mckEnable_ends node s
  | gck => exact gckEnable_ends node s
  | peri => exact periEnable_ends node s
  | prog => exact progEnable_ends node s
  | osc => exact oscEnable_ends node s

theorem disableOf_ends (k : NodeKind) (node : ClockId) (s : State) : Ends node s (exec (disableOf k node) s) := by
  cases k with
  | fpll => exact fpllDisable_ends node s
  | dpll => exact dpllDisable_ends node s
  | mck => exact mckDisable_ends node s
  | gck => exact gckDisable_ends node s
  | peri => exact periDisable_ends node s
  | prog => exact progDisable_ends node s
  | osc => exact oscDisable_ends node s

theorem getRateOf_ends (k : NodeKind) (node : ClockId) (s : State) : Ends node s (exec (getRateOf k node) s) := by
  cases k with
  | fpll => exact fpllGetRate_ends node s
  | dpll => exact dpllGetRate_ends node s
  | mck => exact mckGetRate_ends node s
  | gck => exact gckGetRate_ends node s
  | peri => exact periGetRate_ends node s
  | prog => exact progGetRate_ends node s
  | osc => exact oscGetRate_ends node s

theorem setRateOf_ends (k : NodeKind) (node : ClockId) (s : State) : Ends node s (exec (setRateOf k node) s) := by
  cases k with
  | fpll => exact fpllSetRate_ends node s
  | dpll => exact dpllSetRate_ends node s
  | mck => exact mckSetRate_ends node s
  | gck => exact gckSetRate_ends node s
  | peri => exact periSetRate_ends node s
  | prog => exact progSetRate_ends node s
  | osc => exact oscSetRate_ends node s

theorem setParentOf_ends (k : NodeKind) (node : ClockId) (s : State) :
    Ends node s (exec (setParentOf k node) s) := by
  cases k with
  | fpll => exact fpllSetParent_ends node s
  | dpll => exact dpllSetParent_ends node s
  | mck => exact mckSetParent_ends node s
  | gck => exact gckSetParent_ends node s
  | peri => exact periSetParent_ends node s
  | prog => exact progSetParent_ends node s
  | osc => exact oscSetParent_ends node s

/-- The five dispatch commands on a node. -/
def dispatchCommands (node : ClockId) : List Instr :=
  [.enable node, .disable node, .getRate node, .setRate node, .setParent node]

/-- A dispatch command is an error of its own or the command of the node's kind. -/
theorem dispatch_cases {node : ClockId} {i : Instr} (hi : i ∈ dispatchCommands node) (s : State) :
    exec i s = .next (s.raise .invalidArgument) ∨
      ∃ k j, j ∈ kindCommands k node ∧ s.dispatchKind node = some k ∧ exec i s = exec j s := by
  simp only [dispatchCommands, List.mem_cons, List.not_mem_nil, or_false] at hi
  cases h : s.dispatchKind node with
  | none =>
    rcases hi with rfl | rfl | rfl | rfl | rfl <;>
      simp [exec, execEnable, execDisable, execGetRate, execSetRate, execSetParent, h]
  | some k =>
    refine .inr ⟨k, ?_⟩
    rcases hi with rfl | rfl | rfl | rfl | rfl
    · exact ⟨enableOf k node, by simp [kindCommands], rfl, by cases k <;> simp [exec, execEnable, enableOf, h]⟩
    · exact ⟨disableOf k node, by simp [kindCommands], rfl, by cases k <;> simp [exec, execDisable, disableOf, h]⟩
    · exact ⟨getRateOf k node, by simp [kindCommands], rfl, by cases k <;> simp [exec, execGetRate, getRateOf, h]⟩
    · exact ⟨setRateOf k node, by simp [kindCommands], rfl, by cases k <;> simp [exec, execSetRate, setRateOf, h]⟩
    · exact ⟨setParentOf k node, by simp [kindCommands], rfl,
        by cases k <;> simp [exec, execSetParent, setParentOf, h]⟩

theorem kindCommands_ends {k : NodeKind} {node : ClockId} {i : Instr} (hi : i ∈ kindCommands k node) (s : State) :
    Ends node s (exec i s) := by
  simp only [kindCommands, List.mem_cons, List.not_mem_nil, or_false] at hi
  rcases hi with rfl | rfl | rfl | rfl | rfl
  · exact enableOf_ends k node s
  · exact disableOf_ends k node s
  · exact getRateOf_ends k node s
  · exact setRateOf_ends k node s
  · exact setParentOf_ends k node s

theorem dispatch_ends (node : ClockId) {i : Instr} (hi : i ∈ dispatchCommands node) (s : State) :
    Ends node s (exec i s) := by
  rcases dispatch_cases hi s with h | ⟨k, j, hj, -, h⟩ <;> rw [h]
  · exact ends_raise _
  · exact kindCommands_ends hj s

/-! ## Every command -/

/-- `NODE.REGISTER` of a description that it admits and whose parent it finds: one entry more (R232). -/
def Registers (s : State) (o : Outcome) : Prop :=
  ∃ d d', s.desc.accept s.params s.nt = some d ∧ d.discovered s = some d' ∧
    o = .next (((s.discover d).addNode s.desc.id s.desc.flags d').result (s.desc.id.setWidth 64) 0)

theorem nodeRegister_cases (node : ClockId) (s : State) :
    Ends node s (execNodeRegister node s) ∨ (node = 0 ∧ Registers s (execNodeRegister node s)) := by
  unfold execNodeRegister
  split
  · exact .inl (ends_raise _)
  next hnode =>
    split
    · exact .inl (ends_raise _)
    next d hd =>
      split
      · exact .inl (.raised (discover_traced s d) _)
      next d' hd' => exact .inr ⟨not_not.1 hnode, d, d', hd, hd', rfl⟩

/-- What a command can do, for all 47. -/
theorem exec_cases (i : Instr) (s : State) :
    Ends i.node s (exec i s) ∨ (i = .nodeRegister 0 ∧ Registers s (exec i s)) := by
  cases i with
  | nodeRegister node =>
    rcases nodeRegister_cases node s with h | ⟨rfl, h⟩
    · exact .inl h
    · exact .inr ⟨rfl, h⟩
  | regRead node => exact .inl (regRead_ends node s)
  | regWrite node => exact .inl (regWrite_ends node s)
  | regUpdate node => exact .inl (regUpdate_ends node s)
  | muxP2s node => exact .inl (muxP2s_ends node s)
  | muxS2i node => exact .inl (muxS2i_ends node s)
  | nodeResolve node => exact .inl (nodeResolve_ends node s)
  | fpllEnable node => exact .inl (enableOf_ends .fpll node s)
  | dpllEnable node => exact .inl (enableOf_ends .dpll node s)
  | mckEnable node => exact .inl (enableOf_ends .mck node s)
  | gckEnable node => exact .inl (enableOf_ends .gck node s)
  | periEnable node => exact .inl (enableOf_ends .peri node s)
  | progEnable node => exact .inl (enableOf_ends .prog node s)
  | oscEnable node => exact .inl (enableOf_ends .osc node s)
  | fpllDisable node => exact .inl (disableOf_ends .fpll node s)
  | dpllDisable node => exact .inl (disableOf_ends .dpll node s)
  | mckDisable node => exact .inl (disableOf_ends .mck node s)
  | gckDisable node => exact .inl (disableOf_ends .gck node s)
  | periDisable node => exact .inl (disableOf_ends .peri node s)
  | progDisable node => exact .inl (disableOf_ends .prog node s)
  | oscDisable node => exact .inl (disableOf_ends .osc node s)
  | fpllGetRate node => exact .inl (getRateOf_ends .fpll node s)
  | dpllGetRate node => exact .inl (getRateOf_ends .dpll node s)
  | mckGetRate node => exact .inl (getRateOf_ends .mck node s)
  | gckGetRate node => exact .inl (getRateOf_ends .gck node s)
  | periGetRate node => exact .inl (getRateOf_ends .peri node s)
  | progGetRate node => exact .inl (getRateOf_ends .prog node s)
  | oscGetRate node => exact .inl (getRateOf_ends .osc node s)
  | fpllSetRate node => exact .inl (setRateOf_ends .fpll node s)
  | dpllSetRate node => exact .inl (setRateOf_ends .dpll node s)
  | mckSetRate node => exact .inl (setRateOf_ends .mck node s)
  | gckSetRate node => exact .inl (setRateOf_ends .gck node s)
  | periSetRate node => exact .inl (setRateOf_ends .peri node s)
  | progSetRate node => exact .inl (setRateOf_ends .prog node s)
  | oscSetRate node => exact .inl (setRateOf_ends .osc node s)
  | fpllSetParent node => exact .inl (setParentOf_ends .fpll node s)
  | dpllSetParent node => exact .inl (setParentOf_ends .dpll node s)
  | mckSetParent node => exact .inl (setParentOf_ends .mck node s)
  | gckSetParent node => exact .inl (setParentOf_ends .gck node s)
  | periSetParent node => exact .inl (setParentOf_ends .peri node s)
  | progSetParent node => exact .inl (setParentOf_ends .prog node s)
  | oscSetParent node => exact .inl (setParentOf_ends .osc node s)
  | enable node => exact .inl (dispatch_ends node (by simp [dispatchCommands]) s)
  | disable node => exact .inl (dispatch_ends node (by simp [dispatchCommands]) s)
  | getRate node => exact .inl (dispatch_ends node (by simp [dispatchCommands]) s)
  | setRate node => exact .inl (dispatch_ends node (by simp [dispatchCommands]) s)
  | setParent node => exact .inl (dispatch_ends node (by simp [dispatchCommands]) s)

end Sys2Proof.Proofs
end

