-- ==== Sys2Proof/Proofs/StepCases.lean ====
section
/-! PROOFS. What a step is, said once for each position of the engine, and the statements about the host's moves and the
engine reset (R21, R24, R36, R80, R262, R280, R281). -/

namespace Sys2Proof.Proofs

open Machine Laws

/-! ## A step, for each position of the engine -/

section
variable {s : State} {p : Poll} {m : HostMove} {rest : List HostMove}

theorem step_idle_nil (he : s.engine = .idle) (hh : s.host = []) : step s = .next s := by
  simp [step, he, hh]

theorem step_idle_cons (he : s.engine = .idle) (hh : s.host = m :: rest) :
    step s = .next (State.hostMove { s with host := rest } m) := by
  simp [step, he, hh]

theorem step_started_reset {after : Nat} (he : s.engine = .started) (hh : s.host = .reset after :: rest) :
    step s = runAbandoned after { s with host := rest } := by
  simp [step, he, hh]

/-- The host does not reset the engine in the next step. -/
def NoResetNext (s : State) : Prop := ∀ after rest, s.host ≠ .reset after :: rest

theorem step_started (he : s.engine = .started) (hh : NoResetNext s) : step s = runCommand s := by
  unfold step
  split <;> simp_all [NoResetNext]

theorem step_polling_nil (he : s.engine = .polling p) (hh : s.host = []) : step s = .next (s.poll p) := by
  simp [step, he, hh]

theorem step_polling_cons (he : s.engine = .polling p) (hh : s.host = m :: rest) :
    step s = .next (State.hostMoveInPoll { s with host := rest } p m) := by
  simp [step, he, hh]

end

/-- A step is an engine reset, a host write to the port of an idle engine, nothing but a host move used up, the
command in `CMD`, or one read of a poll. -/
inductive StepCase (s t : State) : Prop
  | reset (after : Nat) (rest : List HostMove) (u : State) (hh : s.host = .reset after :: rest)
      (ht : t = u.engineReset)
  | accept (w : Word) (rest : List HostMove) (he : s.engine = .idle) (ht : t = { s.acceptCmd w with host := rest })
  | operand (k : Fin 4) (v : Operand) (rest : List HostMove) (he : s.engine = .idle)
      (ht : t = State.setOperand { s with host := rest } k v)
  | desc (d : NodeDesc) (rest : List HostMove) (he : s.engine = .idle) (ht : t = { s with desc := d, host := rest })
  | kept (rest : List HostMove) (ht : t = { s with host := rest })
  | command (he : s.engine = .started) (hrun : runCommand s = .next t)
  | poll (p : Poll) (rest : List HostMove) (he : s.engine = .polling p)
      (ht : t = State.poll { s with host := rest } p)

theorem stepCase_hostMove {s t : State} {m : HostMove} {rest : List HostMove} (he : s.engine = .idle)
    (hh : s.host = m :: rest) (ht : t = State.hostMove { s with host := rest } m) : StepCase s t := by
  cases m with
  | writeCmd w => exact .accept w rest he ht
  | writeOperand k v => exact .operand k v rest he ht
  | writeDesc d => exact .desc d rest he ht
  | reset after => exact .reset after rest _ hh ht
  | wait => exact .kept rest ht

theorem stepCase_hostMoveInPoll {s t : State} {p : Poll} {m : HostMove} {rest : List HostMove}
    (he : s.engine = .polling p) (hh : s.host = m :: rest)
    (ht : t = State.hostMoveInPoll { s with host := rest } p m) : StepCase s t := by
  cases m with
  | writeCmd w => exact .kept rest ht
  | writeOperand k v => exact .kept rest ht
  | writeDesc d => exact .kept rest ht
  | reset after => exact .reset after rest _ hh ht
  | wait => exact .poll p rest he ht

theorem runAbandoned_next {after : Nat} {s t : State} (h : runAbandoned after s = .next t) :
    ∃ u, runCommand s = .next u ∧ t = s.abandon u after := by
  unfold runAbandoned at h
  split at h <;> cases h
  exact ⟨_, ‹_›, rfl⟩

theorem step_cases {s t : State} (h : step s = .next t) : StepCase s t := by
  cases he : s.engine with
  | idle =>
    cases hh : s.host with
    | nil =>
      rw [step_idle_nil he hh] at h
      cases h
      exact .kept s.host rfl
    | cons m rest =>
      rw [step_idle_cons he hh] at h
      exact stepCase_hostMove he hh (by cases h; rfl)
  | started =>
    by_cases hh : NoResetNext s
    · exact .command he (step_started he hh ▸ h)
    · simp only [NoResetNext, not_forall, not_not] at hh
      obtain ⟨after, rest, hh⟩ := hh
      rw [step_started_reset he hh] at h
      obtain ⟨u, -, ht⟩ := runAbandoned_next h
      exact .reset after rest _ hh ht
  | polling p =>
    cases hh : s.host with
    | nil =>
      rw [step_polling_nil he hh] at h
      cases h
      exact .poll p s.host he rfl
    | cons m rest =>
      rw [step_polling_cons he hh] at h
      exact stepCase_hostMoveInPoll he hh (by cases h; rfl)

/-! ## The command in `CMD` -/

theorem runCommand_of_decode {s : State} {i : Instr} (h : decode s.cmd = .ok i) : runCommand s = exec i s := by
  simp [runCommand, State.fetchedWord, h]

theorem runCommand_of_illegal {s : State} {why : IllegalWord} (h : decode s.cmd = .error why) :
    runCommand s = .next (s.raise .invalidArgument) := by
  simp [runCommand, State.fetchedWord, h]

theorem decode_of_decodeTableWord {nbits w : Nat} {i : Instr} (h : decodeTableWord nbits w = some i) :
    decode (BitVec.ofNat 32 w) = .ok i := by
  unfold decodeTableWord at h
  split at h
  · cases hd : decode (BitVec.ofNat 32 w) <;> simp_all [Except.toOption]
  · cases h

/-- Settles O4: both parts are the step of a started engine that the host does not reset. -/
theorem stepRunsTheDecodedCommand : Obligations.StepRunsTheDecodedCommand := by
  refine ⟨fun s i he hh hd => ?_, fun s nbits w i hd => ?_⟩
  · rw [step_started he hh, runCommand_of_decode hd]
  · have hnone : NoResetNext (s.withFetchWord nbits w) := by simp [NoResetNext, State.withFetchWord]
    rw [step_started rfl hnone,
      runCommand_of_decode (s := s.withFetchWord nbits w) (decode_of_decodeTableWord hd)]

/-! ## The host's moves -/

/-- Settles O5: the step of an idle or a polling engine, move by move. -/
theorem hostMovesReachPort : Obligations.HostMovesReachPort := by
  refine ⟨fun s rest he => ?_, fun s p m rest he hh hm => ?_⟩
  · have hmove (m : HostMove) (hh : s.host = m :: rest) := step_idle_cons he hh
    exact ⟨fun w => hmove (.writeCmd w), fun v => hmove (.writeOperand 0 v), fun v => hmove (.writeOperand 1 v),
      fun v => hmove (.writeOperand 2 v), fun v => hmove (.writeOperand 3 v), fun d => hmove (.writeDesc d),
      hmove .wait, step_idle_nil he⟩
  · rw [step_polling_cons he hh]
    rcases hm with ⟨w, rfl⟩ | ⟨k, v, rfl⟩ | ⟨d, rfl⟩ <;> rfl

/-! ## The engine reset -/

theorem engineReset_atReset (s : State) : AtReset s.engineReset :=
  ⟨rfl, rfl, rfl, rfl, rfl, rfl, rfl, rfl, rfl, fun _ => rfl⟩

/-- Settles O6: every reset move ends in `State.engineReset`. -/
theorem resetValues : Obligations.ResetValues := by
  refine ⟨engineReset_atReset State.reset, fun s t after rest hh h => ?_⟩
  cases he : s.engine with
  | idle =>
    rw [step_idle_cons he hh] at h
    cases h
    exact engineReset_atReset _
  | started =>
    rw [step_started_reset he hh] at h
    obtain ⟨u, -, rfl⟩ := runAbandoned_next h
    exact engineReset_atReset _
  | polling p =>
    rw [step_polling_cons he hh] at h
    cases h
    exact engineReset_atReset _

/-- What stands after an engine reset of a machine whose bus has seen some more events (R280, R281). -/
def ResetAfter (s : State) (evs : List BusEvent) (rest : List HostMove) (t : State) : Prop :=
  AtReset t ∧ t.target = s.target.replay evs ∧ t.trace = s.trace ++ evs ∧ t.params = s.params ∧ t.desc = {} ∧
    t.host = rest

theorem engineReset_resetAfter (s : State) (rest : List HostMove) :
    ResetAfter s [] rest (State.engineReset { s with host := rest }) :=
  ⟨engineReset_atReset _, rfl, (List.append_nil _).symm, rfl, rfl, rfl⟩

theorem abandon_resetAfter (s t : State) (after : Nat) :
    ResetAfter s ((s.eventsSince t).take after) s.host (s.abandon t after) :=
  ⟨engineReset_atReset _, rfl, rfl, rfl, rfl, rfl⟩

theorem eventsSince_eq {s t : State} {evs : List BusEvent} (h : t.trace = s.trace ++ evs) :
    s.eventsSince t = evs := by
  rw [State.eventsSince, h, List.drop_left]

/-- A reset that finds a command accepted: the command's first `after` events stand (R280). -/
theorem step_abandons {s t : State} {after : Nat} {rest : List HostMove} {evs : List BusEvent}
    (he : s.engine = .started) (hh : s.host = .reset after :: rest)
    (hrun : runCommand { s with host := rest } = .next t) (htrace : t.trace = s.trace ++ evs) :
    ∃ u, step s = .next u ∧ ResetAfter s (evs.take after) rest u := by
  refine ⟨State.abandon { s with host := rest } t after, ?_, ?_⟩
  · rw [step_started_reset he hh, runAbandoned, hrun]
  · have h := abandon_resetAfter { s with host := rest } t after
    rwa [eventsSince_eq (s := { s with host := rest }) htrace] at h

/-- A reset that finds no bus access to cut off. -/
theorem step_resets {s : State} {after : Nat} {rest : List HostMove} (hh : s.host = .reset after :: rest)
    (hs : s.engine ≠ .started ∨ ∃ why, decode s.cmd = .error why) :
    ∃ t, step s = .next t ∧ ResetAfter s [] rest t := by
  cases he : s.engine with
  | idle => exact ⟨_, step_idle_cons he hh, engineReset_resetAfter s rest⟩
  | polling p => exact ⟨_, step_polling_cons he hh, engineReset_resetAfter s rest⟩
  | started =>
    obtain ⟨why, hd⟩ := hs.resolve_left (not_not.2 he)
    have hrun := runCommand_of_illegal (s := { s with host := rest }) hd
    simpa using step_abandons he hh hrun (List.append_nil _).symm

/-- Settles O7: a reset with no access to cut off, and one that cuts a command short. -/
theorem resetKeepsTarget : Obligations.ResetKeepsTarget := by
  refine ⟨fun s after rest hs hh => ?_, fun s t i after rest evs he hh hd hexec htrace => ?_⟩
  · simpa [ResetAfter] using step_resets hh hs
  · exact step_abandons he hh ((runCommand_of_decode (s := { s with host := rest }) hd).trans hexec) htrace

end Sys2Proof.Proofs
end

