-- ==== Sys2Proof/Proofs/Invariants.lean ====
section
/-! PROOFS. The invariants of the node table and of the port, and what no command changes of the table (R20, R21, R28,
R35, R94, R232, R240). -/

namespace Sys2Proof.Proofs

open Machine Laws

/-! ## The invariants as propositions -/

theorem nodesOk_iff (s : State) :
    s.nodesOk = true ↔ s.nt.ok = true ∧ ∀ p, s.engine = .polling p → Lists s.nt p.node p.next.parent := by
  unfold State.nodesOk
  cases s.engine <;> simp [pollOk_iff]

theorem nodesOk_of_notBusy {s : State} (hok : s.nt.ok = true) (h : s.engine = .idle) : s.nodesOk = true :=
  (nodesOk_iff s).2 ⟨hok, by simp [h]⟩

theorem portOk_iff (s : State) :
    s.portOk = true ↔ s.status.toNat ≤ 5 ∧ (s.busy = true → s.r0 = 0 ∧ s.r1 = 0) := by
  unfold State.portOk
  cases s.busy <;> simp

theorem code_le (e : CmdError) : e.code.toNat ≤ 5 := by cases e <;> decide

/-- Settles O11: the table is empty, the storage is empty, the engine is idle. -/
theorem resetMeetsInvariants : Obligations.ResetMeetsInvariants := ⟨rfl, rfl, rfl⟩

/-! ## What a command does to the node table -/

theorem lists_of_sameConfig {nt nt' : NodeTable} (h : SameConfig nt nt') {node : ClockId} {parent : Option ClockId}
    (hl : Lists nt node parent) : Lists nt' node parent := by
  intro p hp e' he' hid t ht
  have hmem : fixedEntry e' ∈ nt.map fixedEntry := h ▸ List.mem_map_of_mem he'
  obtain ⟨e, he, hee⟩ := List.mem_map.1 hmem
  have hid' : e.id = e'.id := by simpa using congrArg NodeEntry.id hee
  have hpart : fixedPart e.data = fixedPart e'.data := by simpa using congrArg NodeEntry.data hee
  exact hl p hp e he (hid'.trans hid) t (by rw [← fixedPart_table?, hpart, fixedPart_table?, ht])

/-- The second table differs from the first in the parent and the `pll_state` of one node alone. -/
def OwnEntry (node : ClockId) (nt nt' : NodeTable) : Prop :=
  SameConfig nt nt' ∧ ∀ id, id ≠ node → nt'.lookup id = nt.lookup id

theorem ownEntry_refl (node : ClockId) (nt : NodeTable) : OwnEntry node nt nt := ⟨rfl, fun _ _ => rfl⟩

theorem ownEntry_trans {node : ClockId} {nt nt' nt'' : NodeTable} (h : OwnEntry node nt nt')
    (h' : OwnEntry node nt' nt'') : OwnEntry node nt nt'' :=
  ⟨sameConfig_trans h.1 h'.1, fun id hid => (h'.2 id hid).trans (h.2 id hid)⟩

theorem ownEntry_modify (node : ClockId) (nt : NodeTable) (c : Completion) :
    OwnEntry node nt (nt.modify node c.apply) :=
  ⟨sameConfig_modify nt node c, fun _ hid => lookup_modify_of_ne nt c.apply hid⟩

section
variable {node : ClockId} {s u t : State}

theorem running_nt (h : Running node s u) :
    u.nt = s.nt ∨ ∃ st, u.nt = s.nt.modify node (Completion.apply { pll := some st }) := by
  cases h with
  | accesses h => exact .inl (traced_nt h)
  | pll st h h' =>
    refine .inr ⟨st, (traced_nt h').trans ?_⟩
    rw [setPll_nt, traced_nt h]
    rfl

theorem running_ownEntry (h : Running node s u) : OwnEntry node s.nt u.nt := by
  rcases running_nt h with hnt | ⟨st, hnt⟩ <;> rw [hnt]
  · exact ownEntry_refl node s.nt
  · exact ownEntry_modify node s.nt _

theorem running_ok (h : Running node s u) (hok : s.nt.ok = true) : u.nt.ok = true := by
  rcases running_nt h with hnt | ⟨st, hnt⟩ <;> rw [hnt]
  · exact hok
  · exact modify_ok hok (lists_none _ _)

theorem ends_ownEntry (h : Ends node s (.next t)) : OwnEntry node s.nt t.nt := by
  cases h with
  | @raised u h e => exact running_ownEntry (u := u) (.accesses h)
  | @returned u h r0 r1 => exact running_ownEntry (u := u) (.accesses h)
  | finished h c hc => exact ownEntry_trans (running_ownEntry h) (ownEntry_modify node _ c)
  | @polling u h p hp hc => exact running_ownEntry (u := u) h

theorem ends_nodesOk (h : Ends node s (.next t)) (hok : s.nt.ok = true) : t.nodesOk = true := by
  cases h with
  | @raised u h e => exact nodesOk_of_notBusy (running_ok (node := node) (u := u) (.accesses h) hok) rfl
  | @returned u h r0 r1 => exact nodesOk_of_notBusy (running_ok (node := node) (u := u) (.accesses h) hok) rfl
  | finished h c hc =>
    have hlists := lists_of_sameConfig (running_ownEntry h).1 (hc hok)
    exact nodesOk_of_notBusy (modify_ok (running_ok h hok) hlists) rfl
  | polling h p hp hc =>
    subst hp
    have hu := running_ok h hok
    have hlists := lists_of_sameConfig (running_ownEntry h).1 (hc hok)
    refine (nodesOk_iff _).2 ⟨hu, ?_⟩
    rintro _ ⟨⟩
    exact hlists

end

/-! ## `NODE.REGISTER` -/

/-- What the static checks (R232 (a) to (f)) establish of an admitted node. -/
theorem accept_some {d : NodeDesc} {params : Params} {nt : NodeTable} {n : NodeData}
    (h : d.accept params nt = some n) : wellFormedId d.id = true ∧ nt.has d.id = false ∧ n.ok nt = true := by
  unfold NodeDesc.accept at h
  split at h
  · cases h
  split at h
  next hchecks =>
    simp only [NodeDesc.idsOk, Bool.and_eq_true, Bool.not_eq_true'] at hchecks
    obtain ⟨⟨⟨⟨⟨⟨⟨hid, -⟩, -⟩, -⟩, hnew⟩, -⟩, -⟩, -⟩ := hchecks
    exact ⟨hid, hnew, (Option.filter_eq_some_iff.1 h).2⟩
  · cases h

theorem registers_nt {s t : State} (h : Registers s (.next t)) :
    t.engine = .idle ∧ t.status = 0 ∧
      ∃ e, e.id = s.desc.id ∧ t.nt = e :: s.nt ∧ (s.nt.ok = true → t.nt.ok = true) := by
  obtain ⟨d, d', hd, hd', ht⟩ := h
  cases ht
  have hnt : (s.discover d).nt = s.nt := traced_nt (discover_traced s d)
  refine ⟨rfl, rfl, { id := s.desc.id, flags := s.desc.flags, data := d' }, rfl, by simp [hnt], fun hok => ?_⟩
  obtain ⟨hid, hnew, hdata⟩ := accept_some hd
  have hdata' : d'.ok s.nt = true := by rw [← fixedPart_ok, fixedPart_discovered hd', fixedPart_ok, hdata]
  simp [hnt, tableOk_cons, entryOk_iff, hid, hnew, hdata', parentListed_discovered hd', hok]

/-! ## Commands and polls -/

theorem exec_nodesOk {i : Instr} {s t : State} (h : exec i s = .next t) (hok : s.nt.ok = true) :
    t.nodesOk = true := by
  rcases exec_cases i s with hends | ⟨-, hreg⟩
  · exact ends_nodesOk (h ▸ hends) hok
  · obtain ⟨hidle, -, e, -, -, hok'⟩ := registers_nt (h ▸ hreg)
    exact nodesOk_of_notBusy (hok' hok) hidle

theorem exec_nt {i : Instr} {s t : State} (h : exec i s = .next t) :
    OwnEntry i.node s.nt t.nt ∨ (i = .nodeRegister 0 ∧ ∃ e, e.id = s.desc.id ∧ t.nt = e :: s.nt) := by
  rcases exec_cases i s with hends | ⟨hi, hreg⟩
  · exact .inl (ends_ownEntry (h ▸ hends))
  · obtain ⟨-, -, e, hid, hnt, -⟩ := registers_nt (h ▸ hreg)
    exact .inr ⟨hi, e, hid, hnt⟩

/-- The port when a command is over, or in its poll (R9, R21, R252). -/
def PortAfter (s t : State) : Prop :=
  (t.engine = .idle ∧ t.status.toNat ≤ 5) ∨ (t.status = s.status ∧ t.r0 = s.r0 ∧ t.r1 = s.r1)

theorem running_port {node : ClockId} {s u : State} (h : Running node s u) :
    u.status = s.status ∧ u.r0 = s.r0 ∧ u.r1 = s.r1 := by
  cases h with
  | accesses h => exact ⟨traced_status h, traced_r0 h, traced_r1 h⟩
  | pll st h h' =>
    rw [traced_status h', traced_r0 h', traced_r1 h', setPll_status, setPll_r0, setPll_r1]
    exact ⟨traced_status h, traced_r0 h, traced_r1 h⟩

theorem ends_portAfter {node : ClockId} {s t : State} (h : Ends node s (.next t)) : PortAfter s t := by
  cases h with
  | raised h e => exact .inl ⟨rfl, code_le e⟩
  | returned h r0 r1 => exact .inl ⟨rfl, by simp⟩
  | finished h c hc => exact .inl ⟨rfl, by simp⟩
  | @polling u h p hp hc => exact .inr (running_port (u := u) h)

theorem exec_portAfter {i : Instr} {s t : State} (h : exec i s = .next t) : PortAfter s t := by
  rcases exec_cases i s with hends | ⟨-, hreg⟩
  · exact ends_portAfter (h ▸ hends)
  · obtain ⟨hidle, hstatus, -⟩ := registers_nt (h ▸ hreg)
    exact .inl ⟨hidle, by simp [hstatus]⟩

theorem poll_portAfter (s : State) (p : Poll) : PortAfter s (s.poll p) := by
  rcases poll_cases s p with ⟨-, h⟩ | ⟨-, h⟩ <;> rw [h]
  · exact .inl ⟨rfl, by simp⟩
  · exact .inr ⟨rfl, rfl, rfl⟩

theorem poll_sameConfig (s : State) (p : Poll) : SameConfig s.nt (s.poll p).nt := by
  rcases poll_cases s p with ⟨-, h⟩ | ⟨-, h⟩ <;> rw [h]
  · exact sameConfig_modify s.nt p.node p.next
  · exact sameConfig_refl s.nt

theorem poll_nodesOk {s : State} {p : Poll} (hok : s.nt.ok = true) (hp : Lists s.nt p.node p.next.parent) :
    (s.poll p).nodesOk = true :=
  ends_nodesOk (ends_poll (.accesses (traced_refl s)) p rfl fun _ => hp) hok

theorem runCommand_cases {s t : State} (h : runCommand s = .next t) :
    t = s.raise .invalidArgument ∨ ∃ i, decode s.cmd = .ok i ∧ exec i s = .next t := by
  cases hd : decode s.cmd with
  | error why =>
    rw [runCommand_of_illegal hd] at h
    cases h
    exact .inl rfl
  | ok i => exact .inr ⟨i, rfl, runCommand_of_decode hd ▸ h⟩

/-! ## Steps -/

@[simp] theorem setOperand_nt (s : State) (k : Fin 4) (v : Operand) : (s.setOperand k v).nt = s.nt := by
  unfold State.setOperand
  split <;> rfl

@[simp] theorem setOperand_engine (s : State) (k : Fin 4) (v : Operand) :
    (s.setOperand k v).engine = s.engine := by
  unfold State.setOperand
  split <;> rfl

@[simp] theorem setOperand_status (s : State) (k : Fin 4) (v : Operand) :
    (s.setOperand k v).status = s.status := by
  unfold State.setOperand
  split <;> rfl

/-- Settles O12: a command and a poll change the parent to a listed one or add an entry that met the checks. -/
theorem stepKeepsNodeTable : Obligations.StepKeepsNodeTable := by
  intro s t hs h
  obtain ⟨hok, hpoll⟩ := (nodesOk_iff s).1 hs
  cases step_cases h with
  | reset after rest u hh ht => exact ht ▸ nodesOk_of_notBusy rfl rfl
  | accept w rest he ht => exact ht ▸ (nodesOk_iff _).2 ⟨hok, by simp⟩
  | operand k v rest he ht => exact ht ▸ nodesOk_of_notBusy (by simpa using hok) (by simpa using he)
  | desc d rest he ht => exact ht ▸ nodesOk_of_notBusy hok he
  | kept rest ht => exact ht ▸ hs
  | command he hrun =>
    rcases runCommand_cases hrun with rfl | ⟨i, -, hexec⟩
    · exact nodesOk_of_notBusy hok rfl
    · exact exec_nodesOk hexec hok
  | poll p rest he ht => exact ht ▸ poll_nodesOk (s := { s with host := rest }) hok (hpoll p he)

theorem portOk_of_portAfter {s t : State} (hs : s.portOk = true) (hbusy : s.busy = true) (h : PortAfter s t) :
    t.portOk = true := by
  obtain ⟨hcode, hzero⟩ := (portOk_iff s).1 hs
  rcases h with ⟨hidle, hle⟩ | ⟨hstatus, hr0, hr1⟩
  · exact (portOk_iff t).2 ⟨hle, by simp [State.busy, Engine.busy, hidle]⟩
  · exact (portOk_iff t).2 ⟨hstatus ▸ hcode, fun _ => by simpa [hr0, hr1] using hzero hbusy⟩

/-- Settles O14: the engine is busy in the cases that end a command or go on with its poll, and the results are the
zeros of its start until then. -/
theorem stepKeepsPort : Obligations.StepKeepsPort := by
  intro s t hs h
  obtain ⟨hcode, -⟩ := (portOk_iff s).1 hs
  cases step_cases h with
  | reset after rest u hh ht => exact ht ▸ rfl
  | accept w rest he ht => exact ht ▸ (portOk_iff _).2 ⟨hcode, fun _ => ⟨rfl, rfl⟩⟩
  | operand k v rest he ht =>
    exact ht ▸ (portOk_iff _).2 ⟨by simpa using hcode, by simp [State.busy, Engine.busy, he]⟩
  | desc d rest he ht => exact ht ▸ hs
  | kept rest ht => exact ht ▸ hs
  | command he hrun =>
    have hbusy : s.busy = true := by simp [State.busy, Engine.busy, he]
    rcases runCommand_cases hrun with rfl | ⟨i, -, hexec⟩
    · exact portOk_of_portAfter hs hbusy (ends_portAfter (node := 0) (ends_raise _))
    · exact portOk_of_portAfter hs hbusy (exec_portAfter hexec)
  | poll p rest he ht =>
    have hbusy : s.busy = true := by simp [State.busy, Engine.busy, he]
    exact ht ▸ portOk_of_portAfter (s := { s with host := rest }) hs hbusy (poll_portAfter _ p)

/-- Settles O20: a command changes its own node's parent and `pll_state`, `NODE.REGISTER` adds an entry, and the rest
of a step does not touch the table. -/
theorem configurationImmutable : Obligations.ConfigurationImmutable := by
  refine ⟨fun s t h => ?_, fun i s t h => exec_nt h⟩
  cases step_cases h with
  | reset after rest u hh ht => exact .inl ⟨after, rest, hh⟩
  | accept w rest he ht => exact ht ▸ .inr (.inl rfl)
  | operand k v rest he ht => exact ht ▸ .inr (.inl (by simp))
  | desc d rest he ht => exact ht ▸ .inr (.inl rfl)
  | kept rest ht => exact ht ▸ .inr (.inl rfl)
  | command he hrun =>
    rcases runCommand_cases hrun with rfl | ⟨i, -, hexec⟩
    · exact .inr (.inl rfl)
    · rcases exec_nt hexec with ⟨hconfig, -⟩ | ⟨-, e, -, hnt⟩
      · exact .inr (.inl hconfig)
      · exact .inr (.inr ⟨e, hnt⟩)
  | poll p rest he ht => exact ht ▸ .inr (.inl (poll_sameConfig { s with host := rest } p))

/-! ## Progress -/

theorem exec_goesOn (i : Instr) {s : State} (hok : s.nt.ok = true) : ∃ t, exec i s = .next t := by
  rcases exec_cases i s with hends | ⟨-, d, d', -, -, h⟩
  · cases h : exec i s with
    | next t => exact ⟨t, rfl⟩
    | fault f =>
      rw [h] at hends
      cases hends with
      | stopped f hbad => exact absurd hok hbad
    | refused r => rw [h] at hends; cases hends
  · exact ⟨_, h⟩

theorem runCommand_goesOn {s : State} (hok : s.nt.ok = true) : ∃ t, runCommand s = .next t := by
  cases hd : decode s.cmd with
  | error why => exact ⟨_, runCommand_of_illegal hd⟩
  | ok i => exact runCommand_of_decode hd ▸ exec_goesOn i hok

/-- On a table that registration made no step stops (R240, R176). -/
theorem step_goesOn {s : State} (hok : s.nt.ok = true) : StepGoesOn s := by
  cases he : s.engine with
  | idle =>
    cases hh : s.host with
    | nil => exact ⟨_, step_idle_nil he hh⟩
    | cons m rest => exact ⟨_, step_idle_cons he hh⟩
  | started =>
    by_cases hh : NoResetNext s
    · rw [StepGoesOn, step_started he hh]
      exact runCommand_goesOn hok
    · simp only [NoResetNext, not_forall, not_not] at hh
      obtain ⟨after, rest, hh⟩ := hh
      obtain ⟨u, hu⟩ := runCommand_goesOn (s := { s with host := rest }) hok
      exact ⟨_, by rw [step_started_reset he hh, runAbandoned, hu]⟩
  | polling p =>
    cases hh : s.host with
    | nil => exact ⟨_, step_polling_nil he hh⟩
    | cons m rest => exact ⟨_, step_polling_cons he hh⟩

theorem goesOn_of_nodesOk (n : Nat) {s : State} (hs : s.nodesOk = true) : GoesOn n s := by
  induction n generalizing s with
  | zero => exact ⟨s, rfl⟩
  | succ n ih =>
    obtain ⟨t, ht⟩ := step_goesOn ((nodesOk_iff s).1 hs).1
    obtain ⟨u, hu⟩ := ih (stepKeepsNodeTable s t hs ht)
    exact ⟨u, (run_succ_of_step core n s t ht).trans hu⟩

/-- Settles O16: the table is well-formed at reset, every step keeps it so, and on such a table no step stops. -/
theorem runFromResetGoesOn : Obligations.RunFromResetGoesOn := fun n _ _ _ => goesOn_of_nodesOk n rfl

end Sys2Proof.Proofs
end

