-- ==== Sys2Proof/Proofs/PlainRegisters.lean ====
section
/-! PROOFS. Plain registers: what a read returns, and what a write stores and takes into use (R34, R59 to R62, U1). -/

namespace Sys2Proof.Proofs

open Machine Laws

/-! ## Bits under a mask -/

theorem merge_and_mask (x d m : Word) : ((x &&& m) ||| (d &&& ~~~m)) &&& m = x &&& m := by
  ext i hi
  cases hm : m[i] <;> simp [hm]

theorem merge_and_not_mask (x d m : Word) : ((x &&& m) ||| (d &&& ~~~m)) &&& ~~~m = d &&& ~~~m := by
  ext i hi
  cases hm : m[i] <;> simp [hm]

/-! ## Answers -/

@[simp] theorem afterWrite_specAt (t : Target) (a v b : Word) : (t.afterWrite a v).specAt b = t.specAt b := by
  simp [Target.specAt]

@[simp] theorem afterWrite_regAt (t : Target) (a v b : Word) : (t.afterWrite a v).regAt b = t.regAt b := by
  simp [Target.regAt]

section
variable {t : Target} {a storage : Word}

/-- The storage bits read what is stored (R60). -/
theorem answer_and_storage (hh : t.havoc = false) (hr : t.regAt a = some (.plain storage)) :
    t.answer a &&& storage = t.mem.readWord a &&& storage := by
  simp only [Target.answer, Target.knownBits, Target.knownMask, hh, hr]
  exact merge_and_mask _ _ _

/-- The other bits are a draw (R61, R62). -/
theorem answer_and_not_storage (hh : t.havoc = false) (hr : t.regAt a = some (.plain storage)) :
    t.answer a &&& ~~~ storage = t.nextDraw &&& ~~~ storage := by
  simp only [Target.answer, Target.knownBits, Target.knownMask, hh, hr]
  exact merge_and_not_mask _ _ _

/-- Where no bit is fixed the answer is the draw. -/
theorem answer_of_knownMask (h : t.knownMask a = 0) : t.answer a = t.nextDraw := by
  simp only [Target.answer, h, BitVec.ofNat_eq_ofNat, BitVec.and_zero, BitVec.zero_or, BitVec.not_zero,
    BitVec.and_allOnes]

end

/-! ## Writes -/

/-- A write to an address without a register (R59, U1; assumption 18). -/
theorem afterWrite_none {t : Target} {a : Word} (v : Word) (h : t.regAt a = none) :
    t.afterWrite a v = { t with havoc := true } := by
  simp [Target.afterWrite, h]

section
variable {t : Target} {a v storage : Word} (h : t.regAt a = some (.plain storage))
include h

theorem afterWrite_plain :
    t.afterWrite a v =
      { t with
        mem := t.mem.writeWord a v
        latched := Target.latchedAfter { t with mem := t.mem.writeWord a v } a v } := by
  simp [Target.afterWrite, h]

theorem afterWrite_plain_havoc : (t.afterWrite a v).havoc = t.havoc := by rw [afterWrite_plain h]

theorem afterWrite_plain_mem : (t.afterWrite a v).mem = t.mem.writeWord a v := by rw [afterWrite_plain h]

theorem afterWrite_plain_latched {r : RegSpec} (hr : t.specAt a = some r) :
    (t.afterWrite a v).latched =
      (r.taken v).foldl (fun m c => m.writeWord c ((t.afterWrite a v).mem.readWord c)) t.latched := by
  have hspec : Target.specAt { t with mem := t.mem.writeWord a v } a = some r := hr
  rw [afterWrite_plain_mem h, afterWrite_plain h]
  simp [Target.latchedAfter, hspec]

/-- A write to one plain register leaves the storage bits of every other as they were (R60). -/
theorem answer_afterWrite_of_ne (hh : t.havoc = false) {b other : Word} (hr : t.regAt b = some (.plain other))
    (hab : a.toNat + 4 ≤ b.toNat ∨ b.toNat + 4 ≤ a.toNat) :
    (t.afterWrite a v).answer b &&& other = t.answer b &&& other := by
  have hh' : (t.afterWrite a v).havoc = false := (afterWrite_plain_havoc h).trans hh
  rw [answer_and_storage hh' ((afterWrite_regAt t a v b).trans hr), answer_and_storage hh hr,
    afterWrite_plain_mem h, readWord_writeWord_ne a b v t.mem hab]

/-- A write to a plain register is read back on its storage bits (R60). -/
theorem answer_afterWrite_self (hh : t.havoc = false) : (t.afterWrite a v).answer a &&& storage = v &&& storage := by
  have hh' : (t.afterWrite a v).havoc = false := (afterWrite_plain_havoc h).trans hh
  rw [answer_and_storage hh' ((afterWrite_regAt t a v a).trans h), afterWrite_plain_mem h, readWord_writeWord]

end

/-! ## What is in use -/

theorem aligned_apart {a b : Word} (ha : a.toNat % 4 = 0) (hb : b.toNat % 4 = 0) (h : a ≠ b) :
    a.toNat + 4 ≤ b.toNat ∨ b.toNat + 4 ≤ a.toNat := by
  have hne : a.toNat ≠ b.toNat := fun he => h (BitVec.eq_of_toNat_eq he)
  omega

/-- Taking some registers into use: each of them as `f` gives it, every other one as it was. -/
theorem inUseWord_foldl_writeWord (f : Word → Word) (cs : List Word) (hcs : ∀ x ∈ cs, x.toNat % 4 = 0)
    (m : Memory) {c : Word} (hc : c.toNat % 4 = 0) :
    Memory.inUseWord c (cs.foldl (fun m x => m.writeWord x (f x)) m) = if c ∈ cs then f c else m.inUseWord c := by
  induction cs generalizing m with
  | nil => simp
  | cons x rest ih =>
    rw [List.foldl_cons, ih (fun y hy => hcs y (by simp [hy]))]
    by_cases hrest : c ∈ rest
    · simp [hrest]
    · by_cases hx : c = x
      · subst hx
        simp [hrest, inUseWord_writeWord]
      · have happart := aligned_apart (hcs x (by simp)) hc (Ne.symm hx)
        simp [hrest, hx, inUseWord_writeWord_ne x c (f x) m happart]

theorem specAt_addr {t : Target} {a : Word} {r : RegSpec} (h : t.specAt a = some r) : r.addr = a := by
  simpa using List.find?_some h

/-- What a write takes into use (R34, R61; assumptions 16, 17). -/
theorem latched_afterWrite {t : Target} {a v storage : Word} {r : RegSpec} (ha : a.toNat % 4 = 0)
    (hr : t.specAt a = some r) (hk : r.kind = .plain storage)
    (hcommits : ∀ st ∈ r.strobes, ∀ c ∈ st.commits, c.toNat % 4 = 0) {c : Word} (hc : c.toNat % 4 = 0) :
    (t.afterWrite a v).latched.inUseWord c =
      if c ∈ r.taken v then (t.afterWrite a v).mem.readWord c else t.latched.inUseWord c := by
  have hreg : t.regAt a = some (.plain storage) := by simp [Target.regAt, hr, hk]
  have haligned : ∀ x ∈ r.taken v, x.toNat % 4 = 0 := by
    intro x hx
    rcases (mem_taken r v x).1 hx with ⟨-, rfl⟩ | ⟨st, hst, -, hx⟩
    · rwa [specAt_addr hr]
    · exact hcommits st hst x hx
  rw [afterWrite_plain_latched hreg hr, inUseWord_foldl_writeWord _ _ haligned _ hc]

/-- Settles O35: the storage laws under the masks of the map. -/
theorem plainRegisterReadsBack : Obligations.PlainRegisterReadsBack := by
  intro t a v storage hh ha
  refine ⟨fun hreg => ⟨answer_afterWrite_self hreg hh, answer_and_not_storage hh hreg,
    fun b other hb hb4 hne => ?_⟩, fun r hr hk hcommits c hc => ?_, fun hreg => ⟨?_, fun b => ?_⟩⟩
  · exact answer_afterWrite_of_ne hreg hh hb (aligned_apart ha hb4 hne.symm)
  · have hmem := mem_taken r v c
    rw [specAt_addr hr] at hmem
    rw [latched_afterWrite ha hr hk hcommits hc]
    refine ⟨fun htaken => if_pos (hmem.2 htaken), fun hdirect hstrobes => if_neg fun htaken => ?_⟩
    rcases hmem.1 htaken with hd | ⟨st, hst, hset, hcst⟩
    · exact hdirect hd
    · exact hstrobes st hst hset hcst
  · exact answer_of_knownMask (by simp [Target.knownMask, hreg])
  · rw [afterWrite_none v hreg, answer_of_knownMask (by simp [Target.knownMask])]
    rfl

end Sys2Proof.Proofs
end

