-- ==== Sys2Proof/Proofs/Registration.lean ====
section
/-! PROOFS. `NODE.REGISTER` of a description that meets its checks: what it reads and the entry it adds (R35, R38, R231,
R232). -/

namespace Sys2Proof.Proofs

open Machine Laws

/-! ## Runs of reads as events -/

theorem readEvents_cons (s : State) (evs : List BusEvent) (base o : Word) (os : List Word) :
    readEvents s evs base (o :: os) =
      readEvents s (evs ++ [.read (busAddr base o) (readAfter s evs (busAddr base o))]) base os :=
  rfl

theorem readAll_afterEvents (s : State) (evs : List BusEvent) (base : Word) (os : List Word) :
    (afterEvents s evs).readAll base os = afterEvents s (readEvents s evs base os) := by
  induction os generalizing evs with
  | nil => rfl
  | cons o os ih =>
    rw [readEvents_cons, ← ih, State.readAll, regRead_eq, afterEvents_afterEvents]
    rfl

theorem fieldsGet_eq (s : State) (base : Word) (fs : List FieldDesc) :
    s.fieldsGet base fs = afterEvents s (readEvents s [] base (distinctOffs fs)) := by
  simpa [State.fieldsGet] using readAll_afterEvents s [] base (distinctOffs fs)

theorem readEvents_append (s : State) (evs : List BusEvent) (base : Word) (os : List Word) :
    readEvents s evs base os = evs ++ readEvents (afterEvents s evs) [] base os := by
  induction os generalizing s evs with
  | nil => simp [readEvents]
  | cons o os ih =>
    rw [readEvents_cons, readEvents_cons, ih, ih (afterEvents s evs)]
    simp [readAfter]

/-- The first read of a run, then the run of the others. -/
theorem readEvents_nil_cons (s : State) (base o : Word) (os : List Word) :
    readEvents s [] base (o :: os) =
      .read (busAddr base o) (s.target.answer (busAddr base o)) :: readEvents (s.regRead base o) [] base os := by
  rw [readEvents_cons, readEvents_append]
  rfl

theorem busAddr_inj {base o o' : Word} : busAddr base o = busAddr base o' ↔ o = o' :=
  BitVec.add_right_inj base

/-- What a run of reads finds at an offset is the first read of its address. -/
theorem snapshotAt_lookup (s : State) (base off : Word) (os : List Word) :
    ((s.snapshotAt base os).lookup off).getD 0 = firstRead (busAddr base off) (readEvents s [] base os) := by
  induction os generalizing s with
  | nil => rfl
  | cons o os ih =>
    rw [readEvents_nil_cons, State.snapshotAt, firstRead, List.lookup_cons]
    by_cases h : off = o
    · simp [h, State.regValue, State.memValue]
    · simp only [beq_eq_false_iff_ne.2 h, busAddr_inj, Ne.symm h, if_false]
      exact ih _

theorem getFrom_fieldsValue (s : State) (base : Word) (fs : List FieldDesc) (f : FieldDesc) :
    f.getFrom (s.fieldsValue base fs) = fieldIn (readEvents s [] base (distinctOffs fs)) base f :=
  congrArg f.extract (snapshotAt_lookup s base f.off _)

theorem fieldValue_eq (s : State) (base : Word) (f : FieldDesc) :
    s.fieldValue base f = fieldIn (readEvents s [] base [f.off]) base f := by
  simp [fieldIn, readEvents_nil_cons, firstRead, State.fieldValue, State.regValue, State.memValue]

/-! ## The static checks -/

theorem ofCode_code (k : NodeKind) : NodeKind.ofCode k.code = some k := by cases k <;> rfl

theorem has_of_lookup_ne_none {nt : NodeTable} {id : ClockId} (h : nt.lookup id ≠ none) : nt.has id = true :=
  Option.isSome_iff_ne_none.2 h

theorem tableOk_of_checks {nt : NodeTable} {t : MuxTable} (h : TableChecks nt t) : t.ok nt = true := by
  obtain ⟨hpos, hlen, hmax, hsel, hpid, hids⟩ := h
  have hids' : ∀ p ∈ t.pid, wellFormedId p = true ∧ nt.has p = true := fun p hp =>
    ⟨(hids p hp).1, has_of_lookup_ne_none (hids p hp).2⟩
  have hmax' : t.sel.length ≤ Config.muxMax := hmax
  rw [hlen] at hpos hmax'
  simpa [MuxTable.ok, hpos, hlen, hmax', hsel, hpid] using hids'

theorem kindOk_of_checks {d : NodeDesc} {nt : NodeTable} {node : NodeData} (h : KindChecks d nt node) :
    node.kindOk nt = true := by
  cases node with
  | fpll n =>
    obtain ⟨hfrac, hid, hparent, -⟩ := h
    simp [NodeData.kindOk, hfrac, hid, has_of_lookup_ne_none hparent, Config.fracBits]
  | dpll n =>
    obtain ⟨hid, hparent, -⟩ := h
    simp [NodeData.kindOk, NodeTable.kindOf, hid, hparent]
  | mck n =>
    obtain ⟨htable, hsel, hlen, hdiv, hpres, hdis⟩ := h
    have hpres' : n.pres3.all (fun c => decide (c ≤ n.pres.fmax)) = true := by simpa [Option.all_eq_true] using hpres
    cases hcan : n.canDisable <;>
      simp_all [NodeData.kindOk, tableOk_of_checks, Option.isSome_iff_ne_none]
  | gck n =>
    obtain ⟨htable, hsel, hwidth, hid, hstrobe, hen, hdiv, hmux, hnodup, hextra⟩ := h
    simpa [NodeData.kindOk, SharedPort.ok, tableOk_of_checks htable, hwidth, hid, hstrobe, hen, hdiv, hmux, hnodup]
      using ⟨hsel, hextra⟩
  | peri n =>
    obtain ⟨hid, hstrobe, hen, hparent, hkind, -⟩ := h
    simp [NodeData.kindOk, NodeTable.kindOf, SharedPort.ok, hid, hstrobe, hen, hparent, hkind]
  | prog n =>
    obtain ⟨htable, hsel⟩ := h
    cases hext : n.ext <;> simp_all [NodeData.kindOk, tableOk_of_checks]
  | osc n =>
    obtain ⟨hrate, -, -⟩ := h
    simpa [NodeData.kindOk] using hrate

/-- A node's descriptors are among those its description gives. -/
theorem fields_present {d : NodeDesc} {node : NodeData} (h : Carries d node) :
    ∀ f ∈ node.fields, f ∈ d.layout.present := by
  cases node <;> simp_all [Carries, NodeData.fields, LayoutDesc.present]
  case fpll | mck | prog => tauto

/-- The node a description stands for is the one that carries it, with its discovered part still open. -/
theorem build_of_carries {d : NodeDesc} {nt : NodeTable} {node : NodeData} (h : Carries d node)
    (hk : KindChecks d nt node) : d.build node.kind = some (fixedPart node) := by
  cases node <;>
    simp_all [Carries, KindChecks, NodeDesc.build, NodeData.kind, fixedPart, NodeData.withParent, NodeData.withPll]

theorem baseOk_of_carries {d : NodeDesc} {node : NodeData} (h : Carries d node) : d.baseOk node.kind = true := by
  cases node <;> obtain ⟨-, h⟩ := h
  case osc => rfl
  all_goals
    have hlt : d.base < 2 ^ 32 := h.1 ▸ BitVec.isLt _
    simp only [NodeDesc.baseOk, hlt, decide_true, Bool.or_true]

/-- The static checks admit the description of a node that meets them (R232 (a) to (f)). -/
theorem accept_of_checks {s : State} {node : NodeData} (hc : Carries s.desc node) (hs : StaticChecks s node) :
    s.desc.accept s.params s.nt = some (fixedPart node) := by
  obtain ⟨hid, hparent, hextra, htable, hnew, hmax, hlayout, hbase, hone, hkind⟩ := hs
  have hids : s.desc.idsOk = true := by
    simpa [NodeDesc.idsOk, hid, Option.all_eq_true, and_assoc] using ⟨hparent, hextra, htable⟩
  have hlayout' : ∀ f ∈ s.desc.layout.present, f.ok = true := fun f hf => (fieldDesc_ok_iff f).2 (hlayout f hf)
  have hok : node.ok s.nt = true := by
    have hfields : ∀ f ∈ node.fields, f.ok = true := fun f hf => hlayout' f (fields_present hc f hf)
    have honeBit : ∀ f ∈ node.oneBitFields, f.oneBit = true := fun f hf => by simp [FieldDesc.oneBit, hone f hf]
    exact (dataOk_iff _ _).2 ⟨hfields, honeBit, hbase, kindOk_of_checks hkind⟩
  have hnew' : s.nt.has s.desc.id = false := by simp [NodeTable.has, hnew]
  have hpresent : s.desc.layout.present.all FieldDesc.ok = true := List.all_eq_true.2 hlayout'
  simp [NodeDesc.accept, hc.1, ofCode_code, hids, hnew', hmax, hpresent, baseOk_of_carries hc,
    build_of_carries hc hkind, hok]

/-! ## The entry added -/

/-- The state after a registration with some bus accesses: one entry more, the id in `R0`. -/
def registered (s : State) (evs : List BusEvent) (d : NodeData) : State :=
  succeeded { afterEvents s evs with nt := { id := s.desc.id, flags := s.desc.flags, data := d } :: s.nt }
    (s.desc.id.setWidth 64) 0

/-- `NODE.REGISTER` of an admitted description: its discovery, then the entry (R232 (g), (h)). -/
theorem nodeRegister_adds {s : State} {d d' : NodeData} {evs : List BusEvent} (hc : Carries s.desc d)
    (hs : StaticChecks s d) (hfound : (fixedPart d).discovered s = some d')
    (hevs : s.discover (fixedPart d) = afterEvents s evs) :
    exec (.nodeRegister 0) s = .next (registered s evs d') := by
  simp only [exec, execNodeRegister, ne_eq, not_true_eq_false, if_false, accept_of_checks hc hs, hfound, hevs]
  rfl

theorem parentOf_of_s2i {t : MuxTable} {code i : Nat} {p : ClockId} (hi : t.s2i code = some i)
    (hp : t.pid[i]? = some p) : t.parentOf code = some p := by
  simp [MuxTable.parentOf, hi, hp]

theorem discovered_mck {s : State} {n : MckNode} {i : Nat} {p : ClockId}
    (hi : n.table.s2i (fieldIn (readEvents s [] n.base [n.mux.off]) n.base n.mux) = some i)
    (hp : n.table.pid[i]? = some p) :
    (fixedPart (.mck n)).discovered s = some (.mck { n with parent := p }) := by
  have hparent := parentOf_of_s2i hi hp
  rw [← fieldValue_eq] at hparent
  exact congrArg (Option.map _) hparent

theorem discovered_gck {s : State} {n : GckNode} {i : Nat} {p : ClockId}
    (hi : n.table.s2i (n.mux.extract (s.selectedValue n.port)) = some i) (hp : n.table.pid[i]? = some p) :
    (fixedPart (.gck n)).discovered s = some (.gck { n with parent := p }) :=
  congrArg (Option.map _) (parentOf_of_s2i hi hp)

/-- The select code of a programmable clock in the discovery reads (R232 (g)). -/
theorem progCode_eq (s : State) (n : ProgNode) :
    progCode n (s.fieldsValue n.base (progSelectFields n)) =
      match n.ext with
      | none => fieldIn (readEvents s [] n.base (distinctOffs (progSelectFields n))) n.base n.mux
      | some ext => fieldIn (readEvents s [] n.base (distinctOffs (progSelectFields n))) n.base n.mux |||
          (fieldIn (readEvents s [] n.base (distinctOffs (progSelectFields n))) n.base ext <<< n.mux.width) := by
  unfold progCode
  cases n.ext <;> simp only [getFrom_fieldsValue]

theorem discovered_prog {s : State} {n : ProgNode} {i : Nat} {p : ClockId}
    (hi : n.table.s2i (progCode n (s.fieldsValue n.base (progSelectFields n))) = some i)
    (hp : n.table.pid[i]? = some p) :
    (fixedPart (.prog n)).discovered s = some (.prog { n with parent := p }) :=
  congrArg (Option.map _) (parentOf_of_s2i hi hp)

/-- Settles O47, a kind at a time: the discovery accesses as events, and what the node finds in them. -/
theorem nodeRegisterAddsEntry : Obligations.NodeRegisterAddsEntry := by
  intro s d hc hs
  refine ⟨?_, ?_, ?_, ?_, ?_, ?_, ?_⟩
  · rintro n rfl
    exact nodeRegister_adds hc hs rfl (afterEvents_nil s).symm
  · rintro n rfl
    exact nodeRegister_adds hc hs rfl (afterEvents_nil s).symm
  · rintro n rfl
    exact nodeRegister_adds hc hs rfl (regRead_eq s n.base n.ready.off)
  · rintro n rfl
    exact nodeRegister_adds hc hs rfl (regRead_eq s n.base n.ready.off)
  · rintro n rfl evs i p hi hp
    exact nodeRegister_adds hc hs (discovered_mck hi hp) (regRead_eq s n.base n.mux.off)
  · rintro n rfl c select v i p hi hp
    exact nodeRegister_adds hc hs (discovered_gck hi hp) (selectAndRead_eq s n.port)
  · rintro n rfl fields evs code i p hi hp
    refine nodeRegister_adds hc hs (discovered_prog ?_ hp) (fieldsGet_eq s n.base (progSelectFields n))
    rw [progCode_eq]
    exact hi

end Sys2Proof.Proofs
end

