-- ==== Sys2Proof/Proofs/TargetFrame.lean ====
section
/-! PROOFS. What commands and steps do to the target is what their bus events do (R65): from this, the canonical form of
its storage, the frame of its memory, and a poll that is answered (R60, R64, R117, R118). -/

namespace Sys2Proof.Proofs

open Machine Laws

/-! ## Commands as bus events -/

/-- The bus events of a command, as the trace, the target and the answers of the target show them. -/
theorem byCommand_events {s t : State} (h : ByCommand s t) :
    ∃ evs, t.trace = s.trace ++ evs ∧ t.target = s.target.replay evs ∧ Explained s.target evs := by
  obtain ⟨evs, hevs, ht⟩ := h
  exact ⟨evs, by rw [ht]; rfl, by rw [ht]; rfl, hevs⟩

/-- Settles O18: every one of the 47 commands stays within the frame `ByCommand`. -/
theorem commandTraceExplainsTarget : Obligations.CommandTraceExplainsTarget :=
  fun _ _ _ h => byCommand_events (exec_byCommand h)

/-! ## Steps as bus events -/

/-- The target of the second state is that of the first after some bus events. -/
def TargetReplayed (s t : State) : Prop := ∃ evs, t.target = s.target.replay evs

theorem targetReplayed_of_eq {s t : State} (h : t.target = s.target) : TargetReplayed s t := ⟨[], h⟩

theorem targetReplayed_of_byCommand {s t : State} (h : ByCommand s t) : TargetReplayed s t := by
  obtain ⟨evs, -, htarget, -⟩ := byCommand_events h
  exact ⟨evs, htarget⟩

/-- An engine reset keeps the target, with the accesses of a command it cuts short (R280, R281). -/
theorem step_reset_targetReplayed {s t : State} {after : Nat} {rest : List HostMove}
    (hh : s.host = .reset after :: rest) (h : step s = .next t) : TargetReplayed s t := by
  by_cases he : s.engine = .started
  · rw [step_started_reset he hh] at h
    obtain ⟨u, -, rfl⟩ := runAbandoned_next h
    exact ⟨_, rfl⟩
  · obtain ⟨u, hu, -, htarget, -⟩ := step_resets hh (.inl he)
    cases hu.symm.trans h
    exact ⟨[], htarget⟩

theorem setOperand_target (s : State) (k : Fin 4) (v : Operand) : (s.setOperand k v).target = s.target := by
  unfold State.setOperand
  split <;> rfl

/-- Every step acts on the target by bus events alone. -/
theorem step_targetReplayed {s t : State} (h : step s = .next t) : TargetReplayed s t := by
  cases step_cases h with
  | reset after rest u hh ht => exact step_reset_targetReplayed hh h
  | accept w rest he ht => exact targetReplayed_of_eq (by rw [ht]; rfl)
  | operand k v rest he ht => exact targetReplayed_of_eq (by rw [ht, setOperand_target])
  | desc d rest he ht => exact targetReplayed_of_eq (by rw [ht])
  | kept rest ht => exact targetReplayed_of_eq (by rw [ht])
  | command he hrun => exact targetReplayed_of_byCommand (runCommand_byCommand hrun)
  | poll p rest he ht =>
    subst ht
    exact targetReplayed_of_byCommand (s := { s with host := rest }) (poll_byCommand _ p)

/-- Settles O13: a step replays bus events on the target, and each event keeps the keys of the four stores rising. -/
theorem stepKeepsStorageCanonical : Obligations.StepKeepsStorageCanonical := by
  intro s t hs h
  obtain ⟨evs, htarget⟩ := step_targetReplayed h
  rw [storageOk_iff] at hs ⊢
  exact htarget ▸ replay_wf s.target evs hs

/-! ## The frame of memory -/

/-- A write leaves every byte outside its word as it was; one to a shared command register or to an address without a
register leaves every byte (R60; assumption 18). -/
theorem readByte_afterWrite (t : Target) {a v : Word} {b : Nat} (h : ¬(a.toNat ≤ b ∧ b < a.toNat + 4)) :
    (t.afterWrite a v).mem.readByte b = t.mem.readByte b := by
  unfold Target.afterWrite
  split
  · rfl
  · exact readByte_writeWord a v b t.mem h
  · rfl

theorem readByte_replay (t : Target) {b : Nat} {evs : List BusEvent} (h : ∀ e ∈ evs, writesByte b e = false) :
    (t.replay evs).mem.readByte b = t.mem.readByte b := by
  induction evs generalizing t with
  | nil => rfl
  | cons e rest ih =>
    rw [replay_cons, ih _ fun e' he' => h e' (by simp [he'])]
    cases e with
    | read a v => rfl
    | write a v => exact readByte_afterWrite t (by simpa [writesByte] using h (.write a v) (by simp))
    | settle => rfl

/-- Settles O19: the command's events are what its trace adds, and none of them writes the byte. -/
theorem bytesChangeOnlyWhereWritten : Obligations.BytesChangeOnlyWhereWritten := by
  intro i s t h b hb
  obtain ⟨evs, htrace, htarget, -⟩ := byCommand_events (exec_byCommand h)
  rw [htrace, List.drop_left] at hb
  rw [htarget, readByte_replay s.target hb]

/-! ## A poll that is answered -/

/-- The value awaited, as a condition on the status bits (R117, R118). -/
theorem exits_iff (p : Poll) (r : Word) : p.exits r = true ↔ (r &&& p.mask ≠ 0 ↔ p.awaited = true) := by
  unfold Poll.exits
  cases p.awaited <;> simp

theorem readsLater_afterRead (t : Target) (k : Nat) : readsLater t.afterRead k = readsLater t (k + 1) := by
  induction k with
  | zero => rfl
  | succ k ih => exact congrArg Target.afterRead ih

/-- The command of a poll has ended with its results (R9). -/
def PollEnded (p : Poll) (t : State) : Prop :=
  t.busy = false ∧ t.status = 0 ∧ t.r0 = p.next.r0 ∧ t.r1 = p.next.r1

/-- The read that finds the awaited value, `k` reads from now, ends the command at the latest. -/
theorem poll_ends_within (k : Nat) {s : State} {p : Poll} (he : s.engine = .polling p) (hh : s.host = [])
    (hk : p.exits ((readsLater s.target k).answer p.addr) = true) :
    ∃ m ≤ k + 1, ∃ t, core.run m s = .next t ∧ PollEnded p t := by
  induction k generalizing s with
  | zero =>
    have hstep := step_polling_nil he hh
    rcases poll_cases s p with ⟨-, hpoll⟩ | ⟨hstay, -⟩
    · rw [hpoll] at hstep
      exact ⟨1, le_rfl, _, run_succ_of_step core 0 s _ hstep, rfl, rfl, rfl, rfl⟩
    · exact absurd (hk.symm.trans hstay) (by decide)
  | succ k ih =>
    have hstep := step_polling_nil he hh
    rcases poll_cases s p with ⟨-, hpoll⟩ | ⟨-, hpoll⟩ <;> rw [hpoll] at hstep
    · exact ⟨1, by omega, _, run_succ_of_step core 0 s _ hstep, rfl, rfl, rfl, rfl⟩
    · obtain ⟨m, hm, t, hrun, hended⟩ := ih (s := { s.memRead p.addr with engine := .polling p }) rfl hh
        (by rwa [memRead_target, readsLater_afterRead])
      exact ⟨m + 1, by omega, t, (run_succ_of_step core m s _ hstep).trans hrun, hended⟩

/-- Settles O10, by induction on the number of reads before the awaited value. -/
theorem answeredPollReturns : Obligations.AnsweredPollReturns := by
  rintro n s p he hh ⟨k, hk, hanswer⟩
  obtain ⟨m, hm, t, hrun, hended⟩ := poll_ends_within k he hh ((exits_iff p _).2 hanswer)
  exact ⟨m, by omega, t, hrun, hended⟩

end Sys2Proof.Proofs
end

