-- ==== Sys2Proof/Proofs/SharedRegister.lean ====
section
/-! PROOFS. The shared command register: what a read returns, and what a write selects and applies (R33, R63). -/

namespace Sys2Proof.Proofs

open Machine Laws

/-- Masks without a common bit. -/
theorem getElem_of_and_eq_zero {x y : Word} (h : x &&& y = 0) {i : Nat} (hi : i < 32) : (x[i] && y[i]) = false := by
  simp [← BitVec.getElem_and, h]

theorem appliedKey_inj {a id id' : Word} : appliedKey a id = appliedKey a id' ↔ id = id' := by
  simp [appliedKey, BitVec.toNat_inj]

section
variable {t : Target} {a idsel strobe config : Word} (hr : t.regAt a = some (.shared idsel strobe config))
include hr

/-! ## Writes -/

theorem afterWrite_shared (v : Word) :
    t.afterWrite a v =
      { t with
        selected := cellPut a.toNat (v &&& idsel) t.selected
        applied :=
          if v &&& strobe ≠ 0 then cellPut (appliedKey a (v &&& idsel)) (v &&& config) t.applied else t.applied } := by
  simp [Target.afterWrite, hr]

theorem afterWrite_shared_havoc (v : Word) : (t.afterWrite a v).havoc = t.havoc := by rw [afterWrite_shared hr]

theorem afterWrite_shared_mem (v : Word) : (t.afterWrite a v).mem = t.mem := by rw [afterWrite_shared hr]

/-- Every write selects the ID it carries (R33; assumption 12). -/
theorem selectedId_afterWrite (v : Word) : (t.afterWrite a v).selectedId a idsel = v &&& idsel := by
  rw [afterWrite_shared hr]
  simp [Target.selectedId, cellGet_cellPut, BitVec.and_assoc]

theorem configOf_afterWrite_unstrobed {v : Word} (hv : v &&& strobe = 0) (id : Word) :
    (t.afterWrite a v).configOf a id = t.configOf a id := by
  rw [afterWrite_shared hr]
  simp [Target.configOf, hv]

/-- A strobed write gives its configuration to the ID it carries and to no other (R63). -/
theorem configOf_afterWrite_strobed {v : Word} (hv : v &&& strobe ≠ 0) (id : Word) :
    (t.afterWrite a v).configOf a id = if id = v &&& idsel then v &&& config else t.configOf a id := by
  rw [afterWrite_shared hr, if_pos hv]
  by_cases hid : id = v &&& idsel <;> simp [Target.configOf, cellGet_cellPut, appliedKey_inj, hid]

/-! ## Reads -/

variable (hh : t.havoc = false) (hd : idsel &&& config = 0)
include hh hd

/-- The selector bits read the selected ID (R63). -/
theorem answer_and_idsel : t.answer a &&& idsel = t.selectedId a idsel := by
  simp only [Target.answer, Target.knownBits, Target.knownMask, Target.selectedId, hh, hr]
  ext i hi
  have hbit := getElem_of_and_eq_zero hd hi
  cases hs : idsel[i] <;> simp_all

/-- The configuration bits read the configuration of the selected ID (R63). -/
theorem answer_and_config : t.answer a &&& config = t.configOf a (t.selectedId a idsel) &&& config := by
  simp only [Target.answer, Target.knownBits, Target.knownMask, hh, hr]
  generalize t.configOf a (t.selectedId a idsel) = c
  simp only [Target.selectedId]
  ext i hi
  have hbit := getElem_of_and_eq_zero hd hi
  cases hc : config[i] <;> simp_all

/-- What a read finds after an unstrobed write: the ID written, and its configuration (R63). -/
theorem answer_afterWrite_unstrobed {u : Word} (hu : u &&& strobe = 0) :
    (t.afterWrite a u).answer a &&& idsel = u &&& idsel ∧
      (t.afterWrite a u).answer a &&& config = t.configOf a (u &&& idsel) &&& config := by
  have hr' := (afterWrite_regAt t a u a).trans hr
  have hh' := (afterWrite_shared_havoc hr u).trans hh
  rw [answer_and_idsel hr' hh' hd, answer_and_config hr' hh' hd, selectedId_afterWrite hr,
    configOf_afterWrite_unstrobed hr hu]
  exact ⟨rfl, rfl⟩

end

/-- Settles O36: an unstrobed write is read back; after a strobed write, selecting an ID reads what that write left of
its configuration. -/
theorem sharedRegisterSelects : Obligations.SharedRegisterSelects := by
  intro t a v idsel strobe config hh hr hd
  refine ⟨fun hv => answer_afterWrite_unstrobed hr hh hd hv, fun hv u hu => ?_⟩
  have hr' := (afterWrite_regAt t a v a).trans hr
  have hh' := (afterWrite_shared_havoc hr v).trans hh
  obtain ⟨-, hconfig⟩ := answer_afterWrite_unstrobed hr' hh' hd hu
  rw [hconfig, configOf_afterWrite_strobed hr hv]
  refine ⟨fun hsame => ?_, fun hother => ?_⟩
  · rw [if_pos hsame, BitVec.and_assoc, BitVec.and_self]
  · rw [if_neg hother, (answer_afterWrite_unstrobed hr hh hd hu).2]

end Sys2Proof.Proofs
end

