-- ==== Sys2Proof/Proofs/StoredFields.lean ====
section
/-! PROOFS. Fields whose bits are storage (R60): what a read finds in them, which bus accesses keep them, and what an
update puts into them (R90, R91, R112, R116). -/

namespace Sys2Proof.Proofs

open Machine Laws

/-! ## Fields of a word -/

theorem extract_congr {f : FieldDesc} {r r' : Word} (h : r &&& f.mask = r' &&& f.mask) :
    f.extract r = f.extract r' := by
  simp only [FieldDesc.extract, h]

theorem place_and_mask (f : FieldDesc) (v : Nat) : f.place v &&& f.mask = f.place v := by
  simp [FieldDesc.place, BitVec.and_assoc]

/-- A placed value that fits the field is what the field reads as (R91). -/
theorem extract_place {f : FieldDesc} (hok : f.ok = true) {v : Nat} (hv : v ≤ f.fmax) : f.extract (f.place v) = v := by
  obtain ⟨-, -, -, hmask⟩ := (fieldDesc_ok_iff f).1 hok
  rw [fmax_eq_of_ok hok] at hv
  have hpos := Nat.two_pow_pos f.width
  have hfits : v * 2 ^ f.shift < 2 ^ 32 :=
    (Nat.mul_le_mul_right _ hv).trans_lt (hmask ▸ f.mask.isLt)
  have hlt : v < 2 ^ 32 := (Nat.le_mul_of_pos_right v (Nat.two_pow_pos _)).trans_lt hfits
  rw [FieldDesc.extract, place_and_mask, FieldDesc.place, BitVec.toNat_ushiftRight, BitVec.toNat_and,
    BitVec.toNat_shiftLeft, BitVec.toNat_ofNat, Nat.mod_eq_of_lt hlt, Nat.shiftLeft_eq, Nat.mod_eq_of_lt hfits, hmask,
    ← Nat.shiftLeft_eq, ← Nat.shiftLeft_eq, ← Nat.shiftLeft_and_distrib, Nat.shiftLeft_shiftRight,
    Nat.and_two_pow_sub_one_eq_mod, Nat.mod_eq_of_lt (by omega)]

/-- The bits of a mask after an update that covers them (R112). -/
theorem merged_and_of_covered {old m x k : Word} (h : k &&& m = k) :
    ((old &&& ~~~m) ||| (x &&& m)) &&& k = x &&& k := by
  rw [← h]
  ext i hi
  cases hm : m[i] <;> simp [hm]

/-- The bits of a mask after an update that leaves them out (R112). -/
theorem merged_and_of_disjoint {old m x k : Word} (h : k &&& m = 0) :
    ((old &&& ~~~m) ||| (x &&& m)) &&& k = old &&& k := by
  ext i hi
  have hbit := getElem_of_and_eq_zero h hi
  cases hm : m[i] <;> simp_all

/-! ## Addresses -/

/-- `busAddr` of an aligned base and an aligned offset (R53). -/
theorem busAddr_aligned {base off : Word} (hb : base.toNat % 4 = 0) (ho : off.toNat % 4 = 0) :
    (busAddr base off).toNat % 4 = 0 := by
  rw [busAddr, BitVec.toNat_add]
  omega

theorem mem_distinctOffs (o : Word) (fs : List FieldDesc) : o ∈ distinctOffs fs ↔ ∃ f ∈ fs, f.off = o := by
  have key (seen : List Word) : o ∈ fs.foldl (fun seen f => if f.off ∈ seen then seen else seen ++ [f.off]) seen ↔
      o ∈ seen ∨ ∃ f ∈ fs, f.off = o := by
    induction fs generalizing seen with
    | nil => simp
    | cons g fs ih =>
      rw [List.foldl_cons, ih, List.exists_mem_cons_iff, ← or_assoc]
      by_cases hg : g.off ∈ seen
      · have hself : o ∈ seen ∨ g.off = o ↔ o ∈ seen := or_iff_left_of_imp fun he => he ▸ hg
        rw [if_pos hg, hself]
      · rw [if_neg hg, List.mem_append, List.mem_singleton, eq_comm (a := o)]
  simpa [distinctOffs] using key []

/-! ## Stored fields -/

/-- The field lies in the storage of a plain register and holds `v` (R60), and answers are not open (U1). -/
def FieldStored (t : Target) (base : Word) (f : FieldDesc) (v : Nat) : Prop :=
  t.havoc = false ∧
    (∃ storage, t.regAt (busAddr base f.off) = some (.plain storage) ∧ f.mask &&& storage = f.mask) ∧
    f.extract (t.mem.readWord (busAddr base f.off)) = v

section
variable {t : Target} {base : Word} {f : FieldDesc} {v : Nat}

/-- What a read of its register finds in a stored field. -/
theorem fieldStored_answer (h : FieldStored t base f v) : f.extract (t.answer (busAddr base f.off)) = v := by
  obtain ⟨hh, ⟨storage, hr, hs⟩, hv⟩ := h
  rw [← hv]
  refine extract_congr ?_
  rw [← hs, BitVec.and_comm f.mask, ← BitVec.and_assoc, ← BitVec.and_assoc, answer_and_storage hh hr]

/-- A register that is storage and holds what it holds. -/
theorem fieldStored_of_regAt {storage : Word} (hh : t.havoc = false)
    (hr : t.regAt (busAddr base f.off) = some (.plain storage)) (hs : f.mask &&& storage = f.mask) :
    FieldStored t base f (f.extract (t.mem.readWord (busAddr base f.off))) :=
  ⟨hh, ⟨storage, hr, hs⟩, rfl⟩

/-! ## What keeps a stored field -/

theorem fieldStored_afterRead (h : FieldStored t base f v) : FieldStored t.afterRead base f v := h

theorem fieldStored_afterWrite_shared {a idsel strobe config : Word} (w : Word)
    (hr : t.regAt a = some (.shared idsel strobe config)) (h : FieldStored t base f v) :
    FieldStored (t.afterWrite a w) base f v := by
  obtain ⟨hh, ⟨storage, hreg, hs⟩, hv⟩ := h
  exact ⟨(afterWrite_shared_havoc hr w).trans hh, ⟨storage, (afterWrite_regAt t a w _).trans hreg, hs⟩,
    by rw [afterWrite_shared_mem hr, hv]⟩

/-- Reads, settle delays and writes of shared command registers. -/
theorem fieldStored_replay {evs : List BusEvent}
    (hw : ∀ a w, .write a w ∈ evs → ∃ idsel st config, t.regAt a = some (.shared idsel st config))
    (h : FieldStored t base f v) : FieldStored (t.replay evs) base f v := by
  induction evs generalizing t with
  | nil => exact h
  | cons e rest ih =>
    cases e with
    | read a w => exact ih (fun b x hb => hw b x (by simp [hb])) (fieldStored_afterRead h)
    | write a w =>
      obtain ⟨idsel, st, config, hr⟩ := hw a w (by simp)
      refine ih (fun b x hb => ?_) (fieldStored_afterWrite_shared w hr h)
      rw [replayOne_write, afterWrite_regAt]
      exact hw b x (by simp [hb])
    | settle => exact ih (fun b x hb => hw b x (by simp [hb])) h

end

/-! ## Updates of a register -/

theorem regUpdate_target (s : State) (base off m x : Word) :
    (s.regUpdate base off m x).target =
      s.target.afterRead.afterWrite (busAddr base off) (s.updateValue base off m x) :=
  rfl

section
variable {s : State} {base : Word} {f : FieldDesc} {v : Nat} (h : FieldStored s.target base f v)
include h

/-- An update of other bits of a plain register. -/
theorem fieldStored_regUpdate {off m x storage : Word} (ha : (busAddr base off).toNat % 4 = 0)
    (hf : (busAddr base f.off).toNat % 4 = 0) (hr : s.target.regAt (busAddr base off) = some (.plain storage))
    (hd : f.off = off → f.mask &&& m = 0) : FieldStored (s.regUpdate base off m x).target base f v := by
  have hr' : s.target.afterRead.regAt (busAddr base off) = some (.plain storage) := hr
  have ⟨hh, ⟨storage', hreg, hs⟩, hv⟩ := h
  rw [regUpdate_target]
  refine ⟨(afterWrite_plain_havoc hr').trans hh, ⟨storage', (afterWrite_regAt _ _ _ _).trans hreg, hs⟩, ?_⟩
  rw [afterWrite_plain_mem hr']
  by_cases hoff : f.off = off
  · subst hoff
    rw [readWord_writeWord, ← fieldStored_answer h]
    exact extract_congr (merged_and_of_disjoint (hd rfl))
  · have hne : busAddr base off ≠ busAddr base f.off := fun he => hoff (busAddr_inj.1 he).symm
    rw [readWord_writeWord_ne _ _ _ _ (aligned_apart ha hf hne)]
    exact hv

/-- An update that covers the field puts the value of its bits into it. -/
theorem fieldStored_regUpdate_sets {m x : Word} {w : Nat} (hok : f.ok = true) (hw : w ≤ f.fmax)
    (hm : f.mask &&& m = f.mask) (hx : x &&& f.mask = f.place w) :
    FieldStored (s.regUpdate base f.off m x).target base f w := by
  obtain ⟨hh, ⟨storage, hr, hs⟩, -⟩ := h
  have hr' : s.target.afterRead.regAt (busAddr base f.off) = some (.plain storage) := hr
  rw [regUpdate_target]
  refine ⟨(afterWrite_plain_havoc hr').trans hh, ⟨storage, (afterWrite_regAt _ _ _ _).trans hr, hs⟩, ?_⟩
  rw [afterWrite_plain_mem hr', readWord_writeWord]
  refine (extract_congr ?_).trans (extract_place hok hw)
  rw [State.updateValue, merged_and_of_covered hm, hx, place_and_mask]

/-- A strobe on bits of its own (R119). -/
theorem fieldStored_strobe {g : FieldDesc} {storage : Word} (hg : (busAddr base g.off).toNat % 4 = 0)
    (hf : (busAddr base f.off).toNat % 4 = 0) (hr : s.target.regAt (busAddr base g.off) = some (.plain storage))
    (hd : f.off = g.off → f.mask &&& g.mask = 0) : FieldStored (s.strobe base g).target base f v :=
  fieldStored_regUpdate h hg hf hr hd

theorem fieldStored_fieldSet {w : Nat} (hok : f.ok = true) (hw : w ≤ f.fmax) :
    FieldStored (s.fieldSet base f w).target base f w :=
  fieldStored_regUpdate_sets h hok hw (BitVec.and_self) (place_and_mask f w)

end

/-! ## Reads of a stored field -/

theorem readEvents_reads (s : State) (base : Word) (os : List Word) :
    ∀ e ∈ readEvents s [] base os, isWrite e = false := by
  induction os generalizing s with
  | nil => simp [readEvents]
  | cons o os ih =>
    rw [readEvents_nil_cons]
    simpa [isWrite] using ih _

section
variable {s : State} {base : Word} {f : FieldDesc} {v : Nat} (h : FieldStored s.target base f v)
include h

theorem fieldStored_fieldsGet (fs : List FieldDesc) : FieldStored (s.fieldsGet base fs).target base f v := by
  rw [fieldsGet_eq]
  refine fieldStored_replay (fun a w hmem => ?_) h
  exact absurd (readEvents_reads s base _ _ hmem) (by simp [isWrite])

/-- `FieldsGet` finds the value of a stored field. -/
theorem fieldStored_getFrom {fs : List FieldDesc} (hf : f ∈ fs) : f.getFrom (s.fieldsValue base fs) = v := by
  have key (os : List Word) (hos : f.off ∈ os) : f.getFrom (s.snapshotAt base os) = v := by
    induction os generalizing s with
    | nil => cases hos
    | cons o os ih =>
      rw [FieldDesc.getFrom, State.snapshotAt, List.lookup_cons]
      by_cases ho : f.off = o
      · subst ho
        simpa [State.regValue, State.memValue] using fieldStored_answer h
      · simp only [beq_eq_false_iff_ne.2 ho]
        exact ih (s := s.regRead base o) (fieldStored_afterRead h) (by simpa [ho] using hos)
  exact key _ ((mem_distinctOffs _ _).2 ⟨f, hf, rfl⟩)

end

/-! ## Two fields together -/

/-- `FieldsSet` of two fields (R116): one update where they share a register, else one each. -/
theorem fieldsSet_pair (s : State) (base : Word) (f g : FieldDesc) (v w : Nat) :
    s.fieldsSet base [(f, v), (g, w)] =
      if f.off = g.off then s.regUpdate base f.off (f.mask ||| g.mask) (f.place v ||| g.place w)
      else (s.fieldSet base f v).fieldSet base g w := by
  by_cases h : f.off = g.off
  · simp [State.fieldsSet, distinctOffs, maskAt, bitsAt, h]
  · simp [State.fieldsSet, State.fieldSet, distinctOffs, maskAt, bitsAt, h, Ne.symm h]

theorem place_and_disjoint {f g : FieldDesc} (h : f.mask &&& g.mask = 0) (v : Nat) : f.place v &&& g.mask = 0 := by
  rw [← place_and_mask, BitVec.and_assoc, h]
  exact BitVec.and_zero

/-- Two disjoint fields set together hold the values they are set to. -/
theorem fieldStored_fieldsSet_pair {s : State} {base : Word} {f g : FieldDesc} {v v' w w' : Nat}
    (hf : FieldStored s.target base f v') (hg : FieldStored s.target base g w') (hfok : f.ok = true)
    (hgok : g.ok = true) (hv : v ≤ f.fmax) (hw : w ≤ g.fmax) (hfa : (busAddr base f.off).toNat % 4 = 0)
    (hga : (busAddr base g.off).toNat % 4 = 0) (hd : f.off = g.off → f.mask &&& g.mask = 0) :
    FieldStored (s.fieldsSet base [(f, v), (g, w)]).target base f v ∧
      FieldStored (s.fieldsSet base [(f, v), (g, w)]).target base g w := by
  rw [fieldsSet_pair]
  split
  next hoff =>
    have hfg := hd hoff
    have hgf : g.mask &&& f.mask = 0 := BitVec.and_comm _ _ ▸ hfg
    refine ⟨fieldStored_regUpdate_sets hf hfok hv ?_ ?_, hoff ▸ fieldStored_regUpdate_sets hg hgok hw ?_ ?_⟩
    · simp [BitVec.and_or_distrib_left, hfg]
    · simp [BitVec.and_or_distrib_right, place_and_mask, place_and_disjoint hgf]
    · simp [BitVec.and_or_distrib_left, hgf]
    · simp [BitVec.and_or_distrib_right, place_and_mask, place_and_disjoint hfg]
  next hoff =>
    have ⟨_, ⟨_, hfr, _⟩, _⟩ := hf
    have hg' : FieldStored (s.fieldSet base f v).target base g w' :=
      fieldStored_regUpdate hg hfa hga hfr fun he => absurd he.symm hoff
    have ⟨_, ⟨_, hgr, _⟩, _⟩ := hg'
    exact ⟨fieldStored_regUpdate (fieldStored_fieldSet hf hfok hv) hga hfa hgr fun he => absurd he hoff,
      fieldStored_fieldSet hg' hgok hw⟩

end Sys2Proof.Proofs
end

