-- ==== Sys2Proof/Proofs/PllSetRateTwice.lean ====
section
/-! PROOFS. `SET_RATE` of the two PLL kinds: what an accepted target leaves in the PLL's fields, and that a second command
with the same target finds it there (R60, R142, R143, R162, R168). -/

namespace Sys2Proof.Proofs

open Machine Laws

/-! ## Bus writes, counted -/

/-- The second trace is the first with some more events, at most `k` bus writes among them. -/
def WritesAtMost (k : Nat) (s t : State) : Prop :=
  ∃ evs, t.trace = s.trace ++ evs ∧ (evs.filter isWrite).length ≤ k

theorem writesAtMost_drop {k : Nat} {s t : State} (h : WritesAtMost k s t) :
    ((t.trace.drop s.trace.length).filter isWrite).length ≤ k := by
  obtain ⟨evs, htrace, hk⟩ := h
  rwa [htrace, List.drop_left]

theorem writesAtMost_trans {j k : Nat} {s t u : State} (hst : WritesAtMost j s t) (htu : WritesAtMost k t u) :
    WritesAtMost (j + k) s u := by
  obtain ⟨evs, ht, hj⟩ := hst
  obtain ⟨evs', hu, hk⟩ := htu
  refine ⟨evs ++ evs', by rw [hu, ht, List.append_assoc], ?_⟩
  rw [List.filter_append, List.length_append]
  exact Nat.add_le_add hj hk

theorem writesAtMost_mono {j k : Nat} {s t : State} (h : WritesAtMost j s t) (hjk : j ≤ k) : WritesAtMost k s t := by
  obtain ⟨evs, ht, hj⟩ := h
  exact ⟨evs, ht, hj.trans hjk⟩

theorem result_writes (s : State) (r0 r1 : Operand) : WritesAtMost 0 s (s.result r0 r1) :=
  ⟨[], (List.append_nil _).symm, le_rfl⟩

theorem fieldsGet_writes (s : State) (base : Word) (fs : List FieldDesc) : WritesAtMost 0 s (s.fieldsGet base fs) := by
  refine ⟨_, by rw [fieldsGet_eq, afterEvents_trace], le_of_eq ?_⟩
  rw [List.length_eq_zero_iff, List.filter_eq_nil_iff]
  exact fun e he => by simp [readEvents_reads s base _ e he]

theorem regUpdate_writes (s : State) (base off m x : Word) : WritesAtMost 1 s (s.regUpdate base off m x) :=
  ⟨_, by rw [regUpdate_eq, afterEvents_trace], le_rfl⟩

theorem fieldSet_writes (s : State) (base : Word) (f : FieldDesc) (v : Nat) : WritesAtMost 1 s (s.fieldSet base f v) :=
  regUpdate_writes s base _ _ _

theorem strobe_writes (s : State) (base : Word) (f : FieldDesc) : WritesAtMost 1 s (s.strobe base f) :=
  regUpdate_writes s base _ _ _

theorem fieldsSet_pair_writes (s : State) (base : Word) (f g : FieldDesc) (v w : Nat) :
    WritesAtMost 2 s (s.fieldsSet base [(f, v), (g, w)]) := by
  rw [fieldsSet_pair]
  split
  · exact writesAtMost_mono (regUpdate_writes s base _ _ _) (by omega)
  · exact writesAtMost_trans (fieldSet_writes s base f v) (fieldSet_writes _ base g w)

theorem poll_writes (s : State) (p : Poll) : WritesAtMost 0 s (s.poll p) := by
  refine ⟨[.read p.addr (s.target.answer p.addr)], ?_, le_rfl⟩
  rcases poll_cases s p with ⟨-, h⟩ | ⟨-, h⟩ <;> rw [h] <;> rfl

/-! ## Ends of commands and stored fields -/

/-- A command that succeeds or polls has not raised an error (R94, R252). -/
theorem not_raised {s t : State} {e : CmdError} (ht : t.busy = true ∨ t.status = 0) :
    (.next (s.raise e) : Outcome) ≠ .next t := by
  rintro ⟨⟩
  cases e <;> simp [State.busy, Engine.busy, CmdError.code] at ht

theorem poll_target (s : State) (p : Poll) : (s.poll p).target = s.target.afterRead := by
  rcases poll_cases s p with ⟨-, h⟩ | ⟨-, h⟩ <;> rw [h] <;> rfl

theorem fieldStored_poll {s : State} {base : Word} {f : FieldDesc} {v : Nat} (h : FieldStored s.target base f v)
    (p : Poll) : FieldStored (s.poll p).target base f v := by
  rw [poll_target]
  exact fieldStored_afterRead h

theorem regAt_of_map {t t' : Target} (h : t'.map = t.map) (a : Word) : t'.regAt a = t.regAt a := by
  simp only [Target.regAt, Target.specAt, h]

theorem byCommand_regAt {s t : State} (h : ByCommand s t) (a : Word) : t.target.regAt a = s.target.regAt a :=
  regAt_of_map (byCommand_map h) a

/-- A field stored when a command ends stays so under reads and writes of shared command registers. -/
theorem fieldStored_later {s t : State} {base : Word} {f : FieldDesc} {v : Nat} {between : List BusEvent}
    (hst : ByCommand s t) (h : FieldStored t.target base f v)
    (hw : ∀ a w, .write a w ∈ between → ∃ idsel st config, s.target.regAt a = some (.shared idsel st config)) :
    FieldStored (t.target.replay between) base f v := by
  refine fieldStored_replay (fun a w hmem => ?_) h
  rw [byCommand_regAt hst]
  exact hw a w hmem

theorem withRate_of_rate {s s₁ : State} {id : ClockId} {r : Nat} (h : s.rate id = (s₁, .ok r))
    (k : Nat → State → Outcome) : s.withRate id k = k r s₁ := by
  simp [State.withRate, h]

theorem rate_params {s s₁ : State} {id : ClockId} {r : Nat} (h : s.rate id = (s₁, .ok r)) : s₁.params = s.params := by
  simpa [h] using traced_params (rate_traced s id)

/-- The fields of a registered node are well-formed and their registers are aligned (R53, R90, R232 (c)). -/
theorem registered_fields {s : State} {node : ClockId} {flags : NodeFlags} {d : NodeData} {base : Word}
    (hreg : Registered s node flags d) (hok : s.nt.ok = true) (hb : d.base? = some base) :
    ∀ f ∈ d.fields, f.ok = true ∧ (busAddr base f.off).toNat % 4 = 0 := by
  obtain ⟨older, he, -⟩ := registered_ok hreg hok
  obtain ⟨hfields, -, hbase, -⟩ := (dataOk_iff _ _).1 (entryOk_data he)
  intro f hf
  obtain ⟨hoff, -⟩ := (fieldDesc_ok_iff f).1 (hfields f hf)
  exact ⟨hfields f hf, busAddr_aligned (hbase base hb) hoff⟩

/-! ## The fractional PLL -/

/-- The fields of a fractional PLL in storage, and its strobe in a plain register, on bits of its own. -/
structure FpllStorage (t : Target) (n : FpllNode) : Prop where
  fields : ∀ f ∈ (NodeData.fpll n).fields, f.ok = true ∧ (busAddr n.base f.off).toNat % 4 = 0
  mul : ∃ v, FieldStored t n.base n.mul v
  frac : ∃ v, FieldStored t n.base n.frac v
  strobe : ∃ storage, t.regAt (busAddr n.base n.strobe.off) = some (.plain storage)
  mul_frac : n.mul.off = n.frac.off → n.mul.mask &&& n.frac.mask = 0
  mul_strobe : n.mul.off = n.strobe.off → n.mul.mask &&& n.strobe.mask = 0
  frac_strobe : n.frac.off = n.strobe.off → n.frac.mask &&& n.strobe.mask = 0

section
variable (node : ClockId) {n : FpllNode} {c : FpllSetting} {s : State}

theorem fits_fields (h : c.fits n = true) : c.mul ≤ n.mul.fmax ∧ c.frac ≤ n.frac.fmax := by
  simp only [FpllSetting.fits, Bool.and_eq_true, decide_eq_true_eq] at h
  obtain ⟨⟨hfrac, hmul⟩, -⟩ := h
  exact ⟨hmul, hfrac⟩

/-- The fields hold the setting after steps (7) to (11) of `FPLL.SET_RATE` (R142), whichever way these end. -/
theorem fpllProgram_stored (hl : FpllStorage s.target n) (hfits : c.fits n = true) :
    FieldStored (fpllProgram node n c s).target n.base n.mul c.mul ∧
      FieldStored (fpllProgram node n c s).target n.base n.frac c.frac := by
  obtain ⟨hmulFits, hfracFits⟩ := fits_fields hfits
  obtain ⟨v, hmul⟩ := hl.mul
  obtain ⟨w, hfrac⟩ := hl.frac
  obtain ⟨storage, hstrobe⟩ := hl.strobe
  obtain ⟨hmulOk, hmulAt⟩ := hl.fields n.mul (by simp [NodeData.fields])
  obtain ⟨hfracOk, hfracAt⟩ := hl.fields n.frac (by simp [NodeData.fields])
  obtain ⟨-, hstrobeAt⟩ := hl.fields n.strobe (by simp [NodeData.fields])
  have hmul₁ := fieldStored_fieldsGet hmul [n.mul, n.frac, n.en]
  have hfrac₁ := fieldStored_fieldsGet hfrac [n.mul, n.frac, n.en]
  obtain ⟨hmul₂, hfrac₂⟩ := fieldStored_fieldsSet_pair hmul₁ hfrac₁ hmulOk hfracOk hmulFits hfracFits hmulAt hfracAt
    hl.mul_frac
  have haccesses := traced_trans (fieldsGet_traced s n.base [n.mul, n.frac, n.en])
    (fieldsSet_traced _ n.base [(n.mul, c.mul), (n.frac, c.frac)])
  have hstrobe₂ := (byCommand_regAt (byCommand_of_traced haccesses) _).trans hstrobe
  have hmul₃ := fieldStored_strobe hmul₂ hstrobeAt hmulAt hstrobe₂ hl.mul_strobe
  have hfrac₃ := fieldStored_strobe hfrac₂ hstrobeAt hfracAt hstrobe₂ hl.frac_strobe
  unfold fpllProgram
  dsimp only
  split
  next hsame =>
    rw [fieldStored_getFrom hmul (by simp), fieldStored_getFrom hfrac (by simp)] at hsame
    exact ⟨hsame.1 ▸ hmul₁, hsame.2 ▸ hfrac₁⟩
  split
  · exact ⟨fieldStored_poll hmul₃ _, fieldStored_poll hfrac₃ _⟩
  · exact ⟨hmul₃, hfrac₃⟩

/-- Two fields and a strobe at most (R143). -/
theorem fpllProgram_writes : WritesAtMost 3 s (fpllProgram node n c s) := by
  have hread := fieldsGet_writes s n.base [n.mul, n.frac, n.en]
  have hset := writesAtMost_trans hread (writesAtMost_trans
    (fieldsSet_pair_writes _ n.base n.mul n.frac c.mul c.frac) (strobe_writes _ n.base n.strobe))
  unfold fpllProgram
  dsimp only
  split
  · exact writesAtMost_mono (writesAtMost_trans hread (result_writes _ _ _)) (by omega)
  split
  · exact writesAtMost_trans hset (poll_writes _ _)
  · exact writesAtMost_trans hset (result_writes _ _ _)

/-- When the fields hold the setting already, the command reads and returns (R143). -/
theorem fpllProgram_of_stored (hmul : FieldStored s.target n.base n.mul c.mul)
    (hfrac : FieldStored s.target n.base n.frac c.frac) :
    ∃ evs, (∀ e ∈ evs, isWrite e = false) ∧
      fpllProgram node n c s = succeeded (afterEvents s evs) (BitVec.ofNat 64 c.achieved) 0 := by
  refine ⟨_, readEvents_reads s n.base (distinctOffs [n.mul, n.frac, n.en]), ?_⟩
  rw [← fieldsGet_eq]
  exact if_pos ⟨fieldStored_getFrom hmul (by simp), fieldStored_getFrom hfrac (by simp)⟩

end

/-- What `FPLL.SET_RATE` asks of a target at a parent rate (R142 (1) to (6)). -/
def FpllAccepts (n : FpllNode) (r target : Nat) : Prop :=
  target ≠ 0 ∧ inRange n.range target = true ∧ r ≠ 0 ∧ (fpllCompute r target).fits n = true

section
variable {s s₁ : State} {node : ClockId} {flags : NodeFlags} {n : FpllNode} {r : Nat}
  (hreg : Registered s node flags (.fpll n)) (hrate : s.rate n.parent = (s₁, .ok r))
include hreg hrate

theorem fpllSetRate_of_accepts (h : FpllAccepts n r s.a0.toNat) :
    exec (.fpllSetRate node) s = .next (fpllProgram node n (fpllCompute r s.a0.toNat) s₁) := by
  obtain ⟨hzero, hrange, hr, hfits⟩ := h
  simp only [exec, execFpllSetRate, prologue_of_registered hreg, NodeData.fpll?, Option.map_some,
    withRate_of_rate hrate, hzero, hrange, hr, hfits, Bool.not_true, Bool.false_eq_true, if_true, if_false]

theorem fpllSetRate_accepts {t : State} (h : exec (.fpllSetRate node) s = .next t)
    (ht : t.busy = true ∨ t.status = 0) : FpllAccepts n r s.a0.toNat := by
  simp only [exec, execFpllSetRate, prologue_of_registered hreg, NodeData.fpll?, Option.map_some,
    withRate_of_rate hrate] at h
  split at h
  · exact absurd h (not_raised ht)
  split at h
  · exact absurd h (not_raised ht)
  split at h
  · exact absurd h (not_raised ht)
  split at h
  next hzero hrange hr hfits => exact ⟨hzero, by simpa using hrange, hr, hfits⟩
  · exact absurd h (not_raised ht)

end

/-! ## The divider PLL -/

/-- The divider field of a PLL in storage, and its strobe in a plain register, on bits of its own. -/
structure DpllStorage (t : Target) (n : DpllNode) : Prop where
  fields : ∀ f ∈ (NodeData.dpll n).fields, f.ok = true ∧ (busAddr n.base f.off).toNat % 4 = 0
  div : ∃ v, FieldStored t n.base n.div v
  strobe : ∃ storage, t.regAt (busAddr n.base n.strobe.off) = some (.plain storage)
  div_strobe : n.div.off = n.strobe.off → n.div.mask &&& n.strobe.mask = 0

section
variable (node : ClockId) {n : DpllNode} {div achieved : Nat} {s : State}

/-- The field holds the divisor after steps (6) to (10) of `DPLL.SET_RATE` (R162), whichever way these end. -/
theorem dpllProgram_stored (hl : DpllStorage s.target n) (hfits : div ≤ n.div.fmax) :
    FieldStored (dpllProgram node n div achieved s).target n.base n.div div := by
  obtain ⟨v, hdiv⟩ := hl.div
  obtain ⟨storage, hstrobe⟩ := hl.strobe
  obtain ⟨hdivOk, hdivAt⟩ := hl.fields n.div (by simp [NodeData.fields])
  obtain ⟨-, hstrobeAt⟩ := hl.fields n.strobe (by simp [NodeData.fields])
  have hdiv₁ := fieldStored_fieldsGet hdiv [n.div, n.en]
  have hdiv₂ := fieldStored_fieldSet hdiv₁ hdivOk hfits
  have haccesses := traced_trans (fieldsGet_traced s n.base [n.div, n.en]) (fieldSet_traced _ n.base n.div div)
  have hstrobe₂ := (byCommand_regAt (byCommand_of_traced haccesses) _).trans hstrobe
  have hdiv₃ := fieldStored_strobe hdiv₂ hstrobeAt hdivAt hstrobe₂ hl.div_strobe
  unfold dpllProgram
  dsimp only
  split
  next hsame =>
    rw [fieldStored_getFrom hdiv (by simp)] at hsame
    exact hsame ▸ hdiv₁
  split
  · exact fieldStored_poll hdiv₃ _
  · exact hdiv₃

/-- One field and a strobe at most (R168). -/
theorem dpllProgram_writes : WritesAtMost 2 s (dpllProgram node n div achieved s) := by
  have hread := fieldsGet_writes s n.base [n.div, n.en]
  have hset := writesAtMost_trans hread (writesAtMost_trans
    (fieldSet_writes _ n.base n.div div) (strobe_writes _ n.base n.strobe))
  unfold dpllProgram
  dsimp only
  split
  · exact writesAtMost_mono (writesAtMost_trans hread (result_writes _ _ _)) (by omega)
  split
  · exact writesAtMost_trans hset (poll_writes _ _)
  · exact writesAtMost_trans hset (result_writes _ _ _)

/-- When the field holds the divisor already, the command reads and returns (R168). -/
theorem dpllProgram_of_stored (hdiv : FieldStored s.target n.base n.div div) :
    ∃ evs, (∀ e ∈ evs, isWrite e = false) ∧
      dpllProgram node n div achieved s = succeeded (afterEvents s evs) (BitVec.ofNat 64 achieved) 0 := by
  refine ⟨_, readEvents_reads s n.base (distinctOffs [n.div, n.en]), ?_⟩
  rw [← fieldsGet_eq]
  exact if_pos (fieldStored_getFrom hdiv (by simp))

end

/-- What `DPLL.SET_RATE` asks of a target at a parent rate (R162 (1) to (5)). -/
def DpllAccepts (mode : RoundMode) (n : DpllNode) (r target : Nat) : Prop :=
  target ≠ 0 ∧ roundDiv r target ≠ 0 ∧ roundDiv r target - 1 ≤ n.div.fmax ∧
    inRange n.range (rdiv mode r (roundDiv r target)) = true

section
variable {s s₁ : State} {node : ClockId} {flags : NodeFlags} {n : DpllNode} {r : Nat}
  (hreg : Registered s node flags (.dpll n)) (hrate : s.rate n.parent = (s₁, .ok r))
include hreg hrate

theorem dpllSetRate_of_accepts (h : DpllAccepts s.params.rdiv n r s.a0.toNat) :
    exec (.dpllSetRate node) s = .next (dpllProgram node n (roundDiv r s.a0.toNat - 1)
      (rdiv s.params.rdiv r (roundDiv r s.a0.toNat)) s₁) := by
  obtain ⟨hzero, hq, hfits, hrange⟩ := h
  have hbad : ¬(roundDiv r s.a0.toNat = 0 ∨ roundDiv r s.a0.toNat - 1 > n.div.fmax) := by omega
  simp only [exec, execDpllSetRate, prologue_of_registered hreg, NodeData.dpll?, Option.map_some,
    withRate_of_rate hrate, rate_params hrate, hzero, hbad, hrange, Bool.not_true, Bool.false_eq_true, if_false]

theorem dpllSetRate_accepts {t : State} (h : exec (.dpllSetRate node) s = .next t)
    (ht : t.busy = true ∨ t.status = 0) : DpllAccepts s.params.rdiv n r s.a0.toNat := by
  simp only [exec, execDpllSetRate, prologue_of_registered hreg, NodeData.dpll?, Option.map_some,
    withRate_of_rate hrate, rate_params hrate] at h
  split at h
  · exact absurd h (not_raised ht)
  split at h
  · exact absurd h (not_raised ht)
  split at h
  · exact absurd h (not_raised ht)
  next hzero hq hrange => exact ⟨hzero, by omega, by omega, by simpa using hrange⟩

end

/-! ## Twice -/

/-- Settles O54: the first command leaves the setting in the fields, nothing that comes between changes it, and the second
finds it there. -/
theorem pllSetRateTwiceWritesOnce : Obligations.PllSetRateTwiceWritesOnce := by
  intro s s₁ t u u₁ node flags r between sStrobe hok hh ha0 hparams hbetween hw ht
  refine ⟨fun n sMul sFrac hreg hrate hmul hmulS hfrac hfracS hstrobe hmf hms hfs hfirst ⟨pll, hreg'⟩ hrate' => ?_,
    fun n sDiv hreg hrate hdiv hdivS hstrobe hds hfirst ⟨pll, hreg'⟩ hrate' => ?_⟩
  · have hacc := fpllSetRate_accepts hreg hrate hfirst ht
    obtain rfl : fpllProgram node n (fpllCompute r s.a0.toNat) s₁ = t := by
      simpa [fpllSetRate_of_accepts hreg hrate hacc] using hfirst
    have hstorage : FpllStorage s₁.target n :=
      ⟨registered_fields hreg hok rfl, ⟨_, fieldStored_of_regAt hh hmul hmulS⟩,
        ⟨_, fieldStored_of_regAt hh hfrac hfracS⟩, ⟨_, hstrobe⟩, hmf, hms, hfs⟩
    have ⟨_, _, _, hfits⟩ := hacc
    obtain ⟨hmul', hfrac'⟩ := fpllProgram_stored node hstorage hfits
    have hcommand := fpllProgram_byCommand node n (fpllCompute r s.a0.toNat) s₁
    have hmul₂ := hbetween ▸ fieldStored_later hcommand hmul' hw
    have hfrac₂ := hbetween ▸ fieldStored_later hcommand hfrac' hw
    obtain ⟨evs, hreads, hsecond⟩ := fpllProgram_of_stored node (n := { n with pll := pll }) hmul₂ hfrac₂
    refine ⟨writesAtMost_drop (fpllProgram_writes node), evs, hreads, ?_⟩
    rw [fpllSetRate_of_accepts hreg' hrate' (ha0 ▸ hacc), ha0, hsecond]
  · have hacc := dpllSetRate_accepts hreg hrate hfirst ht
    obtain rfl : dpllProgram node n (roundDiv r s.a0.toNat - 1)
        (rdiv s.params.rdiv r (roundDiv r s.a0.toNat)) s₁ = t := by
      simpa [dpllSetRate_of_accepts hreg hrate hacc] using hfirst
    have hstorage : DpllStorage s₁.target n :=
      ⟨registered_fields hreg hok rfl, ⟨_, fieldStored_of_regAt hh hdiv hdivS⟩, ⟨_, hstrobe⟩, hds⟩
    have ⟨_, _, hfits, _⟩ := hacc
    have hcommand := dpllProgram_byCommand node n (roundDiv r s.a0.toNat - 1)
      (rdiv s.params.rdiv r (roundDiv r s.a0.toNat)) s₁
    have hdiv₂ := hbetween ▸ fieldStored_later hcommand (dpllProgram_stored node hstorage hfits) hw
    obtain ⟨evs, hreads, hsecond⟩ := dpllProgram_of_stored node (n := { n with pll := pll }) hdiv₂
    refine ⟨writesAtMost_drop (dpllProgram_writes node), evs, hreads, ?_⟩
    rw [dpllSetRate_of_accepts hreg' hrate' (ha0 ▸ hparams ▸ hacc), ha0, hparams, hsecond]

end Sys2Proof.Proofs
end

