-- ==== Sys2Proof/Proofs/CommandWords.lean ====
section
/-! PROOFS. The decoder and the encoder of command words: each undoes the other, and which words are illegal (R81, R84,
R95, R97). -/

namespace Sys2Proof.Proofs

open Machine Laws

/-! ## Opcodes -/

theorem commandOf_opcodeOf (i : Instr) : commandOf (opcodeOf i).toNat i.node = some i := by cases i <;> rfl

/-- The command an opcode selects has that opcode and the given node (R83, R84). -/
theorem commandOf_eq_some_iff {op : Nat} {node : ClockId} {i : Instr} :
    commandOf op node = some i ↔ (opcodeOf i).toNat = op ∧ i.node = node := by
  constructor
  · intro h
    unfold commandOf at h
    split at h <;> cases h <;> exact ⟨rfl, rfl⟩
  · rintro ⟨rfl, rfl⟩
    exact commandOf_opcodeOf i

theorem opcodeOf_mem_opcodes (i : Instr) : (opcodeOf i).toNat ∈ opcodes := by
  cases i <;> simp [opcodeOf, opcodes]

theorem commandOf_isSome_of_mem {op : Nat} (h : op ∈ opcodes) (node : ClockId) : (commandOf op node).isSome = true := by
  have hall : opcodes.all (fun op => (commandOf op node).isSome) = true := rfl
  exact List.all_eq_true.1 hall op h

/-- The opcodes of R84 are those that select a command. -/
theorem commandOf_eq_none_iff (op : Nat) (node : ClockId) : commandOf op node = none ↔ op ∉ opcodes := by
  constructor
  · intro hnone hmem
    simpa [hnone] using commandOf_isSome_of_mem hmem node
  · intro hmem
    by_contra hsome
    obtain ⟨i, hi⟩ := Option.ne_none_iff_exists'.1 hsome
    obtain ⟨rfl, -⟩ := commandOf_eq_some_iff.1 hi
    exact hmem (opcodeOf_mem_opcodes i)

/-- The opcodes of the four commands whose node R84 gives as "zero". -/
def zeroNodeOpcodes : List Nat := [0x01, 0x02, 0x03, 0x20]

theorem namesNode_eq_false_iff (i : Instr) : i.namesNode = false ↔ (opcodeOf i).toNat ∈ zeroNodeOpcodes := by
  cases i <;> simp [Instr.namesNode, opcodeOf, zeroNodeOpcodes]

theorem wellFormed_eq_false_iff (i : Instr) :
    i.wellFormed = false ↔ (opcodeOf i).toNat ∈ zeroNodeOpcodes ∧ i.node ≠ 0 := by
  rw [Instr.wellFormed, Bool.or_eq_false_iff, namesNode_eq_false_iff, beq_eq_false_iff_ne]

/-! ## Decoding -/

theorem decode_of_zeroField_ne {w : Word} (h : zeroField w ≠ 0) : decode w = .error .zeroFieldSet := if_pos h

theorem decode_of_commandOf_none {w : Word} (hz : zeroField w = 0)
    (hc : commandOf (opField w).toNat (nodeField w) = none) : decode w = .error .unassignedOpcode := by
  simp [decode, hz, hc]

theorem decode_of_commandOf_some {w : Word} {i : Instr} (hz : zeroField w = 0)
    (hc : commandOf (opField w).toNat (nodeField w) = some i) :
    decode w = if i.wellFormed then .ok i else .error .nodeNotZero := by
  simp [decode, hz, hc]

/-- What a legal word says: its fields select a well-formed command (R81, R95). -/
theorem decode_eq_ok_iff_fields {w : Word} {i : Instr} :
    decode w = .ok i ↔
      zeroField w = 0 ∧ commandOf (opField w).toNat (nodeField w) = some i ∧ i.WellFormed := by
  constructor
  · intro h
    by_cases hz : zeroField w = 0
    · cases hc : commandOf (opField w).toNat (nodeField w) with
      | none => simp [decode_of_commandOf_none hz hc] at h
      | some j =>
        rw [decode_of_commandOf_some hz hc] at h
        split at h <;> cases h
        exact ⟨hz, rfl, ‹_›⟩
    · simp [decode_of_zeroField_ne hz] at h
  · rintro ⟨hz, hc, hwf⟩
    rw [decode_of_commandOf_some hz hc, if_pos hwf]

/-- A word is legal exactly when it is the encoding of a well-formed command (R97). -/
theorem decode_eq_ok_iff {w : Word} {i : Instr} : decode w = .ok i ↔ i.WellFormed ∧ encode i = w := by
  rw [decode_eq_ok_iff_fields, commandOf_eq_some_iff, BitVec.toNat_inj]
  constructor
  · rintro ⟨hz, ⟨hop, hnode⟩, hwf⟩
    exact ⟨hwf, by rw [encode, hop, hnode, ← hz, packed_fields]⟩
  · rintro ⟨hwf, rfl⟩
    exact ⟨zeroField_packed _ _ _, ⟨(opField_packed _ _ _).symm, (nodeField_packed _ _ _).symm⟩, hwf⟩

/-- Why a word is illegal (R95). -/
theorem decode_isError_iff (w : Word) :
    (∃ why, decode w = .error why) ↔
      zeroField w ≠ 0 ∨ (opField w).toNat ∉ opcodes ∨
        ((opField w).toNat ∈ zeroNodeOpcodes ∧ nodeField w ≠ 0) := by
  by_cases hz : zeroField w = 0
  · cases hc : commandOf (opField w).toNat (nodeField w) with
    | none => simp [decode_of_commandOf_none hz hc, (commandOf_eq_none_iff _ _).1 hc]
    | some i =>
      obtain ⟨hop, hnode⟩ := commandOf_eq_some_iff.1 hc
      have hmem := opcodeOf_mem_opcodes i
      rw [decode_of_commandOf_some hz hc, ← hop, ← hnode, ← wellFormed_eq_false_iff]
      cases i.wellFormed <;> simp [hz, hmem]
  · exact iff_of_true ⟨_, decode_of_zeroField_ne hz⟩ (.inl hz)

/-! ## Encoding -/

/-- The word of R97: the node above the opcode. -/
theorem encode_eq (i : Instr) : encode i = (i.node.setWidth 32 <<< 8) ||| (opcodeOf i).setWidth 32 := by
  refine BitVec.eq_of_getLsbD_eq fun k hk => ?_
  rw [encode, getLsbD_packed, BitVec.getLsbD_or, BitVec.getLsbD_shiftLeft, BitVec.getLsbD_setWidth,
    BitVec.getLsbD_setWidth]
  by_cases hop : k < 8
  · simp [hop, hk]
  · have hhigh : (opcodeOf i).getLsbD k = false := BitVec.getLsbD_of_ge _ _ (by omega)
    by_cases hnode : k < 24
    · simp [hop, hnode, hk, hhigh]; omega
    · have hhigh' : i.node.getLsbD (k - 8) = false := BitVec.getLsbD_of_ge _ _ (by omega)
      simp [hop, hnode, hhigh, hhigh']

/-- Settles O1: a word is legal exactly when it is the encoding of a well-formed command. -/
theorem decodeEncodeAgree : Obligations.DecodeEncodeAgree :=
  ⟨fun i hi => ⟨encode_eq i, decode_eq_ok_iff.2 ⟨hi, rfl⟩⟩, fun _ _ => decode_eq_ok_iff.1⟩

/-! ## Refused commands -/

theorem refused_wellFormed {k : NodeKind} {i : Instr} {node : ClockId} (h : (k, i) ∈ refusedCommands node) :
    i.WellFormed := by
  have hall : (refusedCommands node).all (fun c => c.2.wellFormed) = true := rfl
  exact List.all_eq_true.1 hall _ h

/-- A refused command on a node of its kind (R244). -/
theorem exec_refused {s : State} {node : ClockId} {flags : NodeFlags} {d : NodeData} {i : Instr}
    (hreg : Registered s node flags d) (h : (d.kind, i) ∈ refusedCommands node) :
    exec i s = .next (s.raise .unsupportedOnVariant) := by
  cases d with
  | fpll n =>
    obtain rfl : i = .fpllSetParent node := by simpa [refusedCommands, NodeData.kind] using h
    simp [exec, execFpllSetParent, prologue_of_registered hreg, NodeData.fpll?]
  | dpll n =>
    obtain rfl : i = .dpllSetParent node := by simpa [refusedCommands, NodeData.kind] using h
    simp [exec, execDpllSetParent, prologue_of_registered hreg, NodeData.dpll?]
  | mck n =>
    obtain rfl : i = .mckSetRate node := by simpa [refusedCommands, NodeData.kind] using h
    simp [exec, execMckSetRate, prologue_of_registered hreg, NodeData.mck?]
  | gck n => simp [refusedCommands, NodeData.kind] at h
  | peri n =>
    have hi : i = .periSetRate node ∨ i = .periSetParent node := by
      simpa [refusedCommands, NodeData.kind] using h
    rcases hi with rfl | rfl <;>
      simp [exec, execPeriSetRate, execPeriSetParent, prologue_of_registered hreg, NodeData.peri?]
  | prog n =>
    have hi : i = .progEnable node ∨ i = .progDisable node := by
      simpa [refusedCommands, NodeData.kind] using h
    rcases hi with rfl | rfl <;>
      simp [exec, execProgEnable, execProgDisable, prologue_of_registered hreg, NodeData.prog?]
  | osc n =>
    have hi : i = .oscEnable node ∨ i = .oscDisable node ∨ i = .oscSetRate node ∨ i = .oscSetParent node := by
      simpa [refusedCommands, NodeData.kind] using h
    rcases hi with rfl | rfl | rfl | rfl <;>
      simp [exec, execOscEnable, execOscDisable, execOscSetRate, execOscSetParent, prologue_of_registered hreg,
        NodeData.osc?]

/-- Settles O2: the three ways to be illegal, the step of an illegal word, and the refused commands. -/
theorem illegalWordsExactly : Obligations.IllegalWordsExactly := by
  refine ⟨decode_isError_iff, fun s he hh ⟨why, hwhy⟩ => ?_, fun s node flags d i hi => ⟨?_, fun hreg => ?_⟩⟩
  · exact (step_started he hh).trans (runCommand_of_illegal hwhy)
  · exact decode_eq_ok_iff.2 ⟨refused_wellFormed hi, rfl⟩
  · exact exec_refused hreg hi

/-- Settles O3: the decoder run on each word. -/
theorem sampleWordsDecode : Obligations.SampleWordsDecode := ⟨rfl, rfl, rfl, rfl, rfl, rfl, rfl, rfl⟩

end Sys2Proof.Proofs
end

