-- ==== Sys2Proof/Proofs/OperandForms.lean ====
section
/-! PROOFS. The operand forms: fields under an update, narrow operands, and the mux tables with their two commands (R88,
R90, R91, R112, R131, R132, R255). -/

namespace Sys2Proof.Proofs

open Machine Laws

/-! ## Fields -/

/-- Settles O33: an update covers its field's bits and leaves out all others. -/
theorem fieldReadsBack : Obligations.FieldReadsBack := by
  intro f v r hok hv
  have hinside : ((r &&& ~~~ f.mask) ||| (f.place v &&& f.mask)) &&& f.mask = f.place v &&& f.mask :=
    merged_and_of_covered BitVec.and_self
  have hvalue : f.extract ((r &&& ~~~ f.mask) ||| (f.place v &&& f.mask)) = v :=
    (extract_congr hinside).trans (extract_place hok hv)
  have hapart : ~~~ f.mask &&& f.mask = 0 := by simp
  exact ⟨fmax_eq_of_ok hok, hvalue, merged_and_of_disjoint hapart, extract_le_fmax f r⟩

/-! ## Narrow operands -/

/-- A well-formed ClockId in an operand register (R88, R255). -/
theorem narrowId_setWidth {pid : ClockId} (h : wellFormedId pid = true) : narrowId (pid.setWidth 64) = some pid := by
  have hback : (pid.setWidth 64).setWidth 16 = pid := by simp
  have hlt : (pid.setWidth 64).toNat < 2 ^ 16 := by
    rw [BitVec.toNat_setWidth_of_le (by omega)]
    exact pid.isLt
  rw [narrowId, hback, h, decide_eq_true hlt]
  rfl

theorem narrowId_eq_none {x : Operand} (h : x.toNat ≥ 2 ^ 16 ∨ wellFormedId (x.setWidth 16) = false) :
    narrowId x = none := by
  refine if_neg fun hfits => ?_
  obtain ⟨hlt, hid⟩ := Bool.and_eq_true_iff.1 hfits
  rcases h with hge | hbad
  · exact Nat.not_lt.2 hge (of_decide_eq_true hlt)
  · simp [hbad] at hid

/-- A 32-bit operand keeps its value (R21, R255). -/
theorem narrowWord_eq_some {x : Operand} (h : x.toNat < 2 ^ 32) :
    ∃ w, narrowWord x = some w ∧ w.toNat = x.toNat := by
  refine ⟨_, if_pos h, ?_⟩
  rw [BitVec.toNat_setWidth, Nat.mod_eq_of_lt h]

theorem narrowWord_eq_none {x : Operand} (h : x.toNat ≥ 2 ^ 32) : narrowWord x = none := if_neg (Nat.not_lt.2 h)

/-! ## Mux tables -/

theorem idxOf?_eq_some_of_first {α : Type} [BEq α] [LawfulBEq α] {l : List α} {a : α} {i : Nat} (hi : l[i]? = some a)
    (hfirst : ∀ j < i, l[j]? ≠ some a) : l.idxOf? a = some i := by
  obtain ⟨hlt, ha⟩ := List.getElem?_eq_some_iff.1 hi
  refine List.idxOf?_eq_some_iff.2 ⟨hlt, ha, fun j hj hja => hfirst j hj ?_⟩
  exact List.getElem?_eq_some_iff.2 ⟨hj.trans hlt, hja⟩

section
variable {t : MuxTable} {pid : ClockId} {code i sel : Nat}

theorem p2s_eq_some (hi : t.pid[i]? = some pid) (hfirst : ∀ j < i, t.pid[j]? ≠ some pid)
    (hsel : t.sel[i]? = some sel) : t.p2s pid = some sel := by
  simp [MuxTable.p2s, idxOf?_eq_some_of_first hi hfirst, hsel]

theorem p2s_eq_none (h : pid ∉ t.pid) : t.p2s pid = none := by
  simp [MuxTable.p2s, List.idxOf?_eq_none_iff.2 h]

theorem s2i_eq_some (hi : t.sel[i]? = some code) (hfirst : ∀ j < i, t.sel[j]? ≠ some code) : t.s2i code = some i :=
  idxOf?_eq_some_of_first hi hfirst

theorem s2i_eq_none (h : code ∉ t.sel) : t.s2i code = none := List.idxOf?_eq_none_iff.2 h

end

/-! ## The two mux commands -/

section
variable {s : State} {node : ClockId} {flags : NodeFlags} {d : NodeData} {t : MuxTable}

theorem tableOf_of_registered (hreg : Registered s node flags d) (ht : d.table? = some t) :
    s.tableOf node = some t := by
  obtain ⟨hid, hlookup⟩ := hreg
  simp [State.tableOf, hid, hlookup, ht]

/-- A malformed or unregistered id, or a node without a table (assumption 15 for the first). -/
theorem tableOf_eq_none (h : wellFormedId node = false ∨ s.nt.lookup node = none ∨
    ∃ e, s.nt.lookup node = some e ∧ e.data.table? = none) : s.tableOf node = none := by
  rcases h with hid | hlookup | ⟨e, hlookup, ht⟩
  · simp [State.tableOf, hid]
  · simp [State.tableOf, hlookup]
  · simp [State.tableOf, hlookup, ht]

theorem muxP2s_hit {pid : ClockId} {sel : Nat} (ha : narrowId s.a0 = some pid) (ht : s.tableOf node = some t)
    (hsel : t.p2s pid = some sel) : exec (.muxP2s node) s = .next (s.result (BitVec.ofNat 64 sel) 0) := by
  simp only [exec, execMuxP2s, ha, ht, hsel]

theorem muxP2s_miss {pid : ClockId} (ha : narrowId s.a0 = some pid) (ht : s.tableOf node = some t)
    (hsel : t.p2s pid = none) : exec (.muxP2s node) s = .next (s.raise .unknownParent) := by
  simp only [exec, execMuxP2s, ha, ht, hsel]

theorem muxP2s_rejected (h : narrowId s.a0 = none ∨ s.tableOf node = none) :
    exec (.muxP2s node) s = .next (s.raise .invalidArgument) := by
  rcases h with h | h
  · simp only [exec, execMuxP2s, h]
  · cases ha : narrowId s.a0 <;> simp only [exec, execMuxP2s, ha, h]

theorem muxS2i_hit {code : Word} {i : Nat} (ha : narrowWord s.a0 = some code) (ht : s.tableOf node = some t)
    (hi : t.s2i code.toNat = some i) : exec (.muxS2i node) s = .next (s.result (BitVec.ofNat 64 i) 0) := by
  simp only [exec, execMuxS2i, ha, ht, hi]

theorem muxS2i_miss {code : Word} (ha : narrowWord s.a0 = some code) (ht : s.tableOf node = some t)
    (hi : t.s2i code.toNat = none) : exec (.muxS2i node) s = .next (s.raise .unknownSelect) := by
  simp only [exec, execMuxS2i, ha, ht, hi]

theorem muxS2i_rejected (h : narrowWord s.a0 = none ∨ s.tableOf node = none) :
    exec (.muxS2i node) s = .next (s.raise .invalidArgument) := by
  rcases h with h | h
  · simp only [exec, execMuxS2i, h]
  · cases ha : narrowWord s.a0 <;> simp only [exec, execMuxS2i, ha, h]

end

/-- Settles O45: hit, miss and rejection of each command. -/
theorem muxCommands : Obligations.MuxCommands := by
  refine ⟨fun s node flags d t pid hreg ht ha hpid => ?_, fun s node flags d t hreg ht hlt => ?_,
    fun s node => ⟨fun h => ?_, fun h => ?_, fun h => ?_⟩⟩
  · have htable := tableOf_of_registered hreg ht
    have ha' : narrowId s.a0 = some pid := ha ▸ narrowId_setWidth hpid
    exact ⟨fun i sel hi hfirst hsel => muxP2s_hit ha' htable (p2s_eq_some hi hfirst hsel),
      fun hmem => muxP2s_miss ha' htable (p2s_eq_none hmem)⟩
  · have htable := tableOf_of_registered hreg ht
    obtain ⟨code, ha, hcode⟩ := narrowWord_eq_some hlt
    rw [← hcode]
    exact ⟨fun i hi hfirst => muxS2i_hit ha htable (s2i_eq_some hi hfirst),
      fun hmem => muxS2i_miss ha htable (s2i_eq_none hmem)⟩
  · exact ⟨muxP2s_rejected (.inr (tableOf_eq_none h)), muxS2i_rejected (.inr (tableOf_eq_none h))⟩
  · exact muxP2s_rejected (.inl (narrowId_eq_none h))
  · exact muxS2i_rejected (.inl (narrowWord_eq_none h))

end Sys2Proof.Proofs
end

