-- ==== Sys2Proof/Proofs/RegistrationChecks.lean ====
section
/-! PROOFS. The static checks of `NODE.REGISTER`: an admitted description meets them, and what the command answers where
they or the discovered select code fail (R88, R90, R232, R254, R256). -/

namespace Sys2Proof.Proofs

open Machine Laws

/-! ## The node a description stands for -/

theorem code_of_ofCode {c : Nat} {k : NodeKind} (h : NodeKind.ofCode c = some k) : c = k.code := by
  unfold NodeKind.ofCode at h
  split at h <;> cases h <;> rfl

/-- The base that a description gives fits a word (R231, R232 (c)). -/
theorem base_toNat {d : NodeDesc} {k : NodeKind} (h : d.baseOk k = true) (hk : k ≠ .osc) :
    (BitVec.ofNat 32 d.base).toNat = d.base := by
  have hlt : d.base < 2 ^ 32 := by simpa [NodeDesc.baseOk, hk] using h
  rw [BitVec.toNat_ofNat, Nat.mod_eq_of_lt hlt]

section
variable {d : NodeDesc} {k : NodeKind} {node : NodeData} (h : d.build k = some node)
include h

theorem build_carries (hk : d.kindCode = k.code) (hb : d.baseOk k = true) : Carries d node := by
  cases k with
  | osc =>
    simp only [NodeDesc.build] at h
    split at h <;> cases h
    exact ⟨hk, rfl⟩
  | fpll | dpll | mck | gck | peri | prog =>
    have hbase := base_toNat hb (by decide)
    simp only [NodeDesc.build] at h
    split at h <;> cases h
    refine ⟨hk, hbase.symm, rfl, ?_⟩
    simp only [*, and_self]

/-- A node has the mux table its description gives: none, for the kinds without one (R232 (e)). -/
theorem build_table : d.table = node.table? := by
  cases k <;> simp only [NodeDesc.build] at h <;> split at h <;> cases h <;> assumption

/-- What registration discovers is still open. -/
theorem build_fixedPart : node = fixedPart node := by
  cases k <;> simp only [NodeDesc.build] at h <;> split at h <;> cases h <;> rfl

end

/-- An oscillator has no parent (R234). -/
theorem build_osc_parent {d : NodeDesc} {k : NodeKind} {n : OscNode} (h : d.build k = some (.osc n)) :
    d.parent = none := by
  cases k <;> simp only [NodeDesc.build] at h <;> split at h <;> cases h
  assumption

/-! ## The checks of an admitted description -/

/-- What admission says, check by check (R88, R232 (a) to (f)). -/
structure Admitted (d : NodeDesc) (params : Params) (nt : NodeTable) (k : NodeKind) (node : NodeData) : Prop where
  kindCode : d.kindCode = k.code
  ids : d.idsOk = true
  unregistered : nt.has d.id = false
  capacity : nt.length < params.nodeMax
  layout : ∀ f ∈ d.layout.present, f.ok = true
  base : d.baseOk k = true
  build : d.build k = some node
  node : node.ok nt = true

theorem admitted_of_accept {d : NodeDesc} {params : Params} {nt : NodeTable} {node : NodeData}
    (h : d.accept params nt = some node) : ∃ k, Admitted d params nt k node := by
  unfold NodeDesc.accept at h
  split at h
  · cases h
  next k hk =>
    split at h
    next hchecks =>
      simp only [Bool.and_eq_true, Bool.not_eq_true', decide_eq_true_eq, List.all_eq_true] at hchecks
      obtain ⟨⟨⟨⟨hids, hnew⟩, hcapacity⟩, hlayout⟩, hbase⟩ := hchecks
      obtain ⟨hbuild, hnode⟩ := Option.filter_eq_some_iff.1 h
      exact ⟨k, code_of_ofCode hk, hids, hnew, hcapacity, hlayout, hbase, hbuild, hnode⟩
    · cases h

theorem lookup_ne_none_of_has {nt : NodeTable} {id : ClockId} (h : nt.has id = true) : nt.lookup id ≠ none :=
  Option.isSome_iff_ne_none.1 h

theorem lookup_eq_none_of_has {nt : NodeTable} {id : ClockId} (h : nt.has id = false) : nt.lookup id = none :=
  Option.isNone_iff_eq_none.1 (Option.isSome_eq_false_iff.1 h)

theorem tableChecks_of_ok {nt : NodeTable} {t : MuxTable} (h : t.ok nt = true) : TableChecks nt t := by
  simp only [MuxTable.ok, Bool.and_eq_true, beq_iff_eq, decide_eq_true_eq, List.all_eq_true] at h
  obtain ⟨⟨⟨⟨⟨hpos, hlen⟩, hmax⟩, hsel⟩, hpid⟩, hids⟩ := h
  exact ⟨hpos, hlen, hmax, hsel, hpid, fun p hp => ⟨(hids p hp).1, lookup_ne_none_of_has (hids p hp).2⟩⟩

/-- The checks that belong to the kind (R232 (c) to (f)). -/
theorem kindChecks_of_ok {d : NodeDesc} {nt : NodeTable} {node : NodeData} (h : node.kindOk nt = true)
    (htable : d.table = node.table?) (hosc : ∀ n, node = .osc n → d.parent = none) : KindChecks d nt node := by
  cases node <;>
    simp only [NodeData.kindOk, SharedPort.ok, NodeTable.kindOf, Bool.and_eq_true, beq_iff_eq, decide_eq_true_eq,
      List.all_eq_true] at h
  case fpll n =>
    obtain ⟨⟨hfrac, hid⟩, hparent⟩ := h
    exact ⟨hfrac, hid, lookup_ne_none_of_has hparent, htable⟩
  case dpll n =>
    obtain ⟨hid, hparent⟩ := h
    exact ⟨hid, hparent, htable⟩
  case mck n =>
    obtain ⟨⟨⟨⟨⟨ht, hsel⟩, hlen⟩, hdiv⟩, hpres⟩, hdis⟩ := h
    refine ⟨tableChecks_of_ok ht, hsel, hlen, hdiv, by simpa [Option.all_eq_true] using hpres, fun hcan => ?_⟩
    simpa [hcan, Option.isSome_iff_ne_none] using hdis
  case gck n =>
    obtain ⟨⟨⟨⟨⟨⟨⟨ht, hsel⟩, ⟨hstrobe, hen⟩, hid⟩, hdiv⟩, hmux⟩, hwidth⟩, hnodup⟩, hextra⟩ := h
    exact ⟨tableChecks_of_ok ht, hsel, hwidth, hid, hstrobe, hen, hdiv, hmux, hnodup, hextra⟩
  case peri n =>
    obtain ⟨⟨⟨⟨hstrobe, hen⟩, hid⟩, hparent⟩, hkind⟩ := h
    exact ⟨hid, hstrobe, hen, hparent, hkind, htable⟩
  case prog n =>
    obtain ⟨ht, hsel⟩ := h
    refine ⟨tableChecks_of_ok ht, fun c hc => ?_⟩
    have hfits := hsel c hc
    cases hext : n.ext <;> simp_all
  case osc n => exact ⟨h, hosc n rfl, htable⟩

theorem idsOk_iff (d : NodeDesc) :
    d.idsOk = true ↔
      wellFormedId d.id = true ∧ (∀ p ∈ d.parent, wellFormedId p = true) ∧
        (∀ p ∈ d.extraParents, wellFormedId p = true) ∧ ∀ t ∈ d.table, ∀ p ∈ t.pid, wellFormedId p = true := by
  simp [NodeDesc.idsOk, Option.all_eq_true, and_assoc]

/-- An admitted description meets the static checks, and the node it stands for carries it. -/
theorem checks_of_accept {s : State} {node : NodeData} (h : s.desc.accept s.params s.nt = some node) :
    Carries s.desc node ∧ StaticChecks s node ∧ node = fixedPart node := by
  obtain ⟨k, hadm⟩ := admitted_of_accept h
  obtain ⟨hid, hparent, hextra, htable⟩ := (idsOk_iff s.desc).1 hadm.ids
  obtain ⟨-, hone, hbase, hkind⟩ := (dataOk_iff s.nt node).1 hadm.node
  have hwidth : ∀ f ∈ node.oneBitFields, f.width = 1 := fun f hf => by simpa [FieldDesc.oneBit] using hone f hf
  have hkind' : KindChecks s.desc s.nt node :=
    kindChecks_of_ok hkind (build_table hadm.build) fun n hn => build_osc_parent (hn ▸ hadm.build)
  exact ⟨build_carries hadm.build hadm.kindCode hadm.base,
    ⟨hid, hparent, hextra, htable, lookup_eq_none_of_has hadm.unregistered, hadm.capacity,
      fun f hf => (fieldDesc_ok_iff f).1 (hadm.layout f hf), hbase, hwidth, hkind'⟩,
    build_fixedPart hadm.build⟩

/-! ## The answers of the command -/

theorem nodeRegister_rejected {s : State} (h : s.desc.accept s.params s.nt = none) :
    exec (.nodeRegister 0) s = .next (s.raise .invalidArgument) := by
  simp only [exec, execNodeRegister, ne_eq, not_true_eq_false, if_false, h]

/-- A select code that discovery does not find in the table: its accesses, then `UnknownSelect` (R232 (g), R256). -/
theorem nodeRegister_unknownSelect {s : State} {d : NodeData} {evs : List BusEvent} (hc : Carries s.desc d)
    (hs : StaticChecks s d) (hmiss : (fixedPart d).discovered s = none)
    (hevs : s.discover (fixedPart d) = afterEvents s evs) :
    exec (.nodeRegister 0) s = .next (State.raise (afterEvents s evs) .unknownSelect) := by
  simp only [exec, execNodeRegister, ne_eq, not_true_eq_false, if_false, accept_of_checks hc hs, hmiss, hevs]

theorem parentOf_eq_none {t : MuxTable} {code : Nat} (h : code ∉ t.sel) : t.parentOf code = none := by
  simp [MuxTable.parentOf, s2i_eq_none h]

theorem discovered_mck_none {s : State} {n : MckNode}
    (h : fieldIn (readEvents s [] n.base [n.mux.off]) n.base n.mux ∉ n.table.sel) :
    (fixedPart (.mck n)).discovered s = none := by
  rw [← fieldValue_eq] at h
  exact congrArg (Option.map _) (parentOf_eq_none h)

theorem discovered_gck_none {s : State} {n : GckNode} (h : n.mux.extract (s.selectedValue n.port) ∉ n.table.sel) :
    (fixedPart (.gck n)).discovered s = none :=
  congrArg (Option.map _) (parentOf_eq_none h)

theorem discovered_prog_none {s : State} {n : ProgNode}
    (h : progCode n (s.fieldsValue n.base (progSelectFields n)) ∉ n.table.sel) :
    (fixedPart (.prog n)).discovered s = none :=
  congrArg (Option.map _) (parentOf_eq_none h)

/-- Settles O48: admission in both directions, and the two ways to fail. -/
theorem nodeRegisterChecks : Obligations.NodeRegisterChecks := by
  refine ⟨fun s hnone => ?_, fun s d => ⟨checks_of_accept, accept_of_checks⟩, fun s d hc hs => ⟨?_, ?_, ?_⟩⟩
  · refine nodeRegister_rejected (Option.eq_none_iff_forall_ne_some.2 fun d hd => ?_)
    obtain ⟨hc, hs, -⟩ := checks_of_accept hd
    exact hnone d hc hs
  · rintro n rfl evs hcode
    exact nodeRegister_unknownSelect hc hs (discovered_mck_none hcode) (regRead_eq s n.base n.mux.off)
  · rintro n rfl c select v hcode
    exact nodeRegister_unknownSelect hc hs (discovered_gck_none hcode) (selectAndRead_eq s n.port)
  · rintro n rfl fields evs code hcode
    refine nodeRegister_unknownSelect hc hs (discovered_prog_none ?_) (fieldsGet_eq s n.base (progSelectFields n))
    rw [progCode_eq]
    exact hcode

end Sys2Proof.Proofs
end

