-- ==== Sys2Proof/Proofs/ArgumentChecks.lean ====
section
/-! PROOFS. The argument and range checks of `SET_RATE` and the operand check of `SET_PARENT`, of each kind and through
the dispatch command (R142, R162, R195, R218, R241, R254, R255, R257, R260). -/

namespace Sys2Proof.Proofs

open Machine Laws

section
variable {s : State} {node : ClockId} {flags : NodeFlags}

/-! ## Through the dispatch command -/

/-- What `SET_RATE` of the kind answers, the dispatch command answers too (R241). -/
theorem setRate_both {d : NodeData} {o : Outcome} (hreg : Registered s node flags d)
    (h : exec (setRateOf d.kind node) s = o) : ∀ i ∈ [setRateOf d.kind node, .setRate node], exec i s = o := by
  have hdispatch : exec (.setRate node) s = exec (setRateOf d.kind node) s := by
    simp only [exec, execSetRate, dispatchKind_of_registered hreg]
    cases d <;> rfl
  simp [hdispatch, h]

/-- What `SET_PARENT` of the kind answers, the dispatch command answers too (R241). -/
theorem setParent_both {d : NodeData} {o : Outcome} (hreg : Registered s node flags d)
    (h : exec (setParentOf d.kind node) s = o) : ∀ i ∈ [setParentOf d.kind node, .setParent node], exec i s = o := by
  have hdispatch : exec (.setParent node) s = exec (setParentOf d.kind node) s := by
    simp only [exec, execSetParent, dispatchKind_of_registered hreg]
    cases d <;> rfl
  simp [hdispatch, h]

/-! ## A zero target -/

theorem setRate_zeroTarget {d : NodeData} (hreg : Registered s node flags d) (ha : s.a0 = 0)
    (hd : d.kind ∈ [NodeKind.fpll, .dpll, .gck, .prog]) :
    exec (setRateOf d.kind node) s = .next (s.raise .invalidArgument) := by
  have hzero : s.a0.toNat = 0 := by rw [ha]; rfl
  cases d with
  | fpll n =>
    simp [setRateOf, NodeData.kind, exec, execFpllSetRate, prologue_of_registered hreg, NodeData.fpll?, hzero]
  | dpll n =>
    simp [setRateOf, NodeData.kind, exec, execDpllSetRate, prologue_of_registered hreg, NodeData.dpll?, hzero]
  | gck n =>
    simp [setRateOf, NodeData.kind, exec, execGckSetRate, prologue_of_registered hreg, NodeData.gck?, hzero]
  | prog n =>
    simp [setRateOf, NodeData.kind, exec, execProgSetRate, prologue_of_registered hreg, NodeData.prog?, hzero]
  | mck n | peri n | osc n => simp [NodeData.kind] at hd

/-! ## The fractional PLL -/

section
variable {n : FpllNode} (hreg : Registered s node flags (.fpll n)) (ha : s.a0.toNat ≠ 0)
include hreg ha

theorem fpllSetRate_targetOutOfRange (hrange : inRange n.range s.a0.toNat = false) :
    exec (.fpllSetRate node) s = .next (s.raise .outOfRange) := by
  simp [exec, execFpllSetRate, prologue_of_registered hreg, NodeData.fpll?, ha, hrange]

variable (hrange : inRange n.range s.a0.toNat = true) {s₁ : State} {r : Nat} (hrate : s.rate n.parent = (s₁, .ok r))
include hrange hrate

theorem fpllSetRate_parentZero (hr : r = 0) : exec (.fpllSetRate node) s = .next (s₁.raise .invalidArgument) := by
  simp [exec, execFpllSetRate, prologue_of_registered hreg, NodeData.fpll?, ha, hrange, withRate_of_rate hrate, hr]

theorem fpllSetRate_settingTooLarge (hr : r ≠ 0) (hfits : (fpllCompute r s.a0.toNat).fits n = false) :
    exec (.fpllSetRate node) s = .next (s₁.raise .outOfRange) := by
  simp [exec, execFpllSetRate, prologue_of_registered hreg, NodeData.fpll?, ha, hrange, withRate_of_rate hrate, hr,
    hfits]

end

/-- The three ways not to fit (R142 (6), D4, U19). -/
theorem fits_eq_false_iff (c : FpllSetting) (n : FpllNode) :
    c.fits n = false ↔ c.frac > n.frac.fmax ∨ c.mul > n.mul.fmax ∨ c.achieved ≥ 2 ^ 64 := by
  simp only [FpllSetting.fits, Bool.and_eq_false_iff, decide_eq_false_iff_not, Nat.not_le, Nat.not_lt, or_assoc]

/-! ## The divider PLL -/

theorem dpllSetRate_divisorOrRate {n : DpllNode} {s₁ : State} {r : Nat} (hreg : Registered s node flags (.dpll n))
    (ha : s.a0.toNat ≠ 0) (hrate : s.rate n.parent = (s₁, .ok r))
    (h : roundDiv r s.a0.toNat = 0 ∨ roundDiv r s.a0.toNat - 1 > n.div.fmax ∨
      inRange n.range (rdiv s₁.params.rdiv r (roundDiv r s.a0.toNat)) = false) :
    exec (.dpllSetRate node) s = .next (s₁.raise .outOfRange) := by
  simp only [exec, execDpllSetRate, prologue_of_registered hreg, NodeData.dpll?, Option.map_some, if_neg ha,
    withRate_of_rate hrate]
  split
  · rfl
  next hdiv =>
    have hrange := (or_assoc.2 h).resolve_left hdiv
    simp [hrange]

/-! ## The generic clock -/

section
variable {n : GckNode} (hreg : Registered s node flags (.gck n)) (ha : s.a0.toNat ≠ 0)
include hreg ha

theorem gckSetRate_targetOutOfRange (hrange : inRange n.range s.a0.toNat = false) :
    exec (.gckSetRate node) s = .next (s.raise .outOfRange) := by
  simp [exec, execGckSetRate, prologue_of_registered hreg, NodeData.gck?, ha, hrange]

theorem gckSetRate_noCandidate (hrange : inRange n.range s.a0.toNat = true) (hnone : n.extraParents = []) :
    exec (.gckSetRate node) s = .next (s.raise .invalidArgument) := by
  simp [exec, execGckSetRate, prologue_of_registered hreg, NodeData.gck?, ha, hrange, hnone]

end

/-! ## The programmable clock -/

section
variable {n : ProgNode} (hreg : Registered s node flags (.prog n)) (ha : s.a0.toNat ≠ 0)
include hreg ha

theorem progSetRate_targetOutOfRange (hrange : inRange n.range s.a0.toNat = false) :
    exec (.progSetRate node) s = .next (s.raise .outOfRange) := by
  simp [exec, execProgSetRate, prologue_of_registered hreg, NodeData.prog?, ha, hrange]

theorem progSetRate_inexact (hrange : inRange n.range s.a0.toNat = true) {s₁ : State} {r : Nat}
    (hrate : s.rate n.parent = (s₁, .ok r)) (hfail : progCompute n.mode r s.a0.toNat n.pres.fmax = none) :
    exec (.progSetRate node) s = .next (s₁.raise .outOfRange) := by
  simp [exec, execProgSetRate, prologue_of_registered hreg, NodeData.prog?, ha, hrange, withRate_of_rate hrate, hfail]

end

/-! ## The operand of `SET_PARENT` -/

theorem setParent_malformedOperand {d : NodeData} {t : MuxTable} (hreg : Registered s node flags d)
    (ht : d.table? = some t) (ha : narrowId s.a0 = none) :
    exec (setParentOf d.kind node) s = .next (s.raise .invalidArgument) := by
  cases d with
  | mck n => simp [setParentOf, NodeData.kind, exec, execMckSetParent, prologue_of_registered hreg, NodeData.mck?, ha]
  | gck n => simp [setParentOf, NodeData.kind, exec, execGckSetParent, prologue_of_registered hreg, NodeData.gck?, ha]
  | prog n =>
    simp [setParentOf, NodeData.kind, exec, execProgSetParent, prologue_of_registered hreg, NodeData.prog?, ha]
  | fpll n | dpll n | peri n | osc n => simp [NodeData.table?] at ht

end

/-- Settles O53, a kind at a time. -/
theorem argumentRejections : Obligations.ArgumentRejections := by
  refine ⟨fun s s₁ node flags d r hreg => ⟨fun ha hd => ?_, fun ha => ?_⟩, fun s node flags d t hreg ht ha => ?_⟩
  · exact setRate_both hreg (setRate_zeroTarget hreg ha hd)
  · have ha' : s.a0.toNat ≠ 0 := fun h => ha (BitVec.eq_of_toNat_eq h)
    refine ⟨?_, ?_, ?_, ?_⟩
    · rintro n rfl i hi
      refine ⟨fun hrange => ?_, fun hrange hrate => ⟨fun hr => ?_, fun hr hfits => ?_⟩⟩
      · exact setRate_both hreg (fpllSetRate_targetOutOfRange hreg ha' hrange) i hi
      · exact setRate_both hreg (fpllSetRate_parentZero hreg ha' hrange hrate hr) i hi
      · exact setRate_both hreg
          (fpllSetRate_settingTooLarge hreg ha' hrange hrate hr ((fits_eq_false_iff _ _).2 hfits)) i hi
    · rintro n rfl hrate i hi hfail
      exact setRate_both hreg (dpllSetRate_divisorOrRate hreg ha' hrate hfail) i hi
    · rintro n rfl i hi
      exact ⟨fun hrange => setRate_both hreg (gckSetRate_targetOutOfRange hreg ha' hrange) i hi,
        fun hrange hnone => setRate_both hreg (gckSetRate_noCandidate hreg ha' hrange hnone) i hi⟩
    · rintro n rfl i hi
      exact ⟨fun hrange => setRate_both hreg (progSetRate_targetOutOfRange hreg ha' hrange) i hi,
        fun hrange hrate hfail => setRate_both hreg (progSetRate_inexact hreg ha' hrange hrate hfail) i hi⟩
  · exact setParent_both hreg (setParent_malformedOperand hreg ht (narrowId_eq_none ha))

end Sys2Proof.Proofs
end

