-- ==== Sys2Proof/Proofs/PollSteps.lean ====
section
/-! PROOFS. A poll, step by step: each step of it is one read of the status register, and without the awaited value or
an engine reset it is never left (R117, R118, R262, R285). -/

namespace Sys2Proof.Proofs

open Machine Laws

/-- A read of a poll in the words of bus events (R117, R118). -/
theorem poll_eq (s : State) (p : Poll) : s.poll p = pollAfter s [] p := by
  by_cases h : s.target.answer p.addr &&& p.mask ≠ 0 ↔ p.awaited = true
  · exact (if_pos ((exits_iff p _).2 h)).trans (if_pos h).symm
  · exact (if_neg fun hexit => h ((exits_iff p _).1 hexit)).trans (if_neg h).symm

/-- Settles O8: the step of a polling engine whose host has no move, or waits. -/
theorem pollReadsOnce : Obligations.PollReadsOnce := by
  refine fun s p he => ⟨fun hh => ?_, fun rest hh => ?_⟩
  · rw [step_polling_nil he hh, poll_eq]
  · rw [step_polling_cons he hh, ← poll_eq]
    rfl

/-! ## A poll that is not answered -/

/-- None of the host's moves to come is an engine reset. -/
def NoReset (host : List HostMove) : Prop := ∀ m ∈ host, ∀ k, m ≠ .reset k

theorem noReset_tail {m : HostMove} {rest : List HostMove} (h : NoReset (m :: rest)) : NoReset rest :=
  fun m' hm' => h m' (List.mem_cons_of_mem m hm')

/-- The second state is the first after some reads of the poll's status register, with host moves used up. -/
def OnlyPolled (p : Poll) (s t : State) : Prop :=
  ∃ evs rest, t = { afterEvents s evs with host := rest } ∧ ∀ e ∈ evs, ∃ v, e = .read p.addr v

theorem onlyPolled_host (p : Poll) (s : State) (rest : List HostMove) : OnlyPolled p s { s with host := rest } :=
  ⟨[], rest, by rw [afterEvents_nil], by simp⟩

theorem onlyPolled_read (p : Poll) (s : State) (rest : List HostMove) :
    OnlyPolled p s (State.memRead { s with host := rest } p.addr) :=
  ⟨[.read p.addr (s.target.answer p.addr)], rest, rfl, by simp⟩

theorem onlyPolled_trans {p : Poll} {s t u : State} (hst : OnlyPolled p s t) (htu : OnlyPolled p t u) :
    OnlyPolled p s u := by
  obtain ⟨evs, rest, rfl, hevs⟩ := hst
  obtain ⟨evs', rest', rfl, hevs'⟩ := htu
  refine ⟨evs ++ evs', rest', by simp [afterEvents], fun e he => ?_⟩
  exact (List.mem_append.1 he).elim (hevs e) (hevs' e)

section
variable {p : Poll} {s : State} (he : s.engine = .polling p)
include he

/-- A read that does not find the awaited value changes nothing but the bus (R262). -/
theorem poll_of_unanswered (h : p.exits (s.target.answer p.addr) = false) : s.poll p = s.memRead p.addr := by
  rcases poll_cases s p with ⟨hexit, -⟩ | ⟨-, hpoll⟩
  · exact absurd (hexit.symm.trans h) (by decide)
  · rw [hpoll, ← he]
    rfl

/-- A step of such a poll uses up a host move or reads the status register, or both. -/
theorem step_of_unanswered (hh : NoReset s.host) (h : p.exits (s.target.answer p.addr) = false) :
    ∃ rest, NoReset rest ∧
      (step s = .next { s with host := rest } ∨ step s = .next (State.memRead { s with host := rest } p.addr)) := by
  cases hhost : s.host with
  | nil =>
    refine ⟨s.host, hh, .inr ?_⟩
    rw [step_polling_nil he hhost, poll_of_unanswered he h]
  | cons m rest =>
    rw [hhost] at hh
    rw [step_polling_cons he hhost]
    refine ⟨rest, noReset_tail hh, ?_⟩
    cases m with
    | writeCmd w => exact .inl rfl
    | writeOperand k v => exact .inl rfl
    | writeDesc d => exact .inl rfl
    | reset k => exact absurd rfl (hh (.reset k) List.mem_cons_self k)
    | wait => exact .inr (congrArg _ (poll_of_unanswered (s := { s with host := rest }) he h))

end

theorem run_of_unanswered (n : Nat) {s : State} {p : Poll} (he : s.engine = .polling p) (hh : NoReset s.host)
    (hk : ∀ k ≤ n, p.exits ((readsLater s.target k).answer p.addr) = false) :
    ∃ t, core.run n s = .next t ∧ OnlyPolled p s t := by
  induction n generalizing s with
  | zero => exact ⟨s, rfl, onlyPolled_host p s s.host⟩
  | succ n ih =>
    obtain ⟨rest, hrest, hstep | hstep⟩ := step_of_unanswered he hh (hk 0 (Nat.zero_le _))
    · obtain ⟨t, hrun, ht⟩ := ih (s := { s with host := rest }) he hrest fun k hkn => hk k (by omega)
      exact ⟨t, (run_succ_of_step core n s _ hstep).trans hrun, onlyPolled_trans (onlyPolled_host p s rest) ht⟩
    · have hlater : ∀ k ≤ n, p.exits ((readsLater s.target.afterRead k).answer p.addr) = false := by
        intro k hkn
        rw [readsLater_afterRead]
        exact hk (k + 1) (by omega)
      obtain ⟨t, hrun, ht⟩ := ih (s := State.memRead { s with host := rest } p.addr) he hrest hlater
      exact ⟨t, (run_succ_of_step core n s _ hstep).trans hrun, onlyPolled_trans (onlyPolled_read p s rest) ht⟩

/-- Settles O9, by induction on the number of steps: what is reached differs by reads and used-up host moves alone. -/
theorem unansweredPollNeverReturns : Obligations.UnansweredPollNeverReturns := by
  intro n s p he hh hk
  have hstay : ∀ k ≤ n, p.exits ((readsLater s.target k).answer p.addr) = false :=
    fun k hkn => Bool.eq_false_iff.2 fun hexit => hk k hkn ((exits_iff p _).1 hexit)
  obtain ⟨t, hrun, evs, rest, rfl, hevs⟩ := run_of_unanswered n he hh hstay
  have hbusy : s.busy = true := by rw [State.busy, he]; rfl
  exact ⟨_, hrun, he, hbusy, rfl, rfl, rfl, rfl, rfl, rfl, rfl, rfl, rfl, rfl, evs, rfl, hevs⟩

end Sys2Proof.Proofs
end

