-- ==== Sys2Proof/Proofs/FieldGroups.lean ====
section
/-! PROOFS. Fields that share a register (R116): the registers of a field list, and the reads and updates made of
them. -/

namespace Sys2Proof.Proofs

open Machine Laws

/-! ## The registers of some fields -/

/-- What the fields add to the offsets already seen: their own offsets without those. -/
theorem distinctOffs_foldl (fs : List FieldDesc) (seen : List Word) :
    fs.foldl (fun seen f => if f.off ∈ seen then seen else seen ++ [f.off]) seen =
      seen ++ (distinctOffs fs).filter (· ∉ seen) := by
  induction fs generalizing seen with
  | nil => simp [distinctOffs]
  | cons f fs ih =>
    have hcons : distinctOffs (f :: fs) = [f.off] ++ (distinctOffs fs).filter (· ∉ [f.off]) := ih [f.off]
    rw [List.foldl_cons, ih, hcons]
    by_cases hf : f.off ∈ seen
    · have hdrop : ∀ o, o ∉ seen ∧ o ≠ f.off ↔ o ∉ seen := fun o =>
        and_iff_left_of_imp fun ho heq => ho (heq ▸ hf)
      simp only [hf, if_true, List.filter_append, List.filter_filter, List.mem_singleton, ← Bool.decide_and, hdrop]
      simp [hf]
    · simp [hf, List.filter_filter]

theorem distinctOffs_cons (f : FieldDesc) (fs : List FieldDesc) :
    distinctOffs (f :: fs) = f.off :: (distinctOffs fs).filter (fun o => o != f.off) := by
  have h : distinctOffs (f :: fs) = [f.off] ++ (distinctOffs fs).filter (· ∉ [f.off]) :=
    distinctOffs_foldl fs [f.off]
  rw [h, List.singleton_append]
  simp [bne, Bool.beq_eq_decide_eq]

/-! ## Updates as events -/

theorem regUpdate_afterEvents (s : State) (evs : List BusEvent) (base off m x : Word) :
    (afterEvents s evs).regUpdate base off m x = afterEvents s (evs ++ updateEvents s evs base off m x) := by
  rw [regUpdate_eq, afterEvents_afterEvents]
  rfl

/-- One update at each offset, after some events. -/
theorem regUpdates_afterEvents (s : State) (evs : List BusEvent) (base : Word) (m x : Word → Word) (os : List Word) :
    os.foldl (fun s o => s.regUpdate base o (m o) (x o)) (afterEvents s evs) =
      afterEvents s (os.foldl (fun evs o => evs ++ updateEvents s evs base o (m o) (x o)) evs) := by
  induction os generalizing evs with
  | nil => rfl
  | cons o os ih => rw [List.foldl_cons, List.foldl_cons, regUpdate_afterEvents, ih]

/-- `FieldsSet` after some events (R116). -/
theorem fieldsSet_afterEvents (s : State) (evs : List BusEvent) (base : Word) (fvs : List (FieldDesc × Nat)) :
    (afterEvents s evs).fieldsSet base fvs = afterEvents s (updateAllEvents s evs base fvs) :=
  regUpdates_afterEvents s evs base _ _ _

/-! ## What is written together -/

/-- The bits of an OR over the fields at an offset. -/
theorem getLsbD_foldl_or (o : Word) (g : FieldDesc × Nat → Word) (fvs : List (FieldDesc × Nat)) (acc : Word)
    (b : Nat) :
    (fvs.foldl (fun m fv => if fv.1.off = o then m ||| g fv else m) acc).getLsbD b = true ↔
      acc.getLsbD b = true ∨ ∃ fv ∈ fvs, fv.1.off = o ∧ (g fv).getLsbD b = true := by
  induction fvs generalizing acc with
  | nil => simp
  | cons fv fvs ih =>
    rw [List.foldl_cons, ih, List.exists_mem_cons_iff]
    by_cases ho : fv.1.off = o
    · simp [ho, or_assoc]
    · simp [ho]

theorem maskAt_getLsbD (o : Word) (fvs : List (FieldDesc × Nat)) (b : Nat) :
    (maskAt o fvs).getLsbD b = true ↔ ∃ fv ∈ fvs, fv.1.off = o ∧ fv.1.mask.getLsbD b = true := by
  simpa [maskAt] using getLsbD_foldl_or o (fun fv => fv.1.mask) fvs 0 b

theorem bitsAt_getLsbD (o : Word) (fvs : List (FieldDesc × Nat)) (b : Nat) :
    (bitsAt o fvs).getLsbD b = true ↔ ∃ fv ∈ fvs, fv.1.off = o ∧ (fv.1.place fv.2).getLsbD b = true := by
  simpa [bitsAt] using getLsbD_foldl_or o (fun fv => fv.1.place fv.2) fvs 0 b

/-- Settles O34: the registers, their reads, their updates, and what each update writes. -/
theorem fieldsGroupedByRegister : Obligations.FieldsGroupedByRegister := by
  refine ⟨fun f fs => ⟨rfl, distinctOffs_cons f fs⟩, fun s base fs => ⟨fieldsGet_eq s base fs, ?_⟩,
    fun s base fvs => ?_, fun o fvs b => ⟨maskAt_getLsbD o fvs b, bitsAt_getLsbD o fvs b⟩⟩
  · exact fun f _ => getFrom_fieldsValue s base fs f
  · simpa using fieldsSet_afterEvents s [] base fvs

end Sys2Proof.Proofs
end

