-- ==== Sys2Proof/Proofs/RegisterCommands.lean ====
section
/-! PROOFS. `REG.READ`, `REG.WRITE` and `REG.UPDATE`: the operand checks, the accesses, and the bytes they leave alone
(R59, R110 to R115). -/

namespace Sys2Proof.Proofs

open Machine Laws

/-! ## Operands -/

theorem narrowWord_eq_some_iff {x : Operand} {w : Word} :
    narrowWord x = some w ↔ x.toNat < 2 ^ 32 ∧ x.setWidth 32 = w := by
  simp [narrowWord]

theorem narrowWord_of_lt {x : Operand} (h : x.toNat < 2 ^ 32) : narrowWord x = some (x.setWidth 32) := if_pos h

/-! ## The answers of the commands -/

/-- `(A0 + A1) mod 2^32`, the address that the three commands access (R51). -/
def regAddress (s : State) : Word := s.a0.setWidth 32 + s.a1.setWidth 32

/-- `REG.READ` (R113). -/
theorem regRead_answers (s : State) :
    exec (.regRead 0) s = .next
      (if s.a0.toNat ≥ 2 ^ 32 ∨ s.a1.toNat ≥ 2 ^ 32 ∨ (s.a0.toNat + s.a1.toNat) % 4 ≠ 0 then failedWith s 1
      else succeeded (afterEvents s [.read (regAddress s) (s.target.answer (regAddress s))])
        ((s.target.answer (regAddress s)).setWidth 64) 0) := by
  simp only [exec, execRegRead, ne_eq, not_true_eq_false, if_false]
  split
  next base off h0 h1 =>
    obtain ⟨hlt0, rfl⟩ := narrowWord_eq_some_iff.1 h0
    obtain ⟨hlt1, rfl⟩ := narrowWord_eq_some_iff.1 h1
    split
    · rw [if_pos (by omega)]
      rfl
    · rw [if_neg (by omega)]
      rfl
  next hnone =>
    rw [if_pos]
    · rfl
    · by_contra hok
      push Not at hok
      obtain ⟨h0, h1, -⟩ := hok
      exact hnone _ _ (narrowWord_of_lt h0) (narrowWord_of_lt h1)

/-- `REG.WRITE` (R114). -/
theorem regWrite_answers (s : State) :
    exec (.regWrite 0) s = .next
      (if s.a0.toNat ≥ 2 ^ 32 ∨ s.a1.toNat ≥ 2 ^ 32 ∨ s.a2.toNat ≥ 2 ^ 32 ∨
          (s.a0.toNat + s.a1.toNat) % 4 ≠ 0 then failedWith s 1
      else succeeded (afterEvents s [.write (regAddress s) (s.a2.setWidth 32)]) 0 0) := by
  simp only [exec, execRegWrite, ne_eq, not_true_eq_false, if_false]
  split
  next base off v h0 h1 h2 =>
    obtain ⟨hlt0, rfl⟩ := narrowWord_eq_some_iff.1 h0
    obtain ⟨hlt1, rfl⟩ := narrowWord_eq_some_iff.1 h1
    obtain ⟨hlt2, rfl⟩ := narrowWord_eq_some_iff.1 h2
    split
    · rw [if_pos (by omega)]
      rfl
    · rw [if_neg (by omega)]
      rfl
  next hnone =>
    rw [if_pos]
    · rfl
    · by_contra hok
      push Not at hok
      obtain ⟨h0, h1, h2, -⟩ := hok
      exact hnone _ _ _ (narrowWord_of_lt h0) (narrowWord_of_lt h1) (narrowWord_of_lt h2)

/-- `REG.UPDATE` (R115). -/
theorem regUpdate_answers (s : State) :
    exec (.regUpdate 0) s = .next
      (if s.a0.toNat ≥ 2 ^ 32 ∨ s.a1.toNat ≥ 2 ^ 32 ∨ s.a2.toNat ≥ 2 ^ 32 ∨ s.a3.toNat ≥ 2 ^ 32 ∨
          (s.a0.toNat + s.a1.toNat) % 4 ≠ 0 then failedWith s 1
      else succeeded
        (afterEvents s [.read (regAddress s) (s.target.answer (regAddress s)), .write (regAddress s)
          ((s.target.answer (regAddress s) &&& ~~~ s.a2.setWidth 32) ||| (s.a3.setWidth 32 &&& s.a2.setWidth 32))])
        0 0) := by
  simp only [exec, execRegUpdate, ne_eq, not_true_eq_false, if_false]
  split
  next base off mask bits h0 h1 h2 h3 =>
    obtain ⟨hlt0, rfl⟩ := narrowWord_eq_some_iff.1 h0
    obtain ⟨hlt1, rfl⟩ := narrowWord_eq_some_iff.1 h1
    obtain ⟨hlt2, rfl⟩ := narrowWord_eq_some_iff.1 h2
    obtain ⟨hlt3, rfl⟩ := narrowWord_eq_some_iff.1 h3
    split
    · rw [if_pos (by omega)]
      rfl
    · rw [if_neg (by omega), regUpdate_eq]
      rfl
  next hnone =>
    rw [if_pos]
    · rfl
    · by_contra hok
      push Not at hok
      obtain ⟨h0, h1, h2, h3, -⟩ := hok
      exact hnone _ _ _ _ (narrowWord_of_lt h0) (narrowWord_of_lt h1) (narrowWord_of_lt h2) (narrowWord_of_lt h3)

/-! ## What they leave alone -/

/-- Where no register is, the answer is a draw (R59). -/
theorem answer_of_regAt_none {t : Target} {a : Word} (h : t.regAt a = none) : t.answer a = t.nextDraw :=
  answer_of_knownMask (by simp [Target.knownMask, h])

/-- A command that fails, or succeeds after some events, leaves every byte that none of them writes (R60). -/
theorem readByte_of_answer {s t : State} {o : Outcome} {P : Prop} [Decidable P] {code : BitVec 4}
    {evs : List BusEvent} {r0 r1 : Operand} {b : Nat}
    (ho : o = .next (if P then failedWith s code else succeeded (afterEvents s evs) r0 r1)) (ht : o = .next t)
    (hb : ∀ e ∈ evs, writesByte b e = false) : t.target.mem.readByte b = s.target.mem.readByte b := by
  cases ho.symm.trans ht
  split
  · rfl
  · exact readByte_replay s.target hb

theorem writesByte_eq_false {a v : Word} {b : Nat} (h : ¬(a.toNat ≤ b ∧ b < a.toNat + 4)) :
    writesByte b (.write a v) = false :=
  decide_eq_false h

/-- Settles O42. -/
theorem regReadResult : Obligations.RegReadResult :=
  fun s => ⟨rfl, answer_of_regAt_none, regRead_answers s⟩

/-- Settles O43: the only event is the write. -/
theorem regWriteResult : Obligations.RegWriteResult := by
  refine fun s => ⟨rfl, regWrite_answers s, fun t b ht hb => readByte_of_answer (regWrite_answers s) ht ?_⟩
  exact List.forall_mem_singleton.2 (writesByte_eq_false hb)

/-- Settles O44: of the two events the read writes no byte. -/
theorem regUpdateResult : Obligations.RegUpdateResult := by
  refine fun s => ⟨rfl, regUpdate_answers s, fun t b ht hb => readByte_of_answer (regUpdate_answers s) ht ?_⟩
  exact List.forall_mem_cons.2 ⟨rfl, List.forall_mem_singleton.2 (writesByte_eq_false hb)⟩

end Sys2Proof.Proofs
end

