-- ==== Sys2Proof/Proofs/CommandSequences.lean ====
section
/-! PROOFS. `ENABLE` and `DISABLE` of the two PLL kinds, and the commands on the shared command register, access by
access, directly and through the dispatch commands (R117 to R121, R144, R146, R164, R165, R191, R192, R196, R199, R200,
R241). -/

namespace Sys2Proof.Proofs

open Machine Laws

section
variable {s : State} {node : ClockId} {flags : NodeFlags}

/-! ## Through the dispatch commands -/

/-- What `ENABLE` of the kind answers, the dispatch command answers too (R241). -/
theorem enable_both {d : NodeData} {o : Outcome} (hreg : Registered s node flags d)
    (h : exec (enableOf d.kind node) s = o) : ∀ i ∈ [enableOf d.kind node, .enable node], exec i s = o := by
  have hdispatch : exec (.enable node) s = exec (enableOf d.kind node) s := by
    simp only [exec, execEnable, dispatchKind_of_registered hreg]
    cases d <;> rfl
  simp [hdispatch, h]

/-- What `DISABLE` of the kind answers, the dispatch command answers too (R241). -/
theorem disable_both {d : NodeData} {o : Outcome} (hreg : Registered s node flags d)
    (h : exec (disableOf d.kind node) s = o) : ∀ i ∈ [disableOf d.kind node, .disable node], exec i s = o := by
  have hdispatch : exec (.disable node) s = exec (disableOf d.kind node) s := by
    simp only [exec, execDisable, dispatchKind_of_registered hreg]
    cases d <;> rfl
  simp [hdispatch, h]

/-! ## The two PLLs -/

/-- The node's `pll_state` is no part of what its bus accesses find. -/
theorem thenStrobe_setPll (s : State) (id : ClockId) (st : PllState) (evs : List BusEvent) (base : Word)
    (f : FieldDesc) : thenStrobe (s.setPll id st) evs base f = thenStrobe s evs base f :=
  rfl

theorem thenSet_setPll (s : State) (id : ClockId) (st : PllState) (evs : List BusEvent) (base : Word) (f : FieldDesc)
    (v : Nat) : thenSet (s.setPll id st) evs base f v = thenSet s evs base f v :=
  rfl

theorem thenAnalog_setPll (s : State) (id : ClockId) (st : PllState) (evs : List BusEvent) (base : Word)
    (f : Option FieldDesc) : thenAnalog (s.setPll id st) evs base f = thenAnalog s evs base f := by
  cases f <;> rfl

/-- The poll that ends a command on a PLL (R117, R118). -/
def readyPoll (node : ClockId) (base : Word) (ready : FieldDesc) (awaited : Bool) (reached : PllState) : Poll :=
  { node := node, addr := busAddr base ready.off, mask := ready.mask, awaited := awaited,
    next := { pll := some reached } }

/-- The end that the four commands share: the enable bit, the strobe, the poll of the ready bit. -/
theorem switch_afterEvents (s : State) (evs : List BusEvent) (id : ClockId) (st : PllState) (base : Word)
    (en strobe ready : FieldDesc) (v : Nat) (awaited : Bool) (reached : PllState) :
    (((afterEvents (s.setPll id st) evs).fieldSet base en v).strobe base strobe).pollField id base ready awaited
        { pll := some reached } =
      pollAfter (s.setPll id st) (thenStrobe s (thenSet s evs base en v) base strobe)
        (readyPoll id base ready awaited reached) := by
  rw [fieldSet_afterEvents, strobe_afterEvents, pollField_afterEvents, thenSet_setPll, thenStrobe_setPll, readyPoll]

/-- The same end right after the new `pll_state`, with no access before it. -/
theorem switch_eq (s : State) (id : ClockId) (st : PllState) (base : Word) (en strobe ready : FieldDesc) (v : Nat)
    (awaited : Bool) (reached : PllState) :
    (((s.setPll id st).fieldSet base en v).strobe base strobe).pollField id base ready awaited
        { pll := some reached } =
      pollAfter (s.setPll id st) (thenStrobe s (thenSet s [] base en v) base strobe)
        (readyPoll id base ready awaited reached) := by
  simpa using switch_afterEvents s [] id st base en strobe ready v awaited reached

/-- The first access of `FPLL.ENABLE` (R144). -/
def readyRead (s : State) (n : FpllNode) : BusEvent :=
  .read (busAddr n.base n.ready.off) (s.target.answer (busAddr n.base n.ready.off))

/-- The ready read, then the analog enables in order (R144). -/
def analogEvents (s : State) (n : FpllNode) : List BusEvent :=
  thenAnalog s (thenAnalog s (thenAnalog s [readyRead s n] n.base n.bias) n.base n.bandgap) n.base n.regulator

/-- `FPLL.ENABLE` of a PLL that is locked already: one read (R144). -/
theorem fpllEnable_locked {n : FpllNode} (hreg : Registered s node flags (.fpll n))
    (hready : s.target.answer (busAddr n.base n.ready.off) &&& n.ready.mask ≠ 0) :
    exec (.fpllEnable node) s = .next
      (completed (afterEvents s [readyRead s n]) node { pll := some .locked }) := by
  simp only [exec, execFpllEnable, prologue_of_registered hreg, NodeData.fpll?, Option.map_some]
  exact if_pos hready

/-- `FPLL.ENABLE` of a PLL that is not locked: the analog enables, the enable bit, the strobe, the poll (R144). -/
theorem fpllEnable_unlocked {n : FpllNode} (hreg : Registered s node flags (.fpll n))
    (hready : ¬ s.target.answer (busAddr n.base n.ready.off) &&& n.ready.mask ≠ 0) :
    exec (.fpllEnable node) s = .next
      (pollAfter (s.setPll node .enabling)
        (thenStrobe s (thenSet s (analogEvents s n) n.base n.en 1) n.base n.strobe)
        (readyPoll node n.base n.ready true .locked)) := by
  have hread : (s.regRead n.base n.ready.off).setPll node .enabling =
      afterEvents (s.setPll node .enabling) [readyRead s n] :=
    rfl
  simp only [exec, execFpllEnable, prologue_of_registered hreg, NodeData.fpll?, Option.map_some]
  refine (if_neg hready).trans ?_
  rw [hread]
  simp only [analogEnable_afterEvents, thenAnalog_setPll, switch_afterEvents, analogEvents]

theorem dpllEnable_answers {n : DpllNode} (hreg : Registered s node flags (.dpll n)) :
    exec (.dpllEnable node) s = .next
      (pollAfter (s.setPll node .enabling) (thenStrobe s (thenSet s [] n.base n.en 1) n.base n.strobe)
        (readyPoll node n.base n.ready true .locked)) := by
  simp only [exec, execDpllEnable, prologue_of_registered hreg, NodeData.dpll?, Option.map_some, switch_eq]

theorem fpllDisable_answers {n : FpllNode} (hreg : Registered s node flags (.fpll n))
    (hcritical : flags.critical = false) :
    exec (.fpllDisable node) s = .next
      (pollAfter (s.setPll node .disabling) (thenStrobe s (thenSet s [] n.base n.en 0) n.base n.strobe)
        (readyPoll node n.base n.ready false .disabled)) := by
  simp only [exec, execFpllDisable, prologue_of_registered hreg, NodeData.fpll?, Option.map_some, hcritical,
    Bool.false_eq_true, if_false, switch_eq]

theorem dpllDisable_answers {n : DpllNode} (hreg : Registered s node flags (.dpll n))
    (hcritical : flags.critical = false) :
    exec (.dpllDisable node) s = .next
      (pollAfter (s.setPll node .disabling) (thenStrobe s (thenSet s [] n.base n.en 0) n.base n.strobe)
        (readyPoll node n.base n.ready false .disabled)) := by
  simp only [exec, execDpllDisable, prologue_of_registered hreg, NodeData.dpll?, Option.map_some, hcritical,
    Bool.false_eq_true, if_false, switch_eq]

/-! ## The shared command register -/

section
variable {n : GckNode} (hreg : Registered s node flags (.gck n))
include hreg

theorem gckEnable_answers :
    exec (.gckEnable node) s = .next (sharedOutcome s node n.port n.port.en.mask n.port.en.mask {}) := by
  simp only [exec, execGckEnable, prologue_of_registered hreg, NodeData.gck?, Option.map_some, selectThenConfigure_eq]

theorem gckDisable_answers (hcritical : flags.critical = false) :
    exec (.gckDisable node) s = .next (sharedOutcome s node n.port n.port.en.mask 0 {}) := by
  simp [exec, execGckDisable, prologue_of_registered hreg, NodeData.gck?, hcritical, selectThenConfigure_eq]

theorem gckSetParent_answers {pid : ClockId} {sel : Nat} (ha : narrowId s.a0 = some pid)
    (hsel : n.table.p2s pid = some sel) :
    exec (.gckSetParent node) s = .next
      (sharedOutcome s node n.port n.mux.mask (n.mux.place sel) { parent := some pid }) := by
  simp only [exec, execGckSetParent, prologue_of_registered hreg, NodeData.gck?, Option.map_some, ha, hsel,
    selectThenConfigure_eq]

end

section
variable {n : PeriNode} (hreg : Registered s node flags (.peri n))
include hreg

theorem periEnable_answers :
    exec (.periEnable node) s = .next (sharedOutcome s node n.port n.port.en.mask n.port.en.mask {}) := by
  simp only [exec, execPeriEnable, prologue_of_registered hreg, NodeData.peri?, Option.map_some,
    selectThenConfigure_eq]

theorem periDisable_answers (hcritical : flags.critical = false) :
    exec (.periDisable node) s = .next (sharedOutcome s node n.port n.port.en.mask 0 {}) := by
  simp [exec, execPeriDisable, prologue_of_registered hreg, NodeData.peri?, hcritical, selectThenConfigure_eq]

end

end

/-- Settles O49: the fractional PLL with its early return, then the divider PLL. -/
theorem pllEnableSequence : Obligations.PllEnableSequence := by
  refine fun s node flags => ⟨fun n hreg => enable_both hreg ?_, fun n hreg => ?_⟩
  · by_cases hready : s.target.answer (busAddr n.base n.ready.off) &&& n.ready.mask ≠ 0
    · exact (fpllEnable_locked hreg hready).trans (congrArg _ (if_pos hready).symm)
    · exact (fpllEnable_unlocked hreg hready).trans (congrArg _ (if_neg hready).symm)
  · exact enable_both hreg (dpllEnable_answers hreg)

/-- Settles O50. -/
theorem pllDisableSequence : Obligations.PllDisableSequence :=
  fun _ _ _ hcritical =>
    ⟨fun _ hreg => disable_both hreg (fpllDisable_answers hreg hcritical),
      fun _ hreg => disable_both hreg (dpllDisable_answers hreg hcritical)⟩

/-- Settles O56: every command but a critical `DISABLE` is one `SelectThenConfigure`. -/
theorem sharedRegisterCommands : Obligations.SharedRegisterCommands := by
  refine fun s node flags =>
    ⟨fun n hreg => ⟨?_, fun hcritical => ?_, fun pid sel ha hpid hsel => ?_⟩, fun n hreg => ⟨?_, fun hcritical => ?_⟩⟩
  · exact enable_both hreg (gckEnable_answers hreg)
  · exact disable_both hreg (gckDisable_answers hreg hcritical)
  · exact setParent_both hreg (gckSetParent_answers hreg (ha ▸ narrowId_setWidth hpid) hsel)
  · exact enable_both hreg (periEnable_answers hreg)
  · exact disable_both hreg (periDisable_answers hreg hcritical)

end Sys2Proof.Proofs
end

