-- ==== Sys2Proof/Proofs/MuxTranslator.lean ====
section
/-! PROOFS. The mux translator: `P2S` and `S2I` undo one another on a table without repetitions, and a `SET_PARENT` that
misses the table ends before any access (R28, R131 to R135, R179, R196, R216). -/

namespace Sys2Proof.Proofs

open Machine Laws

/-! ## The round trips -/

/-- In a list without repetitions every place is the first place of its element. -/
theorem getElem?_ne_of_lt_of_nodup {α : Type} {l : List α} {a : α} {i : Nat} (hl : l.Nodup) (hi : l[i]? = some a) :
    ∀ j < i, l[j]? ≠ some a := by
  obtain ⟨hlt, -⟩ := List.getElem?_eq_some_iff.1 hi
  exact fun j hj => hi ▸ List.nodup_iff_getElem?_ne_getElem?.1 hl j i hj hlt

/-- `P2S` and `S2I` at an entry of the table (R28, R131, R132). -/
theorem translate_entry {t : MuxTable} {i code : Nat} {pid : ClockId} (hsel : t.sel.Nodup) (hpid : t.pid.Nodup)
    (hi : t.pid[i]? = some pid) (hcode : t.sel[i]? = some code) : t.p2s pid = some code ∧ t.s2i code = some i :=
  ⟨p2s_eq_some hi (getElem?_ne_of_lt_of_nodup hpid hi) hcode,
    s2i_eq_some hcode (getElem?_ne_of_lt_of_nodup hsel hcode)⟩

/-- Lists of one length have entries at the same places. -/
theorem exists_getElem?_of_length_eq {α β : Type} {l : List α} {m : List β} {i : Nat} {a : α}
    (hlen : l.length = m.length) (hi : l[i]? = some a) : ∃ b, m[i]? = some b := by
  obtain ⟨hlt, -⟩ := List.getElem?_eq_some_iff.1 hi
  exact ⟨_, List.getElem?_eq_getElem (hlen ▸ hlt)⟩

/-- Settles O32: in both directions the place in question is an entry, with its parent and its code. -/
theorem muxRoundTrip : Obligations.MuxRoundTrip := by
  refine fun t hlen hsel hpid => ⟨fun i pid hi => ?_, fun i code hcode => ?_⟩
  · obtain ⟨code, hcode⟩ := exists_getElem?_of_length_eq hlen.symm hi
    obtain ⟨hp2s, hs2i⟩ := translate_entry hsel hpid hi hcode
    rw [hp2s, Option.bind_some, hs2i]
  · obtain ⟨pid, hi⟩ := exists_getElem?_of_length_eq hlen hcode
    obtain ⟨hp2s, hs2i⟩ := translate_entry hsel hpid hi hcode
    rw [hs2i, Option.bind_some, hi, Option.bind_some, hp2s]

/-! ## A parent that the table does not list -/

section
variable {s : State} {node : ClockId} {flags : NodeFlags}

/-- `SET_PARENT` of a kind with a mux table, where `P2S` misses (R135, R179, R196, R216). -/
theorem setParent_miss {d : NodeData} {t : MuxTable} {pid : ClockId} (hreg : Registered s node flags d)
    (ht : d.table? = some t) (ha : narrowId s.a0 = some pid) (hmiss : t.p2s pid = none) :
    exec (setParentOf d.kind node) s = .next (s.raise .unknownParent) := by
  cases d with
  | mck n =>
    cases ht
    simp only [setParentOf, NodeData.kind, exec, execMckSetParent, prologue_of_registered hreg, NodeData.mck?,
      Option.map_some, ha, hmiss]
  | gck n =>
    cases ht
    simp only [setParentOf, NodeData.kind, exec, execGckSetParent, prologue_of_registered hreg, NodeData.gck?,
      Option.map_some, ha, hmiss]
  | prog n =>
    cases ht
    simp only [setParentOf, NodeData.kind, exec, execProgSetParent, prologue_of_registered hreg, NodeData.prog?,
      Option.map_some, ha, hmiss]
  | fpll n | dpll n | peri n | osc n => simp [NodeData.table?] at ht

end

/-- Settles O60: the error is raised in the state the command found. -/
theorem setParentMissIsAtomic : Obligations.SetParentMissIsAtomic := by
  intro s node flags d t pid hreg ht ha hpid hmem
  have ha' : narrowId s.a0 = some pid := ha ▸ narrowId_setWidth hpid
  exact setParent_both hreg (setParent_miss hreg ht ha' (p2s_eq_none hmem))

end Sys2Proof.Proofs
end

