-- ==== Sys2Proof/Proofs/FracPllSetting.lean ====
section
/-! PROOFS. The fractional PLL's setting for a target, and how near its rate comes to it (R141, R149). -/

namespace Sys2Proof.Proofs

open Machine

theorem roundDiv_zero {b : Nat} (hb : 0 < b) : roundDiv 0 b = 0 := Nat.div_eq_of_lt (by omega)

/-- Rounding does not go past a whole number. -/
theorem roundDiv_le_of_le_mul {a b m : Nat} (hb : 0 < b) (h : a ≤ m * b) : roundDiv a b ≤ m := by
  rw [roundDiv, ← Nat.lt_add_one_iff, Nat.div_lt_iff_lt_mul (by omega)]
  calc 2 * a + b < 2 * (m * b) + 2 * b := by omega
    _ = (m + 1) * (2 * b) := by ring

theorem absDiff_add_left (k a b : Nat) : absDiff (k + a) (k + b) = absDiff a b := by
  simp only [absDiff]
  omega

theorem fpllCompute_mul (p t : Nat) : (fpllCompute p t).mul = t / p := rfl

/-- The fraction is the remainder in units of `p / 2^22`, rounded; a zero remainder is no case of its own. -/
theorem fpllCompute_frac {p : Nat} (t : Nat) (hp : 0 < p) :
    (fpllCompute p t).frac = roundDiv (t % p * 2 ^ 22) p := by
  have hrem : t - t / p * p = t % p := by rw [Nat.mod_eq_sub_div_mul]
  simp only [fpllCompute, hrem]
  split
  next hzero => rw [hzero, Nat.zero_mul, roundDiv_zero hp]
  next => rfl

theorem fpllCompute_achieved (p t : Nat) :
    (fpllCompute p t).achieved =
      p * (fpllCompute p t).mul + roundDiv (p * (fpllCompute p t).frac) (2 ^ 22) :=
  rfl

theorem fpllCompute_frac_le {p : Nat} (t : Nat) (hp : 0 < p) : (fpllCompute p t).frac ≤ 2 ^ 22 := by
  rw [fpllCompute_frac t hp, Nat.mul_comm]
  exact roundDiv_le_of_le_mul hp (Nat.mul_le_mul_left _ (Nat.mod_lt t hp).le)

/-- Two roundings, each off by at most half its unit: the first has the unit `p / 2^22`, the second the unit 1. -/
theorem absDiff_roundDiv_fraction_le {p : Nat} (x : Nat) (hp : 0 < p) :
    2 ^ 23 * absDiff (roundDiv (p * roundDiv (x * 2 ^ 22) p) (2 ^ 22)) x ≤ p + 2 ^ 22 := by
  have hfracLe := roundDiv_mul_le (x * 2 ^ 22) p
  have hfracGt := lt_roundDiv_mul (x * 2 ^ 22) p hp
  rw [Nat.mul_comm _ p] at hfracLe hfracGt
  have hrateLe := roundDiv_mul_le (p * roundDiv (x * 2 ^ 22) p) (2 ^ 22)
  have hrateGt := lt_roundDiv_mul (p * roundDiv (x * 2 ^ 22) p) (2 ^ 22) (by decide)
  simp only [absDiff]
  omega

/-- The error of the achieved rate is that of the remainder: the whole multiple is exact. -/
theorem absDiff_fpllCompute_achieved_le {p : Nat} (t : Nat) (hp : 0 < p) :
    2 ^ 23 * absDiff (fpllCompute p t).achieved t ≤ p + 2 ^ 22 := by
  calc 2 ^ 23 * absDiff (fpllCompute p t).achieved t
      = 2 ^ 23 * absDiff (p * (t / p) + roundDiv (p * roundDiv (t % p * 2 ^ 22) p) (2 ^ 22))
          (p * (t / p) + t % p) := by
        rw [fpllCompute_achieved, fpllCompute_frac t hp, fpllCompute_mul, Nat.div_add_mod]
    _ ≤ p + 2 ^ 22 := by
        rw [absDiff_add_left]
        exact absDiff_roundDiv_fraction_le _ hp

theorem eq_of_absDiff_eq_zero {a b : Nat} (h : absDiff a b = 0) : a = b := by
  simp only [absDiff] at h
  omega

/-- Settles O28: the last two clauses are the bound for a step `parentRate / 2^22` below 1 Hz and from 1 Hz on. -/
theorem fracPllQuantisation : Obligations.FracPllQuantisation := by
  intro p t hp
  have hbound := absDiff_fpllCompute_achieved_le t hp
  refine ⟨fpllCompute_mul p t, ?_, fpllCompute_frac_le t hp, fpllCompute_achieved p t, hbound, fun hsmall => ?_,
    fun hlarge => ?_⟩
  · rw [fpllCompute_frac t hp, roundDiv, Nat.mul_comm 2 (_ * _)]
  · exact eq_of_absDiff_eq_zero (by omega)
  · omega

end Sys2Proof.Proofs
end

