-- ==== Sys2Proof/Proofs/PllRates.lean ====
section
/-! PROOFS. `GET_RATE` of the two PLL kinds, and `FPLL.SET_RATE` of an accepted target, access by access, directly and
through the dispatch commands (R142, R147, R166, R240, R241). -/

namespace Sys2Proof.Proofs

open Machine Laws

section
variable {s s₁ : State} {node : ClockId} {flags : NodeFlags} {r : Nat}

/-! ## Rate queries of a registered node -/

/-- What `GET_RATE` of the kind answers, the dispatch command answers too (R241). -/
theorem getRate_both {d : NodeData} {o : Outcome} (hreg : Registered s node flags d)
    (h : exec (getRateOf d.kind node) s = o) : ∀ i ∈ [getRateOf d.kind node, .getRate node], exec i s = o := by
  have hdispatch : exec (.getRate node) s = exec (getRateOf d.kind node) s := by
    simp only [exec, execGetRate, dispatchKind_of_registered hreg]
    cases d <;> rfl
  simp [hdispatch, h]

/-- `GET_RATE` of a node whose parent answers is the kind's readback from there (R240). -/
theorem getRate_of_parentRate {d : NodeData} {p : ClockId} (hreg : Registered s node flags d)
    (hp : d.parent? = some p) (hrate : s.rate p = (s₁, .ok r)) :
    exec (getRateOf d.kind node) s = State.rateResult (readback d r s₁) := by
  cases d with
  | fpll n =>
    cases hp
    simp only [getRateOf, NodeData.kind, exec, execFpllGetRate, prologue_of_registered hreg, NodeData.fpll?,
      Option.map_some, withRate_of_rate hrate, readback]
  | dpll n =>
    cases hp
    simp only [getRateOf, NodeData.kind, exec, execDpllGetRate, prologue_of_registered hreg, NodeData.dpll?,
      Option.map_some, withRate_of_rate hrate, readback]
  | mck n =>
    cases hp
    simp only [getRateOf, NodeData.kind, exec, execMckGetRate, prologue_of_registered hreg, NodeData.mck?,
      Option.map_some, withRate_of_rate hrate, readback]
  | gck n =>
    cases hp
    simp only [getRateOf, NodeData.kind, exec, execGckGetRate, prologue_of_registered hreg, NodeData.gck?,
      Option.map_some, withRate_of_rate hrate, readback]
  | peri n =>
    cases hp
    simp only [getRateOf, NodeData.kind, exec, execPeriGetRate, prologue_of_registered hreg, NodeData.peri?,
      Option.map_some, hrate, readback]
  | prog n =>
    cases hp
    simp only [getRateOf, NodeData.kind, exec, execProgGetRate, prologue_of_registered hreg, NodeData.prog?,
      Option.map_some, withRate_of_rate hrate, readback]
  | osc n => simp [NodeData.parent?] at hp

/-! ## The readbacks of the two PLL kinds, as events -/

theorem fieldGet_eq (s : State) (base : Word) (f : FieldDesc) :
    s.fieldGet base f = afterEvents s (readEvents s [] base [f.off]) :=
  rfl

/-- The two fields of the fractional PLL, and the test that their rate fits 64 bits (R147). -/
theorem rateResult_fpllReadback (n : FpllNode) (r : Nat) (s : State) :
    let evs := readEvents s [] n.base (distinctOffs [n.mul, n.frac])
    let rate := fpllRate r (fieldIn evs n.base n.mul) (fieldIn evs n.base n.frac)
    State.rateResult (fpllReadback n r s) = .next
      (if rate ≥ 2 ^ 64 then failedWith (afterEvents s evs) 4
      else succeeded (afterEvents s evs) (BitVec.ofNat 64 rate) 0) := by
  simp only [fpllReadback, getFrom_fieldsValue, fieldsGet_eq]
  split
  · rfl
  · rfl

/-- The divider field of the divider PLL (R166). -/
theorem rateResult_dpllReadback (n : DpllNode) (r : Nat) (s : State) :
    let evs := readEvents s [] n.base [n.div.off]
    State.rateResult (dpllReadback n r s) = .next
      (succeeded (afterEvents s evs) (BitVec.ofNat 64 (rdiv s.params.rdiv r (fieldIn evs n.base n.div + 1))) 0) := by
  simp only [dpllReadback, fieldValue_eq, fieldGet_eq]
  rfl

/-! ## The programming of the fractional PLL, as events -/

/-- Steps (7) to (11) of `FPLL.SET_RATE` (R142). -/
theorem fpllProgram_eq (node : ClockId) (n : FpllNode) (c : FpllSetting) (s : State) :
    let reads := readEvents s [] n.base (distinctOffs [n.mul, n.frac, n.en])
    let evs := thenStrobe s (updateAllEvents s reads n.base [(n.mul, c.mul), (n.frac, c.frac)]) n.base n.strobe
    fpllProgram node n c s =
      if fieldIn reads n.base n.mul = c.mul ∧ fieldIn reads n.base n.frac = c.frac then
        succeeded (afterEvents s reads) (BitVec.ofNat 64 c.achieved) 0
      else if fieldIn reads n.base n.en = 1 then
        pollAfter s evs
          { node := node, addr := busAddr n.base n.ready.off, mask := n.ready.mask, awaited := true,
            next := { r0 := BitVec.ofNat 64 c.achieved } }
      else succeeded (afterEvents s evs) (BitVec.ofNat 64 c.achieved) 0 := by
  simp only [fpllProgram, getFrom_fieldsValue, fieldsGet_eq, fieldsSet_afterEvents, strobe_afterEvents,
    pollField_afterEvents]
  rfl

end

/-- Settles O40: the parent's rate, then the kind's own fields. -/
theorem pllGetRate : Obligations.PllGetRate := by
  refine fun s s₁ node flags r => ⟨fun n hreg hrate => ?_, fun n hreg hrate => ?_⟩
  · exact getRate_both hreg ((getRate_of_parentRate hreg rfl hrate).trans (rateResult_fpllReadback n r s₁))
  · exact getRate_both hreg ((getRate_of_parentRate hreg rfl hrate).trans (rateResult_dpllReadback n r s₁))

/-- Settles O51: an accepted target passes every check, and what is left is steps (7) to (11). -/
theorem fpllSetRateResult : Obligations.FpllSetRateResult := by
  intro s s₁ node flags n r hreg ha hrange hrate hr c hfrac hmul hachieved
  have hfits : c.fits n = true := by
    simp only [FpllSetting.fits, hfrac, hmul, hachieved, decide_true, Bool.and_self]
  have hzero : s.a0.toNat ≠ 0 := fun h => ha (BitVec.eq_of_toNat_eq h)
  have hprogram := fpllSetRate_of_accepts hreg hrate ⟨hzero, hrange, hr, hfits⟩
  exact setRate_both hreg (hprogram.trans (congrArg _ (fpllProgram_eq node n c s₁)))

end Sys2Proof.Proofs
end

