-- ==== Sys2Proof/Proofs/DivPllSetting.lean ====
section
/-! PROOFS. The divider PLL's divisor for a target, and how near its rate comes to it (R161, R163). -/

namespace Sys2Proof.Proofs

open Machine

/-- `rdiv(a, b)` is at most half a unit above `a / b`, whatever `RDIV` is. -/
theorem rdiv_mul_le (mode : RoundMode) (a b : Nat) : 2 * (rdiv mode a b * b) ≤ 2 * a + b := by
  cases mode with
  | floor =>
    have hfloor : a / b * b ≤ a := Nat.div_mul_le_self a b
    simp only [rdiv]
    omega
  | nearest => exact roundDiv_mul_le a b

/-- `rdiv(a, b)` is less than a unit below `a / b`, whatever `RDIV` is. -/
theorem lt_rdiv_mul (mode : RoundMode) (a b : Nat) (hb : 0 < b) : a < rdiv mode a b * b + b := by
  cases mode with
  | floor => exact Nat.lt_div_mul_add hb
  | nearest =>
    have hround := lt_roundDiv_mul a b hb
    simp only [rdiv]
    omega

theorem absDiff_mul_right (a b k : Nat) : absDiff a b * k = absDiff (a * k) (b * k) := by
  rw [absDiff, absDiff, Nat.sub_mul, Nat.mul_max_mul_right, Nat.mul_min_mul_right]

/-- Settles O29: in units of `1 / (2q)`, the parent's rate over `q` is off by at most `target` for the rounding of the
divisor (R161), and the achieved rate by less than `2q` more for the division. -/
theorem divPllErrorBound : Obligations.DivPllErrorBound := by
  intro mode p t ht q hq
  have hdivisorLe : 2 * (q * t) ≤ 2 * p + t := roundDiv_mul_le p t
  have hdivisorGt : 2 * p < 2 * (q * t) + t := lt_roundDiv_mul p t ht
  have hrateLe : 2 * (rdiv mode p q * q) ≤ 2 * p + q := rdiv_mul_le mode p q
  have hrateGt : p < rdiv mode p q * q + q := lt_rdiv_mul mode p q hq
  calc absDiff (rdiv mode p q) t * (2 * q)
      = 2 * absDiff (rdiv mode p q * q) (q * t) := by
        rw [Nat.mul_left_comm, absDiff_mul_right, Nat.mul_comm t q]
    _ < t + 2 * q := by
        simp only [absDiff]
        omega

end Sys2Proof.Proofs
end

