-- ==== Sys2Proof/Proofs/DivPllSetRate.lean ====
section
/-! PROOFS. `DPLL.SET_RATE` of an accepted target, access by access, directly and through the dispatch command (R161,
R162, R241). -/

namespace Sys2Proof.Proofs

open Machine Laws

/-- Steps (6) to (10) of `DPLL.SET_RATE` (R162). -/
theorem dpllProgram_eq (node : ClockId) (n : DpllNode) (div achieved : Nat) (s : State) :
    let reads := readEvents s [] n.base (distinctOffs [n.div, n.en])
    let evs := thenStrobe s (thenSet s reads n.base n.div div) n.base n.strobe
    dpllProgram node n div achieved s =
      if fieldIn reads n.base n.div = div then succeeded (afterEvents s reads) (BitVec.ofNat 64 achieved) 0
      else if fieldIn reads n.base n.en = 1 then
        pollAfter s evs
          { node := node, addr := busAddr n.base n.ready.off, mask := n.ready.mask, awaited := true,
            next := { r0 := BitVec.ofNat 64 achieved } }
      else succeeded (afterEvents s evs) (BitVec.ofNat 64 achieved) 0 := by
  simp only [dpllProgram, getFrom_fieldsValue, fieldsGet_eq, fieldSet_afterEvents, strobe_afterEvents,
    pollField_afterEvents]
  rfl

/-- Settles O52: an accepted target passes every check, and what is left is steps (6) to (10). The rate query keeps
`RDIV`, so the achieved rate is the same from either state. -/
theorem dpllSetRateResult : Obligations.DpllSetRateResult := by
  intro s s₁ node flags n r hreg ha hrate q hq hfits achieved hrange
  have hparams : s₁.params = s.params := rate_params hrate
  have hzero : s.a0.toNat ≠ 0 := fun h => ha (BitVec.eq_of_toNat_eq h)
  have hprogram : exec (.dpllSetRate node) s = .next (dpllProgram node n (q - 1) achieved s₁) := by
    simpa only [q, achieved, hparams] using
      dpllSetRate_of_accepts hreg hrate ⟨hzero, hq, hfits, hparams ▸ hrange⟩
  exact setRate_both hreg (hprogram.trans (congrArg _ (dpllProgram_eq node n (q - 1) achieved s₁)))

end Sys2Proof.Proofs
end

