-- ==== Sys2Proof/Proofs/Progress.lean ====
section
/-! PROOFS. Progress: on a table that registration made, every step has a next state (R176, R232, R240). -/

namespace Sys2Proof.Proofs

open Machine

/-- Settles O15: the invariant gives every entry its checks, under which each rate query answers and each command ends,
so that the step goes on wherever the engine stands (`step_goesOn`). -/
theorem stepNeverStops : Obligations.StepNeverStops := by
  intro s hs
  obtain ⟨htable, -⟩ := (nodesOk_iff s).1 hs
  exact step_goesOn htable

end Sys2Proof.Proofs
end

