-- ==== Sys2Proof/Proofs/ClockRates.lean ====
section
/-! PROOFS. `GET_RATE` of master, generic, peripheral and programmable clocks and of oscillators, access by access,
directly and through the dispatch command (R175, R176, R197, R201, R220, R235, R240, R241). -/

namespace Sys2Proof.Proofs

open Machine Laws

/-! ## The readbacks, as events -/

theorem mckDivisor_eq_some {n : MckNode} {m d : Nat} (hd : n.divtab[m]? = some d) (hpos : 1 ≤ d) :
    mckDivisor n m = some d := by
  simp [mckDivisor, hd, hpos]

/-- The prescaler and divider fields of the master clock, whose code has a divisor (R176). -/
theorem rateResult_mckReadback (n : MckNode) (r : Nat) (s : State) :
    let evs := readEvents s [] n.base (distinctOffs [n.pres, n.mdiv])
    ∀ d, mckDivisor n (fieldIn evs n.base n.mdiv) = some d →
      State.rateResult (mckReadback n r s) = .next
        (succeeded (afterEvents s evs)
          (BitVec.ofNat 64
            (rdiv s.params.rdiv (rdiv s.params.rdiv r (mckPrescale n (fieldIn evs n.base n.pres))) d)) 0) := by
  intro evs d hd
  simp only [mckReadback, getFrom_fieldsValue, fieldsGet_eq]
  rw [hd]
  rfl

/-- The select of the generic clock's ID, then one read (R197). -/
theorem rateResult_gckReadback (n : GckNode) (r : Nat) (s : State) :
    let c := busAddr n.port.base n.port.idsel.off
    let select := BusEvent.write c (n.port.idsel.place n.port.hwId)
    let v := readAfter s [select] c
    State.rateResult (gckReadback n r s) = .next
      (succeeded (afterEvents s [select, .read c v])
        (BitVec.ofNat 64 (rdiv s.params.rdiv r (n.div.extract v + 1))) 0) := by
  simp only [gckReadback, selectAndRead_eq]
  rfl

theorem progRate_eq (mode : RoundMode) (n : ProgNode) (r v : Nat) :
    progRate mode n r v = if n.mode = .direct then rdiv mode r (v + 1) else r >>> v := by
  unfold progRate
  cases n.mode <;> rfl

/-- The prescaler field of the programmable clock (R220). -/
theorem rateResult_progReadback (n : ProgNode) (r : Nat) (s : State) :
    let evs := readEvents s [] n.base [n.pres.off]
    State.rateResult (progReadback n r s) = .next
      (succeeded (afterEvents s evs)
        (BitVec.ofNat 64 (progRate s.params.rdiv n r (fieldIn evs n.base n.pres))) 0) := by
  simp only [progReadback, fieldValue_eq, fieldGet_eq]
  rfl

/-- An oscillator's rate is fixed (R235). -/
theorem oscGetRate_answers {s : State} {node : ClockId} {flags : NodeFlags} {n : OscNode}
    (hreg : Registered s node flags (.osc n)) :
    exec (.oscGetRate node) s = .next (succeeded s (BitVec.ofNat 64 n.fixedRate) 0) := by
  simp only [exec, execOscGetRate, prologue_of_registered hreg, NodeData.osc?, Option.map_some]
  rfl

/-- Settles O41: the parent's rate, then the kind's own readback; an oscillator has no parent. -/
theorem clockGetRate : Obligations.ClockGetRate := by
  refine fun s s₁ node flags r =>
    ⟨fun n hreg hrate => ?mck, fun n hreg hrate => ?gck, fun n hreg hrate => ?peri, fun n hreg hrate => ?prog,
      fun n hreg => ?osc⟩
  case mck =>
    intro evs p d hd hpos
    exact getRate_both hreg ((getRate_of_parentRate hreg rfl hrate).trans
      (rateResult_mckReadback n r s₁ d (mckDivisor_eq_some hd hpos)))
  case gck =>
    exact getRate_both hreg ((getRate_of_parentRate hreg rfl hrate).trans (rateResult_gckReadback n r s₁))
  case peri => exact getRate_both hreg (getRate_of_parentRate hreg rfl hrate)
  case prog =>
    intro evs v
    rw [← progRate_eq]
    exact getRate_both hreg ((getRate_of_parentRate hreg rfl hrate).trans (rateResult_progReadback n r s₁))
  case osc => exact getRate_both hreg (oscGetRate_answers hreg)

end Sys2Proof.Proofs
end

