-- ==== Sys2Proof/Proofs/MasterClock.lean ====
section
/-! PROOFS. The master clock's `ENABLE`, `DISABLE` and `SET_PARENT`, access by access, directly and through the dispatch
commands (R177, R178, R179, R241). -/

namespace Sys2Proof.Proofs

open Machine Laws

/-- Some events, then a strobe where the layout has the bit (R179). -/
def thenStrobeOptional (s : State) (evs : List BusEvent) (base : Word) : Option FieldDesc → List BusEvent
  | none => evs
  | some f => thenStrobe s evs base f

theorem strobeOptional_afterEvents (s : State) (evs : List BusEvent) (base : Word) (f : Option FieldDesc) :
    (afterEvents s evs).strobeOptional base f = afterEvents s (thenStrobeOptional s evs base f) := by
  cases f with
  | none => rfl
  | some f => exact strobe_afterEvents s evs base f

section
variable {s : State} {node : ClockId} {flags : NodeFlags} {n : MckNode} (hreg : Registered s node flags (.mck n))
include hreg

theorem mckEnable_answers : exec (.mckEnable node) s = .next (succeeded s 0 0) := by
  simp only [exec, execMckEnable, prologue_of_registered hreg, NodeData.mck?, Option.map_some]
  rfl

/-- `DISABLE` of a node that is critical or cannot be disabled (R178). -/
theorem mckDisable_kept (h : flags.critical = true ∨ n.canDisable = false) :
    exec (.mckDisable node) s = .next (succeeded s 0 0) := by
  simp only [exec, execMckDisable, prologue_of_registered hreg, NodeData.mck?, Option.map_some]
  split
  · rfl
  next hcritical => exact if_neg (by simp [h.resolve_left hcritical])

/-- `DISABLE` clears the gate bit (R178). -/
theorem mckDisable_clears (hcritical : flags.critical = false) (hcan : n.canDisable = true) {f : FieldDesc}
    (hf : n.sysen = some f) :
    exec (.mckDisable node) s = .next (succeeded (afterEvents s (thenSet s [] n.base f 0)) 0 0) := by
  have hclear : s.clearSysen n = afterEvents s (thenSet s [] n.base f 0) := by
    simpa [State.clearSysen, hf] using fieldSet_afterEvents s [] n.base f 0
  simp only [exec, execMckDisable, prologue_of_registered hreg, NodeData.mck?, Option.map_some, hcritical, hcan, hclear,
    Bool.false_eq_true, if_false, if_true]
  rfl

/-- `SET_PARENT`: the mux field, the strobe where there is one, the poll (R179). -/
theorem mckSetParent_answers {pid : ClockId} {sel : Nat} (ha : narrowId s.a0 = some pid)
    (hsel : n.table.p2s pid = some sel) :
    exec (.mckSetParent node) s = .next
      (pollAfter s (thenStrobeOptional s (thenSet s [] n.base n.mux sel) n.base n.strobe)
        { node := node, addr := busAddr n.base n.ready.off, mask := n.ready.mask, awaited := true,
          next := { parent := some pid } }) := by
  have hset : s.fieldSet n.base n.mux sel = afterEvents s (thenSet s [] n.base n.mux sel) := by
    simpa using fieldSet_afterEvents s [] n.base n.mux sel
  simp only [exec, execMckSetParent, prologue_of_registered hreg, NodeData.mck?, Option.map_some, ha, hsel, hset,
    strobeOptional_afterEvents, pollField_afterEvents]

end

/-- Settles O55: each command's answer, on the node's own opcode and on the dispatch command's. -/
theorem mckCommands : Obligations.MckCommands := by
  refine fun s node flags n hreg => ⟨?enable, fun i hi => ⟨fun h => ?kept, fun hcritical hcan f hf => ?clears⟩,
    fun pid sel ha hpid hsel => ?setParent⟩
  case enable => exact enable_both hreg (mckEnable_answers hreg)
  case kept => exact disable_both hreg (mckDisable_kept hreg h) i hi
  case clears => exact disable_both hreg (mckDisable_clears hreg hcritical hcan hf) i hi
  case setParent => exact setParent_both hreg (mckSetParent_answers hreg (ha ▸ narrowId_setWidth hpid) hsel)

end Sys2Proof.Proofs
end

