-- ==== Sys2Proof/Proofs/GenericClockSearch.lean ====
section
/-! PROOFS. The generic clock's search (R193, R194): what one parent's scan can do, and that the scans of all parents
together find the nearest rate. -/

namespace Sys2Proof.Proofs

open Machine

/-! ## The rates of one parent -/

theorem rdiv_le {mode : RoundMode} {a b : Nat} (hb : 1 ≤ b) : rdiv mode a b ≤ a := by
  cases mode with
  | floor => exact Nat.div_le_self a b
  | nearest => exact roundDiv_le_of_le_mul hb (Nat.le_mul_of_pos_right a hb)

/-- A larger divisor gives no higher rate (R194). -/
theorem rdiv_succ_le (mode : RoundMode) (a : Nat) {d : Nat} (hd : 1 ≤ d) : rdiv mode a (d + 1) ≤ rdiv mode a d := by
  cases mode with
  | floor => exact Nat.div_le_div_left (Nat.le_succ d) hd
  | nearest =>
    have hround : 2 * (roundDiv a (d + 1) * (d + 1)) ≤ 2 * a + (d + 1) := roundDiv_mul_le a (d + 1)
    rcases Nat.eq_zero_or_pos (roundDiv a (d + 1)) with hzero | hpos
    · simp [rdiv, hzero]
    · refine (Nat.le_div_iff_mul_le (by omega)).2 ?_
      have hexpand : roundDiv a (d + 1) * (d + 1) = roundDiv a (d + 1) * d + roundDiv a (d + 1) := Nat.mul_succ _ d
      have hassoc : roundDiv a (d + 1) * (2 * d) = 2 * (roundDiv a (d + 1) * d) := Nat.mul_left_comm _ 2 d
      simp only [rdiv] at *
      omega

theorem rdiv_antitone (mode : RoundMode) (a : Nat) {d k : Nat} (hd : 1 ≤ d) (hdk : d ≤ k) :
    rdiv mode a k ≤ rdiv mode a d := by
  induction k, hdk using Nat.le_induction with
  | base => exact le_rfl
  | succ k hdk ih => exact (rdiv_succ_le mode a (hd.trans hdk)).trans ih

/-- Where the scan leaves a parent, no later divisor comes nearer to the target (R194 (e), R292). -/
theorem absDiff_le_of_exit {mode : RoundMode} {target a d k : Nat} (hd : 1 ≤ d) (hdk : d ≤ k)
    (hexit : absDiff target (rdiv mode a d) = 0 ∨ rdiv mode a d < target) :
    absDiff target (rdiv mode a d) ≤ absDiff target (rdiv mode a k) := by
  have hle : rdiv mode a k ≤ rdiv mode a d := rdiv_antitone mode a hd hdk
  simp only [absDiff] at *
  omega

/-! ## Improvements -/

theorem improves_some (b : Candidate) (x : Nat) : improves (some b) x = true ↔ x < b.diff := by simp [improves]

theorem not_improves_some (b : Candidate) (x : Nat) : improves (some b) x = false ↔ b.diff ≤ x := by simp [improves]

theorem improves_of_le {best : Option Candidate} {x y : Nat} (h : improves best x = true) (hyx : y ≤ x) :
    improves best y = true := by
  cases best with
  | none => rfl
  | some b =>
    rw [improves_some] at *
    omega

theorem lt_of_improves {best : Option Candidate} {x y : Nat} (hx : improves best x = false)
    (hy : improves best y = true) : y < x :=
  Nat.lt_of_not_le fun hxy => by simp [improves_of_le hy hxy] at hx

/-! ## One parent's scan -/

/-- The candidate of a parent and a divisor. -/
def candidateAt (mode : RoundMode) (target : Nat) (p : ClockId × Nat) (d : Nat) : Candidate :=
  { diff := absDiff target (rdiv mode p.2 d), pid := p.1, div := d, rate := rdiv mode p.2 d }

/-- The divisor `k` is the first nearest of a parent's divisors from `d` up to below `stop`. -/
def FirstNearest (mode : RoundMode) (target a d stop k : Nat) : Prop :=
  d ≤ k ∧ k < stop ∧ (∀ j, d ≤ j → j < k → absDiff target (rdiv mode a k) < absDiff target (rdiv mode a j)) ∧
    ∀ j, d ≤ j → j < stop → absDiff target (rdiv mode a k) ≤ absDiff target (rdiv mode a j)

/-- What the scan of a parent's divisors from `d` up to below `stop` comes to, the divisors behind an early exit
included: the best candidate so far, or the first nearest of them where it is strictly nearer. -/
inductive Scanned (mode : RoundMode) (target : Nat) (p : ClockId × Nat) (d stop : Nat) (best : Option Candidate) :
    Option Candidate → Prop
  | kept (h : ∀ k, d ≤ k → k < stop → improves best (absDiff target (rdiv mode p.2 k)) = false) :
      Scanned mode target p d stop best best
  | replaced (k : Nat) (hk : FirstNearest mode target p.2 d stop k)
      (h : improves best (absDiff target (rdiv mode p.2 k)) = true) :
      Scanned mode target p d stop best (some (candidateAt mode target p k))

section
variable {mode : RoundMode} {target : Nat} {p : ClockId × Nat} {d stop : Nat} {best result : Option Candidate}

/-- Divisor `d` is no improvement, and the scan goes on behind it. -/
theorem scanned_of_not_improves (hd : improves best (absDiff target (rdiv mode p.2 d)) = false)
    (h : Scanned mode target p (d + 1) stop best result) : Scanned mode target p d stop best result := by
  cases h with
  | kept h =>
    refine .kept fun k hk hstop => ?_
    rcases hk.eq_or_lt with rfl | hk
    · exact hd
    · exact h k hk hstop
  | replaced k hk h =>
    obtain ⟨hdk, hstop, hfirst, hleast⟩ := hk
    have hlt := lt_of_improves hd h
    refine .replaced k ⟨by omega, hstop, fun j hj hjk => ?_, fun j hj hjs => ?_⟩ h
    · rcases hj.eq_or_lt with rfl | hj
      · exact hlt
      · exact hfirst j hj hjk
    · rcases hj.eq_or_lt with rfl | hj
      · exact hlt.le
      · exact hleast j hj hjs

/-- Divisor `d` is an improvement, and the scan goes on behind it with that candidate. -/
theorem scanned_of_improves (hds : d < stop) (hd : improves best (absDiff target (rdiv mode p.2 d)) = true)
    (h : Scanned mode target p (d + 1) stop (some (candidateAt mode target p d)) result) :
    Scanned mode target p d stop best result := by
  cases h with
  | kept h =>
    have hbehind (k : Nat) (hk : d + 1 ≤ k) (hks : k < stop) :
        absDiff target (rdiv mode p.2 d) ≤ absDiff target (rdiv mode p.2 k) :=
      (not_improves_some _ _).1 (h k hk hks)
    refine .replaced d ⟨le_rfl, hds, fun j hj hjd => by omega, fun j hj hjs => ?_⟩ hd
    rcases hj.eq_or_lt with rfl | hj
    · exact le_rfl
    · exact hbehind j hj hjs
  | replaced k hk h =>
    obtain ⟨hdk, hstop, hfirst, hleast⟩ := hk
    have hlt : absDiff target (rdiv mode p.2 k) < absDiff target (rdiv mode p.2 d) := (improves_some _ _).1 h
    refine .replaced k ⟨by omega, hstop, fun j hj hjk => ?_, fun j hj hjs => ?_⟩ (improves_of_le hd hlt.le)
    · rcases hj.eq_or_lt with rfl | hj
      · exact hlt
      · exact hfirst j hj hjk
    · rcases hj.eq_or_lt with rfl | hj
      · exact hlt.le
      · exact hleast j hj hjs

/-- Nothing behind an early exit would improve on the candidate there. -/
theorem scanned_of_exit (h : ∀ k, d ≤ k → improves best (absDiff target (rdiv mode p.2 k)) = false) :
    Scanned mode target p d stop best best :=
  .kept fun k hk _ => h k hk

end

/-- The inner loop of the search (R193), early exits included. -/
theorem gckScan_scanned (mode : RoundMode) (target : Nat) (p : ClockId × Nat) (fuel : Nat) {d : Nat} (hd : 1 ≤ d)
    (best : Option Candidate) :
    Scanned mode target p d (d + fuel) best (gckScan mode target p.2 p.1 fuel d best) := by
  induction fuel generalizing d best with
  | zero => exact .kept fun k hk hks => by omega
  | succ fuel ih =>
    have hbehind (best' : Option Candidate)
        (hbest : improves best' (absDiff target (rdiv mode p.2 d)) = false) :
        Scanned mode target p (d + 1) (d + (fuel + 1)) best'
          (if absDiff target (rdiv mode p.2 d) = 0 ∨ rdiv mode p.2 d < target then best'
          else gckScan mode target p.2 p.1 fuel (d + 1) best') := by
      split
      next hexit =>
        refine scanned_of_exit fun k hk => Bool.eq_false_iff.2 fun himp => ?_
        have hle := absDiff_le_of_exit hd (Nat.le_of_succ_le hk) hexit
        exact absurd (lt_of_improves hbest himp) (Nat.not_lt.2 hle)
      next => simpa only [Nat.add_assoc, Nat.add_comm 1] using ih (Nat.le_add_left 1 d) best'
    rw [gckScan]
    by_cases himp : improves best (absDiff target (rdiv mode p.2 d)) = true
    · rw [if_pos himp]
      exact scanned_of_improves (by omega) himp (hbehind _ ((not_improves_some _ _).2 le_rfl))
    · rw [if_neg himp]
      have hnot := Bool.eq_false_iff.2 himp
      exact scanned_of_not_improves hnot (hbehind best hnot)

/-! ## All parents -/

/-- The candidate is the nearest rate of all the parents and the divisors 1 to 256, ties to the earliest parent, then
to the smallest divisor. -/
def NearestOf (mode : RoundMode) (target : Nat) (ps : List (ClockId × Nat)) (b : Candidate) : Prop :=
  ∃ p before after, ps = before ++ p :: after ∧ b = candidateAt mode target p b.div ∧
    FirstNearest mode target p.2 1 257 b.div ∧
    (∀ p' ∈ before, ∀ d, 1 ≤ d → d < 257 → b.diff < absDiff target (rdiv mode p'.2 d)) ∧
    ∀ p' ∈ after, ∀ d, 1 ≤ d → d < 257 → b.diff ≤ absDiff target (rdiv mode p'.2 d)

theorem nearestOf_le {mode : RoundMode} {target : Nat} {ps : List (ClockId × Nat)} {b : Candidate}
    (h : NearestOf mode target ps b) :
    ∀ p ∈ ps, ∀ d, 1 ≤ d → d < 257 → b.diff ≤ absDiff target (rdiv mode p.2 d) := by
  obtain ⟨p, before, after, rfl, hb, ⟨-, -, -, hleast⟩, hbefore, hafter⟩ := h
  intro p' hp' d hd hd'
  rcases List.mem_append.1 hp' with hp' | hp'
  · exact (hbefore p' hp' d hd hd').le
  rcases List.mem_cons.1 hp' with rfl | hp'
  · rw [hb]
    exact hleast d hd hd'
  · exact hafter p' hp' d hd hd'

theorem bestOf_concat (mode : RoundMode) (target : Nat) (ps : List (ClockId × Nat)) (p : ClockId × Nat) :
    bestOf mode target (ps ++ [p]) = gckScan mode target p.2 p.1 Config.gckDivMax 1 (bestOf mode target ps) := by
  simp [bestOf]

/-- One parent more. -/
theorem nearestOf_concat {mode : RoundMode} {target : Nat} {ps : List (ClockId × Nat)} {p : ClockId × Nat}
    {b b' : Candidate} (h : NearestOf mode target ps b) (hscan : Scanned mode target p 1 257 (some b) (some b')) :
    NearestOf mode target (ps ++ [p]) b' := by
  cases hscan with
  | kept hkept =>
    obtain ⟨q, before, after, rfl, hb, hq, hbefore, hafter⟩ := h
    refine ⟨q, before, after ++ [p], by simp, hb, hq, hbefore, fun p' hp' d hd hd' => ?_⟩
    rcases List.mem_append.1 hp' with hp' | hp'
    · exact hafter p' hp' d hd hd'
    · obtain rfl := List.mem_singleton.1 hp'
      exact (not_improves_some _ _).1 (hkept d hd hd')
  | replaced k hk himp =>
    have hlt := (improves_some _ _).1 himp
    exact ⟨p, ps, [], rfl, rfl, hk, fun p' hp' d hd hd' => hlt.trans_le (nearestOf_le h p' hp' d hd hd'), by simp⟩

/-- The first parent. -/
theorem nearestOf_singleton {mode : RoundMode} {target : Nat} {p : ClockId × Nat} {result : Option Candidate}
    (hscan : Scanned mode target p 1 257 none result) : ∃ b, result = some b ∧ NearestOf mode target [p] b := by
  cases hscan with
  | kept hkept => exact absurd (hkept 1 le_rfl (by omega)) (by simp [improves])
  | replaced k hk _ => exact ⟨_, rfl, p, [], [], rfl, rfl, hk, by simp, by simp⟩

theorem scanned_isSome {mode : RoundMode} {target : Nat} {p : ClockId × Nat} {d stop : Nat} {b : Candidate}
    {result : Option Candidate} (h : Scanned mode target p d stop (some b) result) : ∃ b', result = some b' := by
  cases h with
  | kept _ => exact ⟨b, rfl⟩
  | replaced _ _ _ => exact ⟨_, rfl⟩

/-- The search over parents whose rates are known (R193), a parent at a time. -/
theorem bestOf_nearestOf (mode : RoundMode) (target : Nat) {ps : List (ClockId × Nat)} (hps : ps ≠ []) :
    ∃ b, bestOf mode target ps = some b ∧ NearestOf mode target ps b := by
  induction ps using List.reverseRecOn with
  | nil => exact absurd rfl hps
  | append_singleton ps p ih =>
    have hscan : Scanned mode target p 1 257 (bestOf mode target ps) (bestOf mode target (ps ++ [p])) := by
      rw [bestOf_concat]
      exact gckScan_scanned mode target p 256 le_rfl _
    rcases eq_or_ne ps [] with rfl | hne
    · exact nearestOf_singleton hscan
    · obtain ⟨b, hb, hnear⟩ := ih hne
      rw [hb] at hscan
      obtain ⟨b', hb'⟩ := scanned_isSome hscan
      exact ⟨b', hb', nearestOf_concat hnear (hb' ▸ hscan)⟩

/-- Settles O30: the search's candidate is the nearest of all (`bestOf_nearestOf`), and its fields are those of its
parent and divisor. -/
theorem gckSearchFindsNearest : Obligations.GckSearchFindsNearest := by
  refine fun mode target ps _ hps => ⟨fun a d hd => rdiv_succ_le mode a hd, ?_⟩
  obtain ⟨b, hbest, hnear⟩ := bestOf_nearestOf mode target hps
  have hle := nearestOf_le hnear
  obtain ⟨p, before, after, rfl, hb, ⟨hone, hmax, hfirst, -⟩, hbefore, -⟩ := hnear
  have hrate : b.rate = rdiv mode p.2 b.div := congrArg Candidate.rate hb
  have hdiff : b.diff = absDiff target (rdiv mode p.2 b.div) := congrArg Candidate.diff hb
  refine ⟨b, p, before, after, hbest, rfl, congrArg Candidate.pid hb, hone, Nat.le_of_lt_succ hmax, hrate,
    hrate ▸ rdiv_le hone, hrate ▸ hdiff, fun p' hp' d hd hd' => hbefore p' hp' d hd (Nat.lt_succ_of_le hd'),
    fun d hd hlt => hdiff ▸ hfirst d hd hlt, fun p' hp' d hd hd' => ?_⟩
  exact hle p' (List.mem_append_right before hp') d hd (Nat.lt_succ_of_le hd')

end Sys2Proof.Proofs
end

