-- ==== Sys2Proof/Proofs/RateQueries.lean ====
section
/-! PROOFS. A rate query follows the table: the parent's query, then the node's own readback (R240). What it answers,
that `GET_RATE` answers it too, and that a command it fails in ends with its error (R197, R257, R266); `GCK.SET_RATE`,
which makes one query for each candidate parent (R193, R195). -/

namespace Sys2Proof.Proofs

open Machine Laws

/-! ## The parent's query, then the readback -/

/-- A node's readback once its parent's query has ended; an error of the query is passed on (R240). -/
def thenReadback (d : NodeData) : State × Except Stop Nat → State × Except Stop Nat
  | (s, .error x) => (s, .error x)
  | (s, .ok r) => readback d r s

theorem rateIn_of_ne {e : NodeEntry} {id : ClockId} (h : e.id ≠ id) (older : NodeTable) (s : State) :
    rateIn (e :: older) id s = rateIn older id s := by
  rw [rateIn, if_neg h]

theorem rateIn_self_of_parent {e : NodeEntry} {p : ClockId} (hp : e.data.parent? = some p) (older : NodeTable)
    (s : State) : rateIn (e :: older) e.id s = thenReadback e.data (rateIn older p s) := by
  rw [rateIn, if_pos rfl]
  simp only [hp]
  rcases rateIn older p s with ⟨s₁, x | r⟩ <;> rfl

theorem rateIn_self_of_root {e : NodeEntry} (hp : e.data.parent? = none) (older : NodeTable) (s : State) :
    rateIn (e :: older) e.id s = readback e.data 0 s := by
  rw [rateIn, if_pos rfl]
  simp only [hp]

/-- An id registered earlier is not the new entry's (R232 (a)). -/
theorem ne_of_has_older {older : NodeTable} {e : NodeEntry} {id : ClockId} (he : e.ok older = true)
    (hid : older.has id = true) : e.id ≠ id := by
  obtain ⟨-, hnew, -, -⟩ := (entryOk_iff older e).1 he
  rintro rfl
  simp [hnew] at hid

/-- A node of a well-formed table has its parent there (R240). -/
theorem lookup_parent_has {nt : NodeTable} (h : nt.ok = true) {id p : ClockId} {e : NodeEntry}
    (he : nt.lookup id = some e) (hp : e.data.parent? = some p) : nt.has p = true := by
  obtain ⟨older, hok, hsub⟩ := ok_of_mem h (lookup_mem he)
  exact hsub p (parent_registered hok hp)

/-- The query of a node looks its parent up among the earlier entries, which in a well-formed table is the lookup in the
whole table: no later entry has the parent's id. -/
theorem rateIn_of_parent {nt : NodeTable} (h : nt.ok = true) {id p : ClockId} {e : NodeEntry}
    (he : nt.lookup id = some e) (hp : e.data.parent? = some p) (s : State) :
    rateIn nt id s = thenReadback e.data (rateIn nt p s) := by
  induction nt with
  | nil => cases he
  | cons e' older ih =>
    obtain ⟨he', hok⟩ := (tableOk_cons e' older).1 h
    rw [lookup_cons] at he
    split at he
    next hid =>
      cases he
      rw [← hid, rateIn_self_of_parent hp, rateIn_of_ne (ne_of_has_older he' (parent_registered he' hp))]
    next hid =>
      rw [rateIn_of_ne hid, rateIn_of_ne (ne_of_has_older he' (lookup_parent_has hok he hp)), ih hok he]

theorem rateIn_of_root {nt : NodeTable} {id : ClockId} {e : NodeEntry} (he : nt.lookup id = some e)
    (hp : e.data.parent? = none) (s : State) : rateIn nt id s = readback e.data 0 s := by
  induction nt with
  | nil => cases he
  | cons e' older ih =>
    rw [lookup_cons] at he
    split at he
    next hid =>
      cases he
      rw [← hid, rateIn_self_of_root hp]
    next hid => rw [rateIn_of_ne hid, ih he]

section
variable {s : State} {id : ClockId} {e : NodeEntry} (hok : s.nt.ok = true) (he : s.nt.lookup id = some e)
include hok he

theorem rate_of_parent {p : ClockId} (hp : e.data.parent? = some p) :
    s.rate id = thenReadback e.data (s.rate p) :=
  rateIn_of_parent hok he hp s

theorem registered_of_lookup : Registered s id e.flags e.data := by
  obtain ⟨older, heok, -⟩ := ok_of_mem hok (lookup_mem he)
  obtain ⟨hw, -⟩ := (entryOk_iff older e).1 heok
  obtain rfl := lookup_id he
  exact ⟨hw, he⟩

end

/-! ## `GET_RATE` -/

section
variable {s s₁ : State} {node : ClockId} {flags : NodeFlags}

theorem withRate_of_error {id : ClockId} {x : Stop} (h : s.rate id = (s₁, .error x)) (k : Nat → State → Outcome) :
    s.withRate id k = s₁.stop x := by
  simp only [State.withRate, h]

/-- `GET_RATE` of a node whose parent's query ends early ends with it (R266). -/
theorem getRate_of_parentError {d : NodeData} {p : ClockId} {x : Stop} (hreg : Registered s node flags d)
    (hp : d.parent? = some p) (hrate : s.rate p = (s₁, .error x)) :
    exec (getRateOf d.kind node) s = s₁.stop x := by
  cases d with
  | fpll n | dpll n | mck n | gck n | prog n =>
    cases hp
    simp only [getRateOf, NodeData.kind, exec, execFpllGetRate, execDpllGetRate, execMckGetRate, execGckGetRate,
      execProgGetRate, prologue_of_registered hreg, NodeData.fpll?, NodeData.dpll?, NodeData.mck?, NodeData.gck?,
      NodeData.prog?, Option.map_some, withRate_of_error hrate]
  | peri n =>
    cases hp
    simp only [getRateOf, NodeData.kind, exec, execPeriGetRate, prologue_of_registered hreg, NodeData.peri?,
      Option.map_some, hrate]
    rfl
  | osc n => cases hp

/-- `GET_RATE` of a node with a parent: the parent's query, then the kind's readback (R240). -/
theorem getRate_eq_thenReadback {d : NodeData} {p : ClockId} (hreg : Registered s node flags d)
    (hp : d.parent? = some p) :
    exec (getRateOf d.kind node) s = State.rateResult (thenReadback d (s.rate p)) := by
  rcases hrate : s.rate p with ⟨s₁, x | r⟩
  · exact getRate_of_parentError hreg hp hrate
  · exact getRate_of_parentRate hreg hp hrate

/-- The only kind without a parent is the oscillator (R234). -/
theorem eq_osc_of_root {d : NodeData} (hp : d.parent? = none) : ∃ n, d = .osc n := by
  cases d with
  | osc n => exact ⟨n, rfl⟩
  | fpll n | dpll n | mck n | gck n | peri n | prog n => cases hp

/-- `GET_RATE` of a node is its rate query (R240). -/
theorem getRate_eq_rate {e : NodeEntry} (hok : s.nt.ok = true) (he : s.nt.lookup node = some e) :
    exec (getRateOf e.data.kind node) s = State.rateResult (s.rate node) := by
  have hreg := registered_of_lookup hok he
  cases hp : e.data.parent? with
  | some p => rw [rate_of_parent hok he hp, getRate_eq_thenReadback hreg hp]
  | none =>
    obtain ⟨n, hn⟩ := eq_osc_of_root hp
    rw [State.rate, rateIn_of_root he hp, hn]
    exact oscGetRate_answers (hn ▸ hreg)

end

/-- Settles O37: the recursion is `rate_of_parent`, and `GET_RATE` is the query (`getRate_eq_rate`). -/
theorem rateFollowsTheTable : Obligations.RateFollowsTheTable := by
  refine fun s id e hok he => ⟨?_, fun i hi => ?_⟩
  · cases hp : e.data.parent? with
    | none => exact rateIn_of_root he hp s
    | some p =>
      rw [rate_of_parent hok he hp]
      rcases hrate : s.rate p with ⟨s₁, x | r⟩ <;> simp only [hrate] <;> rfl
  · have hexec := getRate_both (registered_of_lookup hok he) (getRate_eq_rate hok he) i hi
    refine ⟨fun s₁ r hrate => ?_, fun s₁ x hrate => ?_⟩ <;> rw [hexec, hrate] <;> rfl

/-! ## What a query answers -/

/-- A rate below `2^64`, or no other error of the command than `OutOfRange` (R257 (e)). -/
def FitsRate : Except Stop Nat → Prop
  | .ok r => r < 2 ^ 64
  | .error (.raised x) => x = .outOfRange
  | .error (.stuck _) => True

theorem progRate_le (mode : RoundMode) (n : ProgNode) (r v : Nat) : progRate mode n r v ≤ r := by
  unfold progRate
  cases n.mode with
  | direct => exact rdiv_le (Nat.le_add_left 1 v)
  | pow2 => exact Nat.shiftRight_eq_div_pow r v ▸ Nat.div_le_self r _

theorem mckPrescale_pos (n : MckNode) (p : Nat) : 1 ≤ mckPrescale n p := by
  unfold mckPrescale
  split
  · omega
  · exact Nat.one_le_two_pow

theorem mckDivisor_pos {n : MckNode} {m d : Nat} (h : mckDivisor n m = some d) : 1 ≤ d := by
  simpa using (Option.filter_eq_some_iff.1 h).2

/-- Only the fractional PLL multiplies, and it tests its rate; every other kind divides or passes on. -/
theorem readback_fits {nt : NodeTable} {d : NodeData} (h : d.ok nt = true) {r : Nat} (hr : r < 2 ^ 64) (s : State) :
    FitsRate (readback d r s).2 := by
  cases d with
  | fpll n =>
    simp only [readback, fpllReadback]
    split
    · rfl
    next hlt => exact Nat.lt_of_not_le hlt
  | dpll n => exact (rdiv_le (Nat.le_add_left 1 _)).trans_lt hr
  | mck n =>
    simp only [readback, mckReadback]
    split
    · trivial
    next hd => exact ((rdiv_le (mckDivisor_pos hd)).trans (rdiv_le (mckPrescale_pos n _))).trans_lt hr
  | gck n => exact (rdiv_le (Nat.le_add_left 1 _)).trans_lt hr
  | peri n => exact hr
  | prog n => exact (progRate_le _ n r _).trans_lt hr
  | osc n =>
    obtain ⟨-, -, -, hkind⟩ := (dataOk_iff nt _).1 h
    have hfixed : n.fixedRate < 2 ^ 64 := by simpa only [NodeData.kindOk, decide_eq_true_eq] using hkind
    exact hfixed

theorem thenReadback_fits {nt : NodeTable} {d : NodeData} (h : d.ok nt = true) {q : State × Except Stop Nat}
    (hq : FitsRate q.2) : FitsRate (thenReadback d q).2 := by
  obtain ⟨s, x | r⟩ := q
  · exact hq
  · exact readback_fits h hq s

theorem rateIn_fits {nt : NodeTable} (h : nt.ok = true) (id : ClockId) (s : State) : FitsRate (rateIn nt id s).2 := by
  induction nt generalizing id with
  | nil => trivial
  | cons e older ih =>
    obtain ⟨he, hok⟩ := (tableOk_cons e older).1 h
    by_cases hid : e.id = id
    · subst hid
      cases hp : e.data.parent? with
      | none => exact rateIn_self_of_root hp older s ▸ readback_fits (entryOk_data he) (Nat.two_pow_pos 64) s
      | some p => exact rateIn_self_of_parent hp older s ▸ thenReadback_fits (entryOk_data he) (ih hok p)
    · exact rateIn_of_ne hid older s ▸ ih hok id

/-- Settles O38: the query is bus accesses (`rate_traced`), meets no fault (`rate_answers`), and its rate fits
(`rateIn_fits`). -/
theorem rateAlwaysAnswers : Obligations.RateAlwaysAnswers := by
  intro s id e hok he
  obtain ⟨evs, hevs, hexplained⟩ := rate_traced s id
  have hanswers : Answers (s.rate id) := rate_answers hok (by simp [NodeTable.has, he])
  have hfits : FitsRate (s.rate id).2 := rateIn_fits hok id s
  refine ⟨evs, hexplained, ?_⟩
  rcases hrate : s.rate id with ⟨s₁, (x | f) | r⟩ <;> rw [hrate] at hevs hanswers hfits <;> cases hevs
  · cases hfits
    exact .inr rfl
  · exact absurd rfl (hanswers f)
  · exact .inl ⟨r, rfl, hfits⟩

/-! ## The searches of a generic clock -/

/-- The scans of some parents whose rates are known, from a candidate on (R193). -/
def scanAll (mode : RoundMode) (target : Nat) (best : Option Candidate) (ps : List (ClockId × Nat)) :
    Option Candidate :=
  ps.foldl (fun best p => gckScan mode target p.2 p.1 Config.gckDivMax 1 best) best

theorem bestOf_eq_scanAll (mode : RoundMode) (target : Nat) (ps : List (ClockId × Nat)) :
    bestOf mode target ps = scanAll mode target none ps :=
  rfl

theorem ratesOf_cons_eq_some {pid : ClockId} {rest : List ClockId} {s s₀ : State} {ps : List (ClockId × Nat)}
    (h : ratesOf (pid :: rest) s = some (ps, s₀)) :
    ∃ s₁ r ps', s.rate pid = (s₁, .ok r) ∧ ratesOf rest s₁ = some (ps', s₀) ∧ ps = (pid, r) :: ps' := by
  rw [ratesOf] at h
  rcases hrate : s.rate pid with ⟨s₁, x | r⟩ <;> simp only [hrate] at h
  · cases h
  · obtain ⟨⟨ps', s'⟩, hrest, heq⟩ := Option.map_eq_some_iff.1 h
    cases heq
    exact ⟨s₁, r, ps', rfl, hrest, rfl⟩

/-- The search over some parents that all answer, and then over others: the rates are read in order, each once
(R193). -/
theorem gckSearch_append {target : Nat} {pids : List ClockId} (rest : List ClockId) {best : Option Candidate}
    {s s₀ : State} {ps : List (ClockId × Nat)} (h : ratesOf pids s = some (ps, s₀)) :
    gckSearch target (pids ++ rest) best s =
      gckSearch target rest (scanAll s.params.rdiv target best ps) s₀ := by
  induction pids generalizing best s ps with
  | nil =>
    cases h
    rfl
  | cons pid pids ih =>
    obtain ⟨s₁, r, ps', hrate, hrest, rfl⟩ := ratesOf_cons_eq_some h
    rw [List.cons_append, gckSearch]
    simp only [hrate]
    rw [ih hrest, rate_params hrate]
    rfl

theorem gckSearch_of_error {target : Nat} {pid : ClockId} {rest : List ClockId} {best : Option Candidate}
    {s s₁ : State} {x : Stop} (h : s.rate pid = (s₁, .error x)) :
    gckSearch target (pid :: rest) best s = (s₁, .error x) := by
  simp only [gckSearch, h]

/-! ## Errors of a query -/

section
variable {s s₁ : State} {node : ClockId} {flags : NodeFlags} {x : Stop}

theorem fpllSetRate_of_parentError {n : FpllNode} (hreg : Registered s node flags (.fpll n)) (ha : s.a0.toNat ≠ 0)
    (hrange : inRange n.range s.a0.toNat = true) (hrate : s.rate n.parent = (s₁, .error x)) :
    exec (.fpllSetRate node) s = s₁.stop x := by
  simp [exec, execFpllSetRate, prologue_of_registered hreg, NodeData.fpll?, ha, hrange, withRate_of_error hrate]

theorem dpllSetRate_of_parentError {n : DpllNode} (hreg : Registered s node flags (.dpll n)) (ha : s.a0.toNat ≠ 0)
    (hrate : s.rate n.parent = (s₁, .error x)) : exec (.dpllSetRate node) s = s₁.stop x := by
  simp [exec, execDpllSetRate, prologue_of_registered hreg, NodeData.dpll?, ha, withRate_of_error hrate]

theorem progSetRate_of_parentError {n : ProgNode} (hreg : Registered s node flags (.prog n)) (ha : s.a0.toNat ≠ 0)
    (hrange : inRange n.range s.a0.toNat = true) (hrate : s.rate n.parent = (s₁, .error x)) :
    exec (.progSetRate node) s = s₁.stop x := by
  simp [exec, execProgSetRate, prologue_of_registered hreg, NodeData.prog?, ha, hrange, withRate_of_error hrate]

/-- An additional parent's query that ends early ends the search and the command (R193, R266). -/
theorem gckSetRate_of_searchError {n : GckNode} (hreg : Registered s node flags (.gck n)) (ha : s.a0.toNat ≠ 0)
    (hrange : inRange n.range s.a0.toNat = true) (hne : n.extraParents ≠ [])
    (hsearch : gckSearch s.a0.toNat n.extraParents none s = (s₁, .error x)) :
    exec (.gckSetRate node) s = s₁.stop x := by
  simp [exec, execGckSetRate, prologue_of_registered hreg, NodeData.gck?, ha, hrange, hne, hsearch]

end

/-- Settles O39: the commands that query a parent, then the search, where the candidates before the failing one answer
(`gckSearch_append`). -/
theorem rateErrorEndsCommand : Obligations.RateErrorEndsCommand := by
  refine ⟨fun s s₁ node flags d p e hreg hp hrate => ⟨?getRate, fun ha => ?setRate⟩,
    fun s s₀ s₁ node flags n before after p ps e hreg ha hrange hparents hbefore hrate => ?search⟩
  case getRate => exact getRate_both hreg (getRate_of_parentError hreg hp hrate)
  case setRate =>
    have ha' : s.a0.toNat ≠ 0 := fun h => ha (BitVec.eq_of_toNat_eq h)
    refine ⟨?_, ?_, ?_⟩ <;> rintro n rfl <;> cases hp
    · exact fun hrange => setRate_both hreg (fpllSetRate_of_parentError hreg ha' hrange hrate)
    · exact setRate_both hreg (dpllSetRate_of_parentError hreg ha' hrate)
    · exact fun hrange => setRate_both hreg (progSetRate_of_parentError hreg ha' hrange hrate)
  case search =>
    have ha' : s.a0.toNat ≠ 0 := fun h => ha (BitVec.eq_of_toNat_eq h)
    have hsearch : gckSearch s.a0.toNat n.extraParents none s = (s₁, .error (.raised e)) := by
      rw [hparents, gckSearch_append _ hbefore, gckSearch_of_error hrate]
    exact setRate_both hreg (gckSetRate_of_searchError hreg ha' hrange (by simp [hparents]) hsearch)

/-! ## `GCK.SET_RATE` -/

/-- `GCK.SET_RATE` whose search finds a listed parent (R195). -/
theorem gckSetRate_of_search {s s₁ : State} {node : ClockId} {flags : NodeFlags} {n : GckNode} {b : Candidate}
    {sel : Nat} (hreg : Registered s node flags (.gck n)) (ha : s.a0.toNat ≠ 0)
    (hrange : inRange n.range s.a0.toNat = true) (hne : n.extraParents ≠ [])
    (hsearch : gckSearch s.a0.toNat n.extraParents none s = (s₁, .ok (some b)))
    (hsel : n.table.p2s b.pid = some sel) :
    exec (.gckSetRate node) s = .next (gckProgram node n b sel s₁) := by
  simp [exec, execGckSetRate, prologue_of_registered hreg, NodeData.gck?, ha, hrange, hne, hsearch, hsel]

/-- Settles O57: the search over the declared parents (`gckSearch_append`), then one select-then-configure. -/
theorem gckSetRateResult : Obligations.GckSetRateResult := by
  intro s s₁ node flags n ps b sel hreg ha hrange hne hrates hbest hsel
  have ha' : s.a0.toNat ≠ 0 := fun h => ha (BitVec.eq_of_toNat_eq h)
  have hsearch : gckSearch s.a0.toNat n.extraParents none s = (s₁, .ok (some b)) := by
    have h := gckSearch_append (target := s.a0.toNat) [] (best := none) hrates
    rwa [List.append_nil, ← bestOf_eq_scanAll, hbest] at h
  have hprogram := gckSetRate_of_search hreg ha' hrange hne hsearch hsel
  exact setRate_both hreg (hprogram.trans (congrArg _ (selectThenConfigure_eq s₁ node n.port _ _ _)))

end Sys2Proof.Proofs
end

