-- ==== Sys2Proof/Proofs/FailedCommands.lean ====
section
/-! PROOFS. A command that ends with an error changes `STATUS` and `BUSY` alone (R252), and of its bus accesses only a
rate query's selects (R197, R240) and a registration's select (R232) are writes. -/

namespace Sys2Proof.Proofs

open Machine Laws

/-! ## Accesses that write nothing but selects -/

/-- The select of a registered generic clock, or of the one being registered. -/
def SelectsClock (s : State) (e : BusEvent) : Prop :=
  (∃ entry ∈ s.nt, ∃ n, entry.data = .gck n ∧ isSelectOf n.port e = true) ∨
    ∃ n, s.desc.accept s.params s.nt = some (.gck n) ∧ isSelectOf n.port e = true

/-- The second state is the first after some bus accesses whose only writes are such selects. -/
def Queried (s t : State) : Prop :=
  ∃ evs, t = afterEvents s evs ∧ ∀ e ∈ evs, isWrite e = true → SelectsClock s e

theorem queried_refl (s : State) : Queried s s := ⟨[], (afterEvents_nil s).symm, by simp⟩

/-- Bus accesses change neither the table nor the description, so the clocks that may be selected stay the same. -/
theorem queried_trans {s t u : State} (hst : Queried s t) (htu : Queried t u) : Queried s u := by
  obtain ⟨evs, rfl, hevs⟩ := hst
  obtain ⟨evs', rfl, hevs'⟩ := htu
  refine ⟨evs ++ evs', afterEvents_afterEvents s evs evs', fun e he hw => ?_⟩
  exact (List.mem_append.1 he).elim (fun he => hevs e he hw) fun he => hevs' e he hw

theorem queried_nt {s t : State} (h : Queried s t) : t.nt = s.nt := by
  obtain ⟨evs, rfl, -⟩ := h
  rfl

theorem fieldsGet_queried (s : State) (base : Word) (fs : List FieldDesc) : Queried s (s.fieldsGet base fs) :=
  ⟨_, fieldsGet_eq s base fs, fun e he hw => by simp [readEvents_reads s base _ e he] at hw⟩

theorem regRead_queried (s : State) (base off : Word) : Queried s (s.regRead base off) :=
  ⟨_, regRead_eq s base off, by simp [isWrite]⟩

theorem selectAndRead_queried {s : State} {p : SharedPort}
    (h : ∀ e, isSelectOf p e = true → SelectsClock s e) : Queried s (s.selectAndRead p) := by
  refine ⟨_, selectAndRead_eq s p, fun e he hw => h e ?_⟩
  rcases List.mem_cons.1 he with rfl | he
  · simp [isSelectOf]
  · obtain rfl := List.mem_singleton.1 he
    cases hw

/-! ## Rate queries -/

/-- Of the readbacks only the generic clock's writes, and it writes its own select (R197). -/
theorem readback_queried {s : State} {e : NodeEntry} (he : e ∈ s.nt) (r : Nat) :
    Queried s (readback e.data r s).1 := by
  cases hd : e.data with
  | fpll n | mck n => exact fieldsGet_queried s _ _
  | dpll n | prog n => exact regRead_queried s _ _
  | gck n => exact selectAndRead_queried fun ev hev => .inl ⟨e, he, n, hd, hev⟩
  | peri n | osc n => exact queried_refl s

theorem thenReadback_queried {s : State} {e : NodeEntry} (he : e ∈ s.nt) {q : State × Except Stop Nat}
    (hq : Queried s q.1) : Queried s (thenReadback e.data q).1 := by
  obtain ⟨s₁, x | r⟩ := q
  · exact hq
  · exact queried_trans hq (readback_queried (queried_nt hq ▸ he) r)

theorem rateIn_queried {nt : NodeTable} {s : State} (hnt : ∀ e ∈ nt, e ∈ s.nt) (id : ClockId) :
    Queried s (rateIn nt id s).1 := by
  induction nt generalizing id with
  | nil => exact queried_refl s
  | cons e older ih =>
    obtain ⟨he, holder⟩ := List.forall_mem_cons.1 hnt
    by_cases hid : e.id = id
    · subst hid
      cases hp : e.data.parent? with
      | none => exact rateIn_self_of_root hp older s ▸ readback_queried he 0
      | some p => exact rateIn_self_of_parent hp older s ▸ thenReadback_queried he (ih holder p)
    · exact rateIn_of_ne hid older s ▸ ih holder id

theorem rate_queried (s : State) (id : ClockId) : Queried s (s.rate id).1 := rateIn_queried (fun _ he => he) id

theorem gckSearch_queried (target : Nat) (pids : List ClockId) (best : Option Candidate) (s : State) :
    Queried s (gckSearch target pids best s).1 := by
  induction pids generalizing best s with
  | nil => exact queried_refl s
  | cons pid rest ih =>
    have hrate := rate_queried s pid
    rw [gckSearch]
    rcases hr : s.rate pid with ⟨s₁, x | r⟩ <;> rw [hr] at hrate
    · exact hrate
    · exact queried_trans hrate (ih _ s₁)

/-! ## Clean failures -/

/-- If the outcome is an error of the command, it is `STATUS` and `BUSY` after such accesses (R252). -/
def FailsCleanly (s : State) (o : Outcome) : Prop :=
  ∀ t, o = .next t → t.busy = false → t.status ≠ 0 → ∃ u, Queried s u ∧ t = failedWith u t.status

variable {s : State}

theorem failsCleanly_of_queried {u : State} {o : Outcome} (h : Queried s u) (ho : FailsCleanly u o) :
    FailsCleanly s o := by
  intro t ht hbusy hstatus
  obtain ⟨v, hv, heq⟩ := ho t ht hbusy hstatus
  exact ⟨v, queried_trans h hv, heq⟩

/-- An error raised at once. -/
@[simp] theorem failsCleanly_raise (s : State) (e : CmdError) : FailsCleanly s (.next (s.raise e)) := by
  rintro _ ⟨⟩ - -
  exact ⟨s, queried_refl s, rfl⟩

/-- A command that succeeds or polls has not failed. -/
theorem failsCleanly_of_not_failed {u : State} (h : u.busy = true ∨ u.status = 0) : FailsCleanly s (.next u) := by
  rintro _ ⟨⟩ hbusy hstatus
  exact (h.elim (fun hb => by simp [hb] at hbusy) fun hs => hstatus hs).elim

@[simp] theorem failsCleanly_result (u : State) (r0 r1 : Operand) : FailsCleanly s (.next (u.result r0 r1)) :=
  failsCleanly_of_not_failed (.inr rfl)

@[simp] theorem failsCleanly_finish (u : State) (node : ClockId) (c : Completion) :
    FailsCleanly s (.next (u.finish node c)) :=
  failsCleanly_of_not_failed (.inr rfl)

@[simp] theorem failsCleanly_pollField (u : State) (node : ClockId) (base : Word) (f : FieldDesc) (awaited : Bool)
    (c : Completion) : FailsCleanly s (.next (u.pollField node base f awaited c)) := by
  refine failsCleanly_of_not_failed ?_
  rcases poll_cases u ⟨node, busAddr base f.off, f.mask, awaited, c⟩ with ⟨-, h⟩ | ⟨-, h⟩ <;> rw [State.pollField, h]
  · exact .inr rfl
  · exact .inl rfl

@[simp] theorem failsCleanly_pollOptional (u : State) (node : ClockId) (base : Word) (f : Option FieldDesc)
    (c : Completion) : FailsCleanly s (.next (u.pollOptional node base f c)) := by
  cases f with
  | none => exact failsCleanly_finish u node c
  | some f => exact failsCleanly_pollField u node base f true c

@[simp] theorem failsCleanly_selectThenConfigure (u : State) (node : ClockId) (p : SharedPort) (m x : Word)
    (c : Completion) : FailsCleanly s (.next (u.selectThenConfigure node p m x c)) := by
  rcases selectThenConfigure_cases u node p m x c with ⟨ready, -, -, h⟩ | ⟨-, h⟩ <;> rw [h]
  · exact failsCleanly_pollField _ _ _ _ _ _
  · exact failsCleanly_finish _ _ _

@[simp] theorem failsCleanly_stop (s : State) (x : Stop) : FailsCleanly s (s.stop x) := by
  cases x with
  | raised e => exact failsCleanly_raise s e
  | stuck f => exact fun t ht => nomatch ht

/-- A command that needs a rate: the query's accesses, then the query's error or what the command does with the
rate (R266). -/
theorem failsCleanly_withRate (id : ClockId) (k : Nat → State → Outcome) (hk : ∀ r s₁, FailsCleanly s₁ (k r s₁)) :
    FailsCleanly s (s.withRate id k) := by
  have hrate := rate_queried s id
  rcases withRate_cases s id k with ⟨s₁, x, hs, h⟩ | ⟨s₁, r, hs, h⟩ <;> rw [h] <;> rw [hs] at hrate
  · exact failsCleanly_of_queried hrate (failsCleanly_stop s₁ x)
  · exact failsCleanly_of_queried hrate (hk r s₁)

theorem failsCleanly_rateResult {q : State × Except Stop Nat} (h : Queried s q.1) :
    FailsCleanly s (State.rateResult q) := by
  obtain ⟨s₁, x | r⟩ := q
  · exact failsCleanly_of_queried h (failsCleanly_stop s₁ x)
  · exact failsCleanly_result s₁ _ _

/-! ## Register access, mux translator and node table commands -/

theorem regAccess_failsCleanly {node : ClockId} {i : Instr}
    (hi : i ∈ [Instr.regRead node, .regWrite node, .regUpdate node]) (s : State) : FailsCleanly s (exec i s) := by
  simp only [List.mem_cons, List.not_mem_nil, or_false] at hi
  rcases hi with rfl | rfl | rfl
  all_goals
    simp only [exec, execRegRead, execRegWrite, execRegUpdate]
    split
    · simp
    split
    · split <;> simp
    · simp

theorem mux_failsCleanly {node : ClockId} {i : Instr} (hi : i ∈ [Instr.muxP2s node, .muxS2i node]) (s : State) :
    FailsCleanly s (exec i s) := by
  simp only [List.mem_cons, List.not_mem_nil, or_false] at hi
  rcases hi with rfl | rfl
  all_goals
    simp only [exec, execMuxP2s, execMuxS2i]
    split
    · split <;> simp
    · simp

theorem nodeResolve_failsCleanly (node : ClockId) (s : State) : FailsCleanly s (execNodeResolve node s) := by
  unfold execNodeResolve
  split <;> simp

/-- The accesses of a registration (R232 (g), (h)): the only write is the select of the generic clock being
registered. -/
theorem discover_queried {d : NodeData} (h : s.desc.accept s.params s.nt = some d) : Queried s (s.discover d) := by
  cases d with
  | fpll n | dpll n | mck n => exact regRead_queried s _ _
  | gck n => exact selectAndRead_queried fun e he => .inr ⟨n, h, he⟩
  | prog n => exact fieldsGet_queried s _ _
  | peri n | osc n => exact queried_refl s

theorem nodeRegister_failsCleanly (node : ClockId) (s : State) : FailsCleanly s (execNodeRegister node s) := by
  unfold execNodeRegister
  split
  · simp
  split
  · simp
  next d hd =>
    split
    · exact failsCleanly_of_queried (discover_queried hd) (failsCleanly_raise _ _)
    · simp

/-! ## The five functions of each kind -/

/-- The eleven refused commands (R244): the prologue's error or `UnsupportedOnVariant`, either at once. -/
theorem refused_failsCleanly {node : ClockId} {i : Instr} (h : i ∈ (refusedCommands node).map Prod.snd) (s : State) :
    FailsCleanly s (exec i s) := by
  simp only [refusedCommands, List.map_cons, List.map_nil, List.mem_cons, List.not_mem_nil, or_false] at h
  rcases h with rfl | rfl | rfl | rfl | rfl | rfl | rfl | rfl | rfl | rfl | rfl <;>
    simp only [exec, execFpllSetParent, execDpllSetParent, execMckSetRate, execPeriSetRate, execPeriSetParent,
      execProgEnable, execProgDisable, execOscEnable, execOscDisable, execOscSetRate, execOscSetParent] <;>
    split <;> exact failsCleanly_raise s _

theorem enableOf_failsCleanly (k : NodeKind) (node : ClockId) (s : State) :
    FailsCleanly s (exec (enableOf k node) s) := by
  cases k with
  | fpll =>
    simp only [enableOf, exec, execFpllEnable]
    split
    · simp
    · split <;> simp
  | dpll | mck | gck | peri =>
    simp only [enableOf, exec, execDpllEnable, execMckEnable, execGckEnable, execPeriEnable]
    split <;> simp
  | prog | osc => exact refused_failsCleanly (node := node) (by simp [refusedCommands, enableOf]) s

theorem disableOf_failsCleanly (k : NodeKind) (node : ClockId) (s : State) :
    FailsCleanly s (exec (disableOf k node) s) := by
  cases k with
  | fpll | dpll | gck | peri =>
    simp only [disableOf, exec, execFpllDisable, execDpllDisable, execGckDisable, execPeriDisable]
    split
    · simp
    · split <;> simp
  | mck =>
    simp only [disableOf, exec, execMckDisable]
    split
    · simp
    split
    · simp
    · split <;> simp
  | prog | osc => exact refused_failsCleanly (node := node) (by simp [refusedCommands, disableOf]) s

/-- `GET_RATE` of a registered node with a parent is a rate query (R240). -/
theorem getRate_failsCleanly {node p : ClockId} {flags : NodeFlags} {d : NodeData}
    (hreg : Registered s node flags d) (hp : d.parent? = some p) :
    FailsCleanly s (exec (getRateOf d.kind node) s) := by
  rw [getRate_eq_thenReadback hreg hp]
  exact failsCleanly_rateResult
    (thenReadback_queried (e := ⟨node, flags, d⟩) (lookup_mem hreg.2) (rate_queried s p))

theorem getRateOf_failsCleanly (k : NodeKind) (node : ClockId) (s : State) :
    FailsCleanly s (exec (getRateOf k node) s) := by
  cases k with
  | fpll =>
    cases hn : s.prologue NodeData.fpll? node with
    | none => simp [getRateOf, exec, execFpllGetRate, hn]
    | some fn => exact getRate_failsCleanly (fpll_registered hn) rfl
  | dpll =>
    cases hn : s.prologue NodeData.dpll? node with
    | none => simp [getRateOf, exec, execDpllGetRate, hn]
    | some fn => exact getRate_failsCleanly (dpll_registered hn) rfl
  | mck =>
    cases hn : s.prologue NodeData.mck? node with
    | none => simp [getRateOf, exec, execMckGetRate, hn]
    | some fn => exact getRate_failsCleanly (mck_registered hn) rfl
  | gck =>
    cases hn : s.prologue NodeData.gck? node with
    | none => simp [getRateOf, exec, execGckGetRate, hn]
    | some fn => exact getRate_failsCleanly (gck_registered hn) rfl
  | peri =>
    cases hn : s.prologue NodeData.peri? node with
    | none => simp [getRateOf, exec, execPeriGetRate, hn]
    | some fn => exact getRate_failsCleanly (peri_registered hn) rfl
  | prog =>
    cases hn : s.prologue NodeData.prog? node with
    | none => simp [getRateOf, exec, execProgGetRate, hn]
    | some fn => exact getRate_failsCleanly (prog_registered hn) rfl
  | osc =>
    simp only [getRateOf, exec, execOscGetRate]
    split <;> simp

theorem fpllProgram_failsCleanly (node : ClockId) (n : FpllNode) (c : FpllSetting) (u : State) :
    FailsCleanly s (.next (fpllProgram node n c u)) := by
  unfold fpllProgram
  dsimp only
  split
  · simp
  · split <;> simp

theorem dpllProgram_failsCleanly (node : ClockId) (n : DpllNode) (div achieved : Nat) (u : State) :
    FailsCleanly s (.next (dpllProgram node n div achieved u)) := by
  unfold dpllProgram
  dsimp only
  split
  · simp
  · split <;> simp

theorem fpllSetRate_failsCleanly (node : ClockId) (s : State) : FailsCleanly s (execFpllSetRate node s) := by
  unfold execFpllSetRate
  split
  · simp
  dsimp only
  split
  · simp
  split
  · simp
  refine failsCleanly_withRate _ _ fun r s₁ => ?_
  split
  · simp
  split
  · exact fpllProgram_failsCleanly node _ _ s₁
  · simp

theorem dpllSetRate_failsCleanly (node : ClockId) (s : State) : FailsCleanly s (execDpllSetRate node s) := by
  unfold execDpllSetRate
  split
  · simp
  dsimp only
  split
  · simp
  refine failsCleanly_withRate _ _ fun r s₁ => ?_
  split
  · simp
  split
  · simp
  · exact dpllProgram_failsCleanly node _ _ _ s₁

theorem progSetRate_failsCleanly (node : ClockId) (s : State) : FailsCleanly s (execProgSetRate node s) := by
  unfold execProgSetRate
  split
  · simp
  dsimp only
  split
  · simp
  split
  · simp
  refine failsCleanly_withRate _ _ fun r s₁ => ?_
  split <;> simp

/-- The search's accesses, then its error, or the command's own before its first write (R195). -/
theorem gckSetRate_failsCleanly (node : ClockId) (s : State) : FailsCleanly s (execGckSetRate node s) := by
  unfold execGckSetRate
  split
  · simp
  next n _ =>
    dsimp only
    split
    · simp
    split
    · simp
    split
    · simp
    have hsearch := gckSearch_queried s.a0.toNat n.extraParents none s
    rcases hr : gckSearch s.a0.toNat n.extraParents none s with ⟨s₁, x | best⟩ <;> rw [hr] at hsearch <;>
      refine failsCleanly_of_queried hsearch ?_
    · exact failsCleanly_stop s₁ x
    cases best with
    | none => exact failsCleanly_raise s₁ _
    | some best =>
      dsimp only
      split
      · simp
      · exact failsCleanly_selectThenConfigure s₁ node _ _ _ _

theorem setRateOf_failsCleanly (k : NodeKind) (node : ClockId) (s : State) :
    FailsCleanly s (exec (setRateOf k node) s) := by
  cases k with
  | fpll => exact fpllSetRate_failsCleanly node s
  | dpll => exact dpllSetRate_failsCleanly node s
  | gck => exact gckSetRate_failsCleanly node s
  | prog => exact progSetRate_failsCleanly node s
  | mck | peri | osc => exact refused_failsCleanly (node := node) (by simp [refusedCommands, setRateOf]) s

theorem setParentOf_failsCleanly (k : NodeKind) (node : ClockId) (s : State) :
    FailsCleanly s (exec (setParentOf k node) s) := by
  cases k with
  | mck | gck =>
    simp only [setParentOf, exec, execMckSetParent, execGckSetParent]
    split
    · simp
    split
    · simp
    · split <;> simp
  | prog =>
    simp only [setParentOf, exec, execProgSetParent]
    split
    · simp
    split
    · simp
    split
    · simp
    · split <;> simp
  | fpll | dpll | peri | osc => exact refused_failsCleanly (node := node) (by simp [refusedCommands, setParentOf]) s

/-! ## Every command -/

theorem kindCommands_failsCleanly {k : NodeKind} {node : ClockId} {i : Instr} (hi : i ∈ kindCommands k node)
    (s : State) : FailsCleanly s (exec i s) := by
  simp only [kindCommands, List.mem_cons, List.not_mem_nil, or_false] at hi
  rcases hi with rfl | rfl | rfl | rfl | rfl
  · exact enableOf_failsCleanly k node s
  · exact disableOf_failsCleanly k node s
  · exact getRateOf_failsCleanly k node s
  · exact setRateOf_failsCleanly k node s
  · exact setParentOf_failsCleanly k node s

theorem dispatch_failsCleanly {node : ClockId} {i : Instr} (hi : i ∈ dispatchCommands node) (s : State) :
    FailsCleanly s (exec i s) := by
  rcases dispatch_cases hi s with h | ⟨k, j, hj, -, h⟩ <;> rw [h]
  · exact failsCleanly_raise s _
  · exact kindCommands_failsCleanly hj s

/-- The commands that no kind has (R84). -/
def commonCommands (node : ClockId) : List Instr :=
  [.regRead node, .regWrite node, .regUpdate node, .muxP2s node, .muxS2i node, .nodeRegister node, .nodeResolve node]

theorem common_failsCleanly {node : ClockId} {i : Instr} (hi : i ∈ commonCommands node) (s : State) :
    FailsCleanly s (exec i s) := by
  simp only [commonCommands, List.mem_cons, List.not_mem_nil, or_false] at hi
  rcases hi with rfl | rfl | rfl | rfl | rfl | rfl | rfl
  iterate 3 exact regAccess_failsCleanly (node := node) (by simp) s
  iterate 2 exact mux_failsCleanly (node := node) (by simp) s
  · exact nodeRegister_failsCleanly node s
  · exact nodeResolve_failsCleanly node s

/-- The 47 commands of R84: those that no kind has, the five functions of each kind, and the five dispatch commands. -/
theorem command_families (i : Instr) :
    i ∈ commonCommands i.node ∨
      i ∈ [NodeKind.fpll, .dpll, .mck, .gck, .peri, .prog, .osc].flatMap (kindCommands · i.node) ∨
      i ∈ dispatchCommands i.node := by
  cases i <;>
    simp [commonCommands, kindCommands, enableOf, disableOf, getRateOf, setRateOf, setParentOf, dispatchCommands,
      Instr.node]

theorem exec_failsCleanly (i : Instr) (s : State) : FailsCleanly s (exec i s) := by
  rcases command_families i with hi | hi | hi
  · exact common_failsCleanly hi s
  · obtain ⟨k, -, hi⟩ := List.mem_flatMap.1 hi
    exact kindCommands_failsCleanly hi s
  · exact dispatch_failsCleanly hi s

/-- Settles O21: every command fails cleanly, and its accesses before the error write nothing but selects. -/
theorem failedCommandChangesNothing : Obligations.FailedCommandChangesNothing := by
  intro i s t hexec hbusy hstatus
  obtain ⟨u, ⟨evs, rfl, hevs⟩, ht⟩ := exec_failsCleanly i s t hexec hbusy hstatus
  exact ⟨evs, ht, hevs⟩

end Sys2Proof.Proofs
end

