-- ==== Sys2Proof/Proofs/ProgrammableClock.lean ====
section
/-! PROOFS. The programmable clock's `SET_PARENT` and `SET_RATE`, access by access, directly and through the dispatch
commands (R216, R217, R218, R241, R259). -/

namespace Sys2Proof.Proofs

open Machine Laws

/-! ## The select code in its fields (R216) -/

theorem progSelect_of_le {n : ProgNode} {sel : Nat} (h : sel ≤ n.mux.fmax) : progSelect n sel = some (sel, 0) :=
  if_pos h

theorem progSelect_eq_none {n : ProgNode} {sel : Nat} (h : n.mux.fmax < sel) (hext : n.ext = none) :
    progSelect n sel = none := by
  simp [progSelect, Nat.not_le.2 h, hext]

theorem progSelect_of_ext {n : ProgNode} {sel : Nat} {ext : FieldDesc} (h : n.mux.fmax < sel)
    (hext : n.ext = some ext) : progSelect n sel = some (sel &&& n.mux.fmax, 1) := by
  simp [progSelect, Nat.not_le.2 h, hext]

theorem writeSelect_of_no_ext (s : State) {n : ProgNode} (hext : n.ext = none) (lo x : Nat) :
    s.writeSelect n lo x = afterEvents s (thenSet s [] n.base n.mux lo) := by
  simpa [State.writeSelect, hext] using fieldSet_afterEvents s [] n.base n.mux lo

theorem writeSelect_of_ext (s : State) {n : ProgNode} {ext : FieldDesc} (hext : n.ext = some ext) (lo x : Nat) :
    s.writeSelect n lo x = afterEvents s (updateAllEvents s [] n.base [(n.mux, lo), (ext, x)]) := by
  simpa [State.writeSelect, hext] using fieldsSet_afterEvents s [] n.base [(n.mux, lo), (ext, x)]

section
variable {s : State} {node : ClockId} {flags : NodeFlags} {n : ProgNode} (hreg : Registered s node flags (.prog n))
include hreg

/-! ## `SET_PARENT` -/

section
variable {pid : ClockId} {sel : Nat} (ha : narrowId s.a0 = some pid) (hsel : n.table.p2s pid = some sel)
include ha hsel

/-- A code that the variant cannot select (R216, R259 (a)). -/
theorem progSetParent_unsupported (hcode : progSelect n sel = none) :
    exec (.progSetParent node) s = .next (s.raise .unsupportedOnVariant) := by
  simp only [exec, execProgSetParent, prologue_of_registered hreg, NodeData.prog?, Option.map_some, ha, hsel, hcode]

/-- A code that the variant can select: the select write, whose accesses are `evs`, and the optional poll (R216). -/
theorem progSetParent_of_select {lo x : Nat} {evs : List BusEvent} (hcode : progSelect n sel = some (lo, x))
    (hwrite : s.writeSelect n lo x = afterEvents s evs) :
    exec (.progSetParent node) s = .next (optionalPoll s evs node n.base n.ready { parent := some pid }) := by
  simp only [exec, execProgSetParent, prologue_of_registered hreg, NodeData.prog?, Option.map_some, ha, hsel, hcode,
    hwrite, pollOptional_afterEvents]

end

/-! ## `SET_RATE` -/

/-- A target with an exact encoding: the `pres` field and the optional poll (R218). -/
theorem progSetRate_exact (ha : s.a0.toNat ≠ 0) (hrange : inRange n.range s.a0.toNat = true) {s₁ : State} {r v : Nat}
    (hrate : s.rate n.parent = (s₁, .ok r)) (hcode : progCompute n.mode r s.a0.toNat n.pres.fmax = some v) :
    exec (.progSetRate node) s = .next
      (optionalPoll s₁ (thenSet s₁ [] n.base n.pres v) node n.base n.ready { r0 := s.a0 }) := by
  have hset : s₁.fieldSet n.base n.pres v = afterEvents s₁ (thenSet s₁ [] n.base n.pres v) := by
    simpa using fieldSet_afterEvents s₁ [] n.base n.pres v
  simp [exec, execProgSetRate, prologue_of_registered hreg, NodeData.prog?, ha, hrange, withRate_of_rate hrate, hcode,
    hset, pollOptional_afterEvents]

end

/-- Settles O58: what `progSelect` makes of the code decides the case, and with the extension bit it makes something of
every code. -/
theorem progSetParentResult : Obligations.ProgSetParentResult := by
  intro s node flags n pid sel hreg ha hpid hsel i hi
  have ha' : narrowId s.a0 = some pid := ha ▸ narrowId_setWidth hpid
  refine ⟨fun hext hle => ?fits, fun hext hgt => ?refused, fun ext hext => ?extended⟩
  case fits =>
    exact setParent_both hreg
      (progSetParent_of_select hreg ha' hsel (progSelect_of_le hle) (writeSelect_of_no_ext s hext sel 0)) i hi
  case refused =>
    exact setParent_both hreg (progSetParent_unsupported hreg ha' hsel (progSelect_eq_none hgt hext)) i hi
  case extended =>
    split
    next hle =>
      exact setParent_both hreg
        (progSetParent_of_select hreg ha' hsel (progSelect_of_le hle) (writeSelect_of_ext s hext sel 0)) i hi
    next hgt =>
      exact setParent_both hreg
        (progSetParent_of_select hreg ha' hsel (progSelect_of_ext (Nat.not_le.1 hgt) hext)
          (writeSelect_of_ext s hext _ 1)) i hi

/-- Settles O59: the answer of the node's own opcode is the dispatch command's too. -/
theorem progSetRateResult : Obligations.ProgSetRateResult := by
  intro s s₁ node flags n r v hreg ha hrange hrate hcode
  have ha' : s.a0.toNat ≠ 0 := fun h => ha (BitVec.eq_of_toNat_eq h)
  exact setRate_both hreg (progSetRate_exact hreg ha' hrange hrate hcode)

end Sys2Proof.Proofs
end

