-- ==== Sys2Proof/Proofs/NodeCommands.lean ====
section
/-! PROOFS. The prologue of the commands on a node and what each makes of it: the ids that it turns away, the eleven
refused commands, `DISABLE` of a critical node, the dispatch commands and `NODE.RESOLVE` (R233, R241 to R244, R254). -/

namespace Sys2Proof.Proofs

open Machine Laws

/-! ## The prologue -/

/-- An id under which no node can be found (R254 (b), (c)). -/
def Unregistered (s : State) (node : ClockId) : Prop := wellFormedId node = false ∨ s.nt.lookup node = none

/-- An id that `Prologue(k)` turns away (R242). -/
def NotOfKind (s : State) (k : NodeKind) (node : ClockId) : Prop :=
  wellFormedId node = false ∨ s.nt.lookup node = none ∨ ∃ e, s.nt.lookup node = some e ∧ e.data.kind ≠ k

/-- The prologue finds nothing where nothing is registered, whatever kind it asks for. -/
theorem prologue_of_unregistered {α : Type} {s : State} {node : ClockId} (h : Unregistered s node)
    (proj : NodeData → Option α) : s.prologue proj node = none := by
  rcases h with hw | hl
  · simp [State.prologue, hw]
  · simp [State.prologue, hl]

theorem dispatchKind_of_unregistered {s : State} {node : ClockId} (h : Unregistered s node) :
    s.dispatchKind node = none := by
  rw [State.dispatchKind, prologue_of_unregistered h, Option.map_none]

/-- The prologue turns a registered id away only for its kind. -/
theorem kind_ne_of_notOfKind {s : State} {k : NodeKind} {node : ClockId} {fl : NodeFlags} {d : NodeData}
    (h : NotOfKind s k node) (hreg : Registered s node fl d) : d.kind ≠ k := by
  obtain ⟨hw, hl⟩ := hreg
  rcases h with hw' | hl' | ⟨e, hl', hk⟩
  · rw [hw] at hw'; cases hw'
  · rw [hl] at hl'; cases hl'
  · rw [hl] at hl'; cases hl'
    exact hk

/-- A prologue that passes has found a node of its kind, so on another id it does not pass (R242). -/
theorem prologue_of_notOfKind {α : Type} {s : State} {k : NodeKind} {node : ClockId} {proj : NodeData → Option α}
    (h : NotOfKind s k node)
    (hproj : ∀ {fl n}, s.prologue proj node = some (fl, n) → ∃ d, Registered s node fl d ∧ d.kind = k) :
    s.prologue proj node = none := by
  cases hp : s.prologue proj node with
  | none => rfl
  | some found =>
    obtain ⟨d, hreg, hk⟩ := hproj hp
    exact absurd hk (kind_ne_of_notOfKind h hreg)

theorem osc_registered {s : State} {node : ClockId} {fl : NodeFlags} {n : OscNode}
    (h : s.prologue NodeData.osc? node = some (fl, n)) : Registered s node fl (.osc n) :=
  registered_of_prologue (fun d => by cases d <;> simp [NodeData.osc?]) h

/-- The five commands of a kind all begin with its prologue (R242). -/
theorem kindCommands_of_notOfKind {s : State} {k : NodeKind} {node : ClockId} (h : NotOfKind s k node) :
    ∀ i ∈ kindCommands k node, exec i s = .next (s.raise .invalidArgument) := by
  cases k with
  | fpll =>
    have hp := prologue_of_notOfKind h fun hp => ⟨_, fpll_registered hp, rfl⟩
    simp [kindCommands, enableOf, disableOf, getRateOf, setRateOf, setParentOf, exec, execFpllEnable, execFpllDisable,
      execFpllGetRate, execFpllSetRate, execFpllSetParent, hp]
  | dpll =>
    have hp := prologue_of_notOfKind h fun hp => ⟨_, dpll_registered hp, rfl⟩
    simp [kindCommands, enableOf, disableOf, getRateOf, setRateOf, setParentOf, exec, execDpllEnable, execDpllDisable,
      execDpllGetRate, execDpllSetRate, execDpllSetParent, hp]
  | mck =>
    have hp := prologue_of_notOfKind h fun hp => ⟨_, mck_registered hp, rfl⟩
    simp [kindCommands, enableOf, disableOf, getRateOf, setRateOf, setParentOf, exec, execMckEnable, execMckDisable,
      execMckGetRate, execMckSetRate, execMckSetParent, hp]
  | gck =>
    have hp := prologue_of_notOfKind h fun hp => ⟨_, gck_registered hp, rfl⟩
    simp [kindCommands, enableOf, disableOf, getRateOf, setRateOf, setParentOf, exec, execGckEnable, execGckDisable,
      execGckGetRate, execGckSetRate, execGckSetParent, hp]
  | peri =>
    have hp := prologue_of_notOfKind h fun hp => ⟨_, peri_registered hp, rfl⟩
    simp [kindCommands, enableOf, disableOf, getRateOf, setRateOf, setParentOf, exec, execPeriEnable, execPeriDisable,
      execPeriGetRate, execPeriSetRate, execPeriSetParent, hp]
  | prog =>
    have hp := prologue_of_notOfKind h fun hp => ⟨_, prog_registered hp, rfl⟩
    simp [kindCommands, enableOf, disableOf, getRateOf, setRateOf, setParentOf, exec, execProgEnable, execProgDisable,
      execProgGetRate, execProgSetRate, execProgSetParent, hp]
  | osc =>
    have hp := prologue_of_notOfKind h fun hp => ⟨_, osc_registered hp, rfl⟩
    simp [kindCommands, enableOf, disableOf, getRateOf, setRateOf, setParentOf, exec, execOscEnable, execOscDisable,
      execOscGetRate, execOscSetRate, execOscSetParent, hp]

/-- Settles O22: every kind-specific command begins with the prologue of its kind. -/
theorem prologueRejects : Obligations.PrologueRejects :=
  fun _ _ _ i hi h => kindCommands_of_notOfKind h i hi

/-! ## The eleven refused commands -/

/-- The eleven are commands of their kinds (R84, R244). -/
theorem refused_mem_kindCommands {k : NodeKind} {i : Instr} {node : ClockId} (h : (k, i) ∈ refusedCommands node) :
    i ∈ kindCommands k node := by
  have hall : ∀ c ∈ refusedCommands node, c.2 ∈ kindCommands c.1 node := by
    simp [refusedCommands, kindCommands, enableOf, disableOf, setRateOf, setParentOf]
  exact hall _ h

theorem node_of_mem_kindCommands {k : NodeKind} {i : Instr} {node : ClockId} (h : i ∈ kindCommands k node) :
    i.node = node := by
  have hnodes : (kindCommands k node).map Instr.node = List.replicate 5 node := by cases k <;> rfl
  exact List.eq_of_mem_replicate (hnodes ▸ List.mem_map_of_mem h)

/-- Settles O23: each of the eleven is a command of its kind, so the prologue turns the same ids away; on a node of its
kind it is refused. (The obligation's own name in lower case is the model's list of the eleven.) -/
theorem refusedCommands_answers : Obligations.RefusedCommands := by
  refine fun s node => ⟨rfl, fun k i hi => ?_⟩
  have hkind := refused_mem_kindCommands hi
  refine ⟨node_of_mem_kindCommands hkind, fun h => kindCommands_of_notOfKind h i hkind, ?_⟩
  rintro flags d hreg rfl
  exact exec_refused hreg hi

/-! ## `DISABLE` of a critical node -/

/-- `DISABLE` of a critical node ends before any access (R243). -/
theorem disable_critical {s : State} {node : ClockId} {flags : NodeFlags} {d : NodeData}
    (hreg : Registered s node flags d) (hcritical : flags.critical = true)
    (hd : d.kind ∈ [NodeKind.fpll, .dpll, .mck, .gck, .peri]) :
    exec (disableOf d.kind node) s = .next (s.result 0 0) := by
  cases d with
  | fpll n =>
    simp [disableOf, NodeData.kind, exec, execFpllDisable, prologue_of_registered hreg, NodeData.fpll?, hcritical]
  | dpll n =>
    simp [disableOf, NodeData.kind, exec, execDpllDisable, prologue_of_registered hreg, NodeData.dpll?, hcritical]
  | mck n => exact mckDisable_kept hreg (.inl hcritical)
  | gck n =>
    simp [disableOf, NodeData.kind, exec, execGckDisable, prologue_of_registered hreg, NodeData.gck?, hcritical]
  | peri n =>
    simp [disableOf, NodeData.kind, exec, execPeriDisable, prologue_of_registered hreg, NodeData.peri?, hcritical]
  | prog n | osc n => simp [NodeData.kind] at hd

/-- Settles O24: the answer of the kind's `DISABLE` is the dispatch command's too. -/
theorem criticalDisableDoesNothing : Obligations.CriticalDisableDoesNothing :=
  fun _ _ _ _ hreg hcritical hd => disable_both hreg (disable_critical hreg hcritical hd)

/-! ## The dispatch commands -/

/-- A dispatch command finds no kind to go by where nothing is registered (R241). -/
theorem dispatchCommands_of_unregistered {s : State} {node : ClockId} (h : Unregistered s node) :
    ∀ i ∈ dispatchCommands node, exec i s = .next (s.raise .invalidArgument) := by
  intro i hi
  rcases dispatch_cases hi s with hraise | ⟨k, -, -, hk, -⟩
  · exact hraise
  · rw [dispatchKind_of_unregistered h] at hk
    cases hk

theorem dispatchCommands_opcodes (node : ClockId) :
    (dispatchCommands node).map (fun i => (opcodeOf i).toNat) = [0xF0, 0xF1, 0xF2, 0xF3, 0xF4] := rfl

/-- The opcode of a kind's command is `(code << 4) | fn` (R84, R241). -/
theorem kindCommands_opcodes (k : NodeKind) (node : ClockId) :
    (kindCommands k node).map (fun i => (opcodeOf i).toNat) =
      [k.code * 16, k.code * 16 + 1, k.code * 16 + 2, k.code * 16 + 3, k.code * 16 + 4] := by
  cases k <;> rfl

/-- Settles O25: the opcodes, the ids turned away, and for a registered node the command of its kind. -/
theorem dispatchRunsKindsCommand : Obligations.DispatchRunsKindsCommand := by
  refine ⟨fun node k => ⟨dispatchCommands_opcodes node, kindCommands_opcodes k node⟩,
    fun s node h => dispatchCommands_of_unregistered h, fun s node flags d hreg => ⟨?_, ?_, ?_, ?_, ?_⟩⟩
  · exact enable_both hreg rfl _ (by simp)
  · exact disable_both hreg rfl _ (by simp)
  · exact getRate_both hreg rfl _ (by simp)
  · exact setRate_both hreg rfl _ (by simp)
  · exact setParent_both hreg rfl _ (by simp)

/-! ## `NODE.RESOLVE` -/

/-- `{has_parent, parent[15:0]}`: bit 16 stands above the parent's id (R233). -/
theorem parentResult_some (p : ClockId) : parentResult (some p) = BitVec.ofNat 64 (2 ^ 16 + p.toNat) := by
  have hor : 2 ^ 16 + p.toNat = 2 ^ 16 ||| p.toNat := by
    simpa using Nat.two_pow_add_eq_or_of_lt p.isLt 1
  rw [hor, BitVec.ofNat_or, BitVec.ofNat_toNat]
  rfl

theorem nodeResolve_of_unregistered {s : State} {node : ClockId} (h : Unregistered s node) :
    exec (.nodeResolve node) s = .next (s.raise .invalidArgument) := by
  simp only [exec, execNodeResolve, prologue_of_unregistered h]

theorem nodeResolve_of_registered {s : State} {node : ClockId} {flags : NodeFlags} {d : NodeData}
    (hreg : Registered s node flags d) :
    exec (.nodeResolve node) s = .next (s.result (BitVec.ofNat 64 d.kind.code) (parentResult d.parent?)) := by
  simp only [exec, execNodeResolve, prologue_of_registered hreg, Option.map_some]

/-- Settles O46: the word is `encode_eq`; the answer to an id turned away, and to a node with or without a parent. -/
theorem nodeResolveResult : Obligations.NodeResolveResult := by
  refine fun s node => ⟨encode_eq _, nodeResolve_of_unregistered, fun flags d hreg => ?_⟩
  rw [nodeResolve_of_registered hreg]
  cases hp : d.parent? with
  | none => rfl
  | some p => rw [parentResult_some]; rfl

end Sys2Proof.Proofs
end
